-- ==== Sys2Proof/Word.lean ====
section
/-! DEFINITION. The widths of the block (R5): words, bytes, nibbles and single bits. -/

namespace Sys2Proof

/-- A word is 32 bits, bit 0 the least significant (R5). -/
abbrev Word := BitVec 32

/-- An operand field, a character, a command byte: 8 bits (R21, R90). -/
abbrev Byte := BitVec 8

/-- Half a byte, as it goes over D7..D4 (R84). -/
abbrev Nibble := BitVec 4

end Sys2Proof
end

