-- ==== Sys2Proof/Config.lean ====
section
/-! DEFINITION. What is fixed for the block (R4) and the values the spec leaves free: launch parameters, launch
contents, draws and turns. A free value is an opaque constant without a body. -/

namespace Sys2Proof

/-- The two error kinds of opening (R120, R220). -/
inductive InitError where
  | deviceOpenFailed
  | mapFailed
deriving DecidableEq, Repr, Inhabited

/-- OPEN_OUTCOME (R4): whether opening succeeds is the environment's, not the block's (R120). -/
inductive OpenOutcome where
  | ok
  | fails (e : InitError)
deriving DecidableEq, Repr, Inhabited

/-- One turn of the free scheduler (R60): a context, or the clock. -/
inductive Turn where
  /-- `Tick(extra + 1)`: R271 has `δ ≥ 1`. -/
  | clock (extra : Nat)
  /-- Context `c` may take its next action, or be handed its next request. -/
  | context (c : Nat)
deriving DecidableEq, Repr, Inhabited

namespace Config

/-- BLOCK_BYTES (R4). -/
def blockBytes : Nat := 4096
/-- SET_WORD, CLR_WORD, LEVEL_WORD (R4). -/
def setWord : Nat := 7
/-- CLR_WORD (R4). -/
def clrWord : Nat := 10
/-- LEVEL_WORD (R4). -/
def levelWord : Nat := 13
/-- PIN_MAX (R4, D6). -/
def pinMax : Nat := 53
/-- RW_PIN_MAX (R4, D6). -/
def rwPinMax : Nat := 31
/-- TEXT_LEN_MAX (R4, D27). -/
def textLenMax : Nat := 65535

/-- The named pins, which must be preserved for compatibility (R112). -/
def greenLed : Nat := 26
def redLed : Nat := 5
def button : Nat := 19
def lcdRs : Nat := 25
def lcdEn : Nat := 24
def lcdD4 : Nat := 23
def lcdD5 : Nat := 10
def lcdD6 : Nat := 27
def lcdD7 : Nat := 22

/-- The delays in microseconds (R4, R290). -/
def tPoll : Nat := 10000
def tSettle : Nat := 50000
def tBlink : Nat := 200000
/-- T_PWR: reading A of conflict C3. -/
def tPwr : Nat := 15000
def tInit1 : Nat := 4100
def tInit2 : Nat := 100
def tInit3 : Nat := 100
/-- T_INIT4: decided by the spec, D18. -/
def tInit4 : Nat := 100
def tEnHi : Nat := 1
def tEnLo : Nat := 1
def tExec : Nat := 100
def tExecLong : Nat := 2000

/-- DESIGN CHOICE (entry 1): FSEL0..FSEL5 at launch are unspecified (R40), so they are free words. -/
opaque launchFsel : Nat → Word
/-- DESIGN CHOICE (entry 1): OUT at launch is unspecified (R40), so it is a free word. -/
opaque launchOut : Word
/-- OPEN_OUTCOME of the launch, OPEN (R4; entry 3). -/
opaque launchOutcome : OpenOutcome
/-- LCD_COLS of the launch is this plus one, hence 1..64, OPEN (R4; entry 3). -/
opaque launchCols : Fin 64
/-- NCTX of the launch is this plus one, hence at least 1, OPEN (R4; entry 3). -/
opaque launchExtraCtx : Nat
/-- GPIO_BASE, OPEN; no rule reads it (R50; entry 21). -/
opaque gpioBase : Nat
/-- The external levels drawn at a load of LEVEL, free (R56; entry 4). -/
opaque draw : Nat → Word
/-- The free scheduler's choices (R60; entry 5). -/
opaque turn : Nat → Turn

end Config

end Sys2Proof
end

