-- ==== Sys2Proof/Syntax.lean ====
section
/-! DEFINITION. The rows of spec/opcode_table.json as data: fourteen operations (R94), the payload word (R92),
three pseudo-operations (R111) and the eight words of the LCD bus (R86). -/

namespace Sys2Proof

/-- The document's PinMode (R11). -/
inductive Mode where
  | input
  | output
deriving DecidableEq, Repr

/-- A level is one bit, Low or High (R11). -/
inductive Level where
  | low
  | high
deriving DecidableEq, Repr

/-- The register-select line: 0 command, 1 character data (R84). -/
inductive Rs where
  | command
  | data
deriving DecidableEq, Repr

/-- One constructor per row of the opcode table. Operands are as wide as their encoded fields; a value outside an
operation's precondition is refused by the block (R106, R228), not by the syntax. -/
inductive Instr where
  /-- MAPOPEN, R120. -/
  | mapopen
  /-- MAPCLOSE, R121. -/
  | mapclose
  /-- SHUTDOWN, R122. -/
  | shutdown
  /-- SETMODE pin, mode, R130. -/
  | setmode (pin : Byte) (mode : Mode)
  /-- WRITE pin, level, R131. -/
  | write (pin : Byte) (level : Level)
  /-- READ pin, R132. -/
  | read (pin : Byte)
  /-- WAITBTN pin, R153. -/
  | waitbtn (pin : Byte)
  /-- BLINK pin, times, R170. -/
  | blink (pin : Byte) (times : BitVec 16)
  /-- LCDINIT, R187. -/
  | lcdinit
  /-- LCDCLEAR, R191. -/
  | lcdclear
  /-- LCDCURSOR row, col, R192. -/
  | lcdcursor (row : Byte) (col : Byte)
  /-- LCDSTR text, R193. -/
  | lcdstr (text : List Byte)
  /-- LCDLINE line, text, R194. -/
  | lcdline (line : Byte) (text : List Byte)
  /-- LCDBYTE rs, byte, R195. -/
  | lcdbyte (rs : Rs) (byte : Byte)
  /-- W, one payload word of a text request, R92. -/
  | payload (char : Byte)
  /-- SETPINMODE, another name of SETMODE, R150. -/
  | setpinmode (pin : Byte) (mode : Mode)
  /-- WRITEPIN, another name of WRITE, R151. -/
  | writepin (pin : Byte) (level : Level)
  /-- READPIN, another name of READ, R152. -/
  | readpin (pin : Byte)
  /-- INIT3, the nibble 0x3 of the initialization, R86. -/
  | init3
  /-- INIT2, the nibble 0x2 of the initialization, R86. -/
  | init2
  /-- FUNCSET, command byte 0x28, R86. -/
  | funcset
  /-- DISPCTL, command byte 0x0C, R86. -/
  | dispctl
  /-- ENTRYMODE, command byte 0x06, R86. -/
  | entrymode
  /-- CLEAR, command byte 0x01, R86. -/
  | clear
  /-- SETADDR, command byte 0x80 | addr, R87. -/
  | setaddr (addr : BitVec 7)
  /-- DATA, a character byte sent with RS = 1, R86. -/
  | data (char : Byte)
deriving DecidableEq, Repr

/-- The instruction whose words an instruction has: a pseudo-operation has those of its Pin Driver operation (R111),
every other instruction its own. -/
def Instr.core : Instr → Instr
  | .setpinmode p m => .setmode p m
  | .writepin p l => .write p l
  | .readpin p => .read p
  | .mapopen => .mapopen
  | .mapclose => .mapclose
  | .shutdown => .shutdown
  | .setmode p m => .setmode p m
  | .write p l => .write p l
  | .read p => .read p
  | .waitbtn p => .waitbtn p
  | .blink p n => .blink p n
  | .lcdinit => .lcdinit
  | .lcdclear => .lcdclear
  | .lcdcursor r c => .lcdcursor r c
  | .lcdstr t => .lcdstr t
  | .lcdline l t => .lcdline l t
  | .lcdbyte rs b => .lcdbyte rs b
  | .payload c => .payload c
  | .init3 => .init3
  | .init2 => .init2
  | .funcset => .funcset
  | .dispctl => .dispctl
  | .entrymode => .entrymode
  | .clear => .clear
  | .setaddr a => .setaddr a
  | .data c => .data c

end Sys2Proof
end

