-- ==== Sys2Proof/WellFormed.lean ====
section
/-! DEFINITION. Which instructions have an encoding: a text is at most TEXT_LEN_MAX characters long, because LEN has
16 bits (R92). Every other operand fills its field exactly. -/

namespace Sys2Proof

/-- LEN fits its 16 bits (R22, R92). -/
def textFits (text : List Byte) : Bool := text.length ≤ Config.textLenMax

/-- The check of each instruction, constructor by constructor. -/
def Instr.wellFormed : Instr → Bool
  | .lcdstr t => textFits t
  | .lcdline _ t => textFits t
  | .mapopen => true
  | .mapclose => true
  | .shutdown => true
  | .setmode _ _ => true
  | .write _ _ => true
  | .read _ => true
  | .waitbtn _ => true
  | .blink _ _ => true
  | .lcdinit => true
  | .lcdclear => true
  | .lcdcursor _ _ => true
  | .lcdbyte _ _ => true
  | .payload _ => true
  | .setpinmode _ _ => true
  | .writepin _ _ => true
  | .readpin _ => true
  | .init3 => true
  | .init2 => true
  | .funcset => true
  | .dispctl => true
  | .entrymode => true
  | .clear => true
  | .setaddr _ => true
  | .data _ => true

end Sys2Proof
end

