-- ==== Sys2Proof/Decode.lean ====
section
/-! DEFINITION. The three encoding spaces of the opcode table: request words with their payload (R90 to R94), payload
words (R92) and the words of the LCD bus (R84 to R87). The decoder first, then the encoder. -/

namespace Sys2Proof

/-- Why words are no request (R105): the first three make the block refuse with IllegalRequest, `incomplete` says that
the requester has not laid down all the words of a request yet (entry 10). -/
inductive DecodeError where
  /-- An OPC that no row of R94 has. -/
  | unknownOpcode
  /-- A one in a reserved-zero bit of a listed OPC. -/
  | reservedBit
  /-- A payload word with a one in bits 31 to 8. -/
  | illegalPayload
  /-- Fewer words than the request needs. -/
  | incomplete
  /-- Words left over after one whole request. -/
  | trailingWords
  /-- A nibble that is no row of the LCD bus. -/
  | unknownNibble
  /-- A command byte that is no row of the LCD bus (R108). -/
  | unknownCommand
deriving DecidableEq, Repr

/-- The words of one instruction, by the table's "space". -/
inductive Encoded where
  /-- A request word and the payload words that follow it (R90). -/
  | request (words : List Word)
  /-- One payload word (R92). -/
  | payload (word : Word)
  /-- A single nibble on D7..D4, with RS (R84). -/
  | nibble (rs : Rs) (value : Nibble)
  /-- A byte, sent as two nibbles, with RS (R85). -/
  | byte (rs : Rs) (value : Byte)
deriving DecidableEq, Repr

/-! ### Fields (R90) -/

def opcOf (r : Word) : Byte := r.extractLsb' 24 8
def fieldA (r : Word) : Byte := r.extractLsb' 16 8
def fieldB (r : Word) : Byte := r.extractLsb' 8 8
def fieldC (r : Word) : Byte := r.extractLsb' 0 8

/-- `b ++ c`, `256 * b + c` (R92). -/
def joinBytes (b c : Byte) : BitVec 16 := b.setWidth 16 <<< 8 ||| c.setWidth 16

/-- The sixteen-bit operand `B ++ C` (R92). -/
def fieldBC (r : Word) : BitVec 16 := joinBytes (fieldB r) (fieldC r)

/-- LEN of a text request, known from the request word alone (R90). -/
def payloadLength (r : Word) : Nat :=
  if opcOf r = 0x43#8 ∨ opcOf r = 0x44#8 then (fieldBC r).toNat else 0

/-- `0000000e`: Input is 0, Output is 1 (R11); anything else has a reserved bit set. -/
def modeOfByte (b : Byte) : Option Mode :=
  if b = 0#8 then some .input else if b = 1#8 then some .output else none

/-- Low is 0, High is 1 (R11). -/
def levelOfByte (b : Byte) : Option Level :=
  if b = 0#8 then some .low else if b = 1#8 then some .high else none

/-- RS is 0 for a command and 1 for data (R84). -/
def rsOfByte (b : Byte) : Option Rs :=
  if b = 0#8 then some .command else if b = 1#8 then some .data else none

/-! ### The decoder -/

/-- One payload word: zero above bit 7 (R92, R105). -/
def decodePayload (w : Word) : Except DecodeError Byte :=
  if w.extractLsb' 8 24 = 0#24 then .ok (w.extractLsb' 0 8) else .error .illegalPayload

/-- The `n` payload words of a text and the words after them (R92). -/
def takeText : Nat → List Word → Except DecodeError (List Byte × List Word)
  | 0, ws => .ok ([], ws)
  | _ + 1, [] => .error .incomplete
  | n + 1, w :: ws =>
    match decodePayload w with
    | .error e => .error e
    | .ok c =>
      match takeText n ws with
      | .error e => .error e
      | .ok (t, rest) => .ok (c :: t, rest)

/-- Answer `i` when the reserved-zero bits are zero, and refuse by name otherwise (R105). -/
def whenReservedZero (zero : Bool) (i : Option Instr) (rest : List Word) :
    Except DecodeError (Instr × List Word) :=
  match zero, i with
  | true, some i => .ok (i, rest)
  | _, _ => .error .reservedBit

/-- A request of the text forms: LEN payload words follow (R92). -/
def withText (n : Nat) (mk : List Byte → Instr) (rest : List Word) :
    Except DecodeError (Instr × List Word) :=
  match takeText n rest with
  | .error e => .error e
  | .ok (t, rest) => .ok (mk t, rest)

/-- The rows of R94: the request the requester's words begin with, and the words left over. -/
def decodeRequest : List Word → Except DecodeError (Instr × List Word)
  | [] => .error .incomplete
  | r :: rest =>
    match (opcOf r).toNat with
    | 0x01 => whenReservedZero (fieldA r = 0#8 && fieldB r = 0#8 && fieldC r = 0#8) (some .mapopen) rest
    | 0x02 => whenReservedZero (fieldA r = 0#8 && fieldB r = 0#8 && fieldC r = 0#8) (some .mapclose) rest
    | 0x03 => whenReservedZero (fieldA r = 0#8 && fieldB r = 0#8 && fieldC r = 0#8) (some .shutdown) rest
    | 0x10 => whenReservedZero (fieldC r = 0#8) ((modeOfByte (fieldB r)).map (.setmode (fieldA r))) rest
    | 0x11 => whenReservedZero (fieldC r = 0#8) ((levelOfByte (fieldB r)).map (.write (fieldA r))) rest
    | 0x12 => whenReservedZero (fieldB r = 0#8 && fieldC r = 0#8) (some (.read (fieldA r))) rest
    | 0x20 => whenReservedZero (fieldB r = 0#8 && fieldC r = 0#8) (some (.waitbtn (fieldA r))) rest
    | 0x30 => whenReservedZero true (some (.blink (fieldA r) (fieldBC r))) rest
    | 0x40 => whenReservedZero (fieldA r = 0#8 && fieldB r = 0#8 && fieldC r = 0#8) (some .lcdinit) rest
    | 0x41 => whenReservedZero (fieldA r = 0#8 && fieldB r = 0#8 && fieldC r = 0#8) (some .lcdclear) rest
    | 0x42 => whenReservedZero (fieldC r = 0#8) (some (.lcdcursor (fieldA r) (fieldB r))) rest
    | 0x43 => if fieldA r = 0#8 then withText (fieldBC r).toNat .lcdstr rest else .error .reservedBit
    | 0x44 => withText (fieldBC r).toNat (.lcdline (fieldA r)) rest
    | 0x45 => whenReservedZero (fieldB r = 0#8) ((rsOfByte (fieldA r)).map (.lcdbyte · (fieldC r))) rest
    | _ => .error .unknownOpcode

/-- The nibble rows of the LCD bus, which are commands (R86). -/
def decodeNibble (rs : Rs) (n : Nibble) : Except DecodeError Instr :=
  match rs with
  | .command => if n = 0x3#4 then .ok .init3 else if n = 0x2#4 then .ok .init2 else .error .unknownNibble
  | .data => .error .unknownNibble

/-- The byte rows of the LCD bus (R86, R87). -/
def decodeByte (rs : Rs) (b : Byte) : Except DecodeError Instr :=
  match rs with
  | .data => .ok (.data b)
  | .command =>
    if b = 0x28#8 then .ok .funcset
    else if b = 0x0C#8 then .ok .dispctl
    else if b = 0x06#8 then .ok .entrymode
    else if b = 0x01#8 then .ok .clear
    else if b.extractLsb' 7 1 = 1#1 then .ok (.setaddr (b.extractLsb' 0 7))
    else .error .unknownCommand

/-- The instruction that a whole piece of encoded text is, in its space. -/
def decode : Encoded → Except DecodeError Instr
  | .request ws =>
    match decodeRequest ws with
    | .error e => .error e
    | .ok (i, []) => .ok i
    | .ok (_, _ :: _) => .error .trailingWords
  | .payload w => (decodePayload w).map .payload
  | .nibble rs n => decodeNibble rs n
  | .byte rs b => decodeByte rs b

/-- The words the host lays down for a table word of `nbits` bits. A 32-bit word that is a request has LEN payload
words of zeros after it; any other 32-bit word is read as a payload word. -/
def wordsOfTableWord (w : Nat) : List Word :=
  BitVec.ofNat 32 w :: List.replicate (payloadLength (BitVec.ofNat 32 w)) 0#32

/-- A bus word of at most 8 bits. The table's match value leaves RS out (entry 17), so the command rows are tried
first, then the nibble rows, and what is neither is character data. -/
def decodeBusWord (w : Nat) : Instr :=
  match decodeByte .command (BitVec.ofNat 8 w) with
  | .ok i => i
  | .error _ =>
    match decodeNibble .command (BitVec.ofNat 4 w) with
    | .ok i => if w < 16 then i else .data (BitVec.ofNat 8 w)
    | .error _ => .data (BitVec.ofNat 8 w)

/-- What the decoder reads from a word of the opcode table, numbered as the table numbers it. -/
def decodeTableWord (nbits w : Nat) : Option Instr :=
  if nbits = 32 then
    match decodeRequest (wordsOfTableWord w) with
    | .ok (i, _) => some i
    | .error _ => (decode (.payload (BitVec.ofNat 32 w))).toOption
  else if nbits ≤ 8 then some (decodeBusWord w)
  else none

/-! ### The encoder, from the same tables -/

/-- `OPC ++ A ++ B ++ C` (R90). -/
def pack (opc a b c : Byte) : Word :=
  opc.setWidth 32 <<< 24 ||| a.setWidth 32 <<< 16 ||| b.setWidth 32 <<< 8 ||| c.setWidth 32

def Mode.toByte : Mode → Byte
  | .input => 0#8
  | .output => 1#8

def Level.toByte : Level → Byte
  | .low => 0#8
  | .high => 1#8

def Rs.toByte : Rs → Byte
  | .command => 0#8
  | .data => 1#8

/-- The one-bit value of a level (R11). -/
def Level.toBool : Level → Bool
  | .low => false
  | .high => true

/-- The level with a one-bit value (R11). -/
def levelOfBool (b : Bool) : Level := if b then .high else .low

/-- The high and the low half of a sixteen-bit operand (R92). -/
def highByte (n : BitVec 16) : Byte := n.extractLsb' 8 8
def lowByte (n : BitVec 16) : Byte := n.extractLsb' 0 8

/-- Payload word `j` carries character `j` in bits 7 to 0 and zero above (R92). -/
def payloadWord (c : Byte) : Word := c.setWidth 32

/-- A request word of a text form and its payload (R92). -/
def textRequest (opc a : Byte) (t : List Byte) : List Word :=
  pack opc a (highByte (BitVec.ofNat 16 t.length)) (lowByte (BitVec.ofNat 16 t.length)) :: t.map payloadWord

/-- The command byte of the cursor address `a`: `0x80 | a` (R87). -/
def addressByte (a : BitVec 7) : Byte := 0x80#8 ||| a.setWidth 8

/-- The words of an instruction (R86, R87, R90 to R94, R111). -/
def encode : Instr → Encoded
  | .mapopen => .request [pack 0x01#8 0#8 0#8 0#8]
  | .mapclose => .request [pack 0x02#8 0#8 0#8 0#8]
  | .shutdown => .request [pack 0x03#8 0#8 0#8 0#8]
  | .setmode p m => .request [pack 0x10#8 p m.toByte 0#8]
  | .write p l => .request [pack 0x11#8 p l.toByte 0#8]
  | .read p => .request [pack 0x12#8 p 0#8 0#8]
  | .waitbtn p => .request [pack 0x20#8 p 0#8 0#8]
  | .blink p n => .request [pack 0x30#8 p (highByte n) (lowByte n)]
  | .lcdinit => .request [pack 0x40#8 0#8 0#8 0#8]
  | .lcdclear => .request [pack 0x41#8 0#8 0#8 0#8]
  | .lcdcursor r c => .request [pack 0x42#8 r c 0#8]
  | .lcdstr t => .request (textRequest 0x43#8 0#8 t)
  | .lcdline l t => .request (textRequest 0x44#8 l t)
  | .lcdbyte rs b => .request [pack 0x45#8 rs.toByte 0#8 b]
  | .payload c => .payload (payloadWord c)
  | .setpinmode p m => .request [pack 0x10#8 p m.toByte 0#8]
  | .writepin p l => .request [pack 0x11#8 p l.toByte 0#8]
  | .readpin p => .request [pack 0x12#8 p 0#8 0#8]
  | .init3 => .nibble .command 0x3#4
  | .init2 => .nibble .command 0x2#4
  | .funcset => .byte .command 0x28#8
  | .dispctl => .byte .command 0x0C#8
  | .entrymode => .byte .command 0x06#8
  | .clear => .byte .command 0x01#8
  | .setaddr a => .byte .command (addressByte a)
  | .data c => .byte .data c

end Sys2Proof
end

