-- ==== Sys2Proof/Machine/State.lean ====
section
/-! DEFINITION. The state of the block (10_state.md R20 to R40) as plain data, and its launch values (R40). -/

namespace Sys2Proof.Machine

/-- Why the model stops where the spec gives no behaviour. `step` reaches none of these from a state that meets the
invariants of Safety.lean (entry 20). -/
inductive Fault where
  /-- Raised by every meaning when the executing context's number is not below NCTX: there is no such context (R20). Safe. -/
  | noSuchContext
  /-- Raised by every meaning when its instruction is offered to a context that runs another operation or is Refused:
  a request is handed only to an Idle context (R93). Safe. -/
  | contextBusy
  /-- Raised by the LCD-bus rows in a context that is not at a transmission of theirs: LcdNibble and LcdByte are no
  requests (R94, N34). Safe. -/
  | notSending
  /-- Raised by `Release` when the context does not hold the lock, which R181 requires. Safe. -/
  | lockNotHeld
  /-- Raised by `step` for a Running context without a position, which R24 excludes. Safe. -/
  | noPosition
deriving DecidableEq, Repr

/-- Where the spec itself gives no meaning. -/
inductive Refusal where
  /-- An instruction without a meaning; no arm of exec answers so. Safe. -/
  | notModelled (mnemonic : String)
  /-- Raised by the register-block access primitives for an access the spec gives no meaning: a load of SET or CLR, a
  store to LEVEL, any other word, a misaligned offset (R57, R61). Safe. -/
  | undefinedAccess (byteOffset : Nat)
deriving DecidableEq, Repr

/-! ### Control state -/

/-- `map_state` (R30). -/
inductive MapState where
  | unmapped
  | mapped
  | released
  | failed (e : InitError)
deriving DecidableEq, Repr

/-- `lcd_state` (R31). -/
inductive LcdState where
  | uninitialized
  | fourBitModeNegotiating
  | ready
deriving DecidableEq, Repr

/-- `lock` (R32). -/
inductive Lock where
  | free
  | held (c : Nat)
deriving DecidableEq, Repr

/-- The closed list of refusal reasons (R226). -/
inductive RefuseReason where
  | illegalRequest
  | blockNotValid
  | alreadyOpened
  | closeWhileBusy
  | pinOutOfRange
  | rowOutOfRange
  | colOutOfRange
  | lcdNotReady
deriving DecidableEq, Repr

/-- `status` of a context (R23); the reason is the recorded one of R226. -/
inductive Status where
  | idle
  | running
  | refused (reason : RefuseReason)
deriving DecidableEq, Repr

/-! ### Positions in the fixed action sequences (R24) -/

/-- The labels of SHUTDOWN (R122). -/
inductive ShutdownLabel where
  | a0
  | a1
  | a2
deriving DecidableEq, Repr

/-- The labels of SETMODE (R130). -/
inductive SetmodeLabel where
  | a0
  | a1
  | a2
  | a3
  | a4
deriving DecidableEq, Repr

/-- The labels of WRITE and READ (R131, R132). -/
inductive PinLabel where
  | a0
  | a1
deriving DecidableEq, Repr

/-- The labels of WAITBTN (R153). -/
inductive WaitLabel where
  | p0
  | p1
  | r0
  | r1
  | s0
  | s1
deriving DecidableEq, Repr

/-- The labels of BLINK (R170). -/
inductive BlinkLabel where
  | b0
  | b1
  | b2
  | b3
  | b4
deriving DecidableEq, Repr

/-- The labels of the procedure LcdNibble (R182). -/
inductive NibbleLabel where
  | n0
  | n1
  | n2
  | n3
  | n4
  | n5
  | n6
  | n7
deriving DecidableEq, Repr

/-- The positions inside the procedure LcdByte (R183): RS, the high nibble, the low nibble, the execution wait. -/
inductive ByteLabel where
  | y0
  | high (n : NibbleLabel)
  | low (n : NibbleLabel)
  | y1
deriving DecidableEq, Repr

/-- The four nibbles of the initialization, in order: 0x3, 0x3, 0x3, 0x2 (R187). -/
inductive InitNibble where
  | first
  | second
  | third
  | commit
deriving DecidableEq, Repr

/-- The four configuration bytes of the initialization, in order: 0x28, 0x0C, 0x06, 0x01 (R187). -/
inductive InitByte where
  | functionSet
  | displayControl
  | entryMode
  | clearDisplay
deriving DecidableEq, Repr

/-- The labels of LCDINIT (R187) with those of the procedures it calls. -/
inductive InitLabel where
  | i0
  | i1
  | i2
  | i3
  | nibble (k : InitNibble) (n : NibbleLabel)
  /-- The delay after nibble `k`: i4, i5, i6, i7. -/
  | wait (k : InitNibble)
  | byte (k : InitByte) (y : ByteLabel)
  | i8
  | i9
deriving DecidableEq, Repr

/-- The labels of the other LCD operations (R191 to R195): `Acquire` with the Ready test, the command byte, the
characters, `Release`, `Return`. -/
inductive LcdLabel where
  /-- c0, u0, w0, l0, k0. -/
  | acquire
  /-- Inside the LcdByte of the operation's one byte. -/
  | single (y : ByteLabel)
  /-- Inside the LcdByte of TEXT[IDX]: w1, l1. -/
  | text (y : ByteLabel)
  /-- c1, u1, w2, l2, k1. -/
  | release
  /-- c2, u2, w3, l3, k2. -/
  | ret
deriving DecidableEq, Repr

/-- `upc`: the pair (operation, label of its next action) of a Running context (R24). -/
inductive Upc where
  /-- No operation. -/
  | none
  /-- MAPOPEN a0. -/
  | mapopen
  /-- MAPCLOSE a0. -/
  | mapclose
  | shutdown (l : ShutdownLabel)
  | setmode (l : SetmodeLabel)
  | write (l : PinLabel)
  | read (l : PinLabel)
  | waitbtn (l : WaitLabel)
  | blink (l : BlinkLabel)
  | lcdinit (l : InitLabel)
  | lcdclear (l : LcdLabel)
  | lcdcursor (l : LcdLabel)
  | lcdstr (l : LcdLabel)
  | lcdline (l : LcdLabel)
  | lcdbyte (l : LcdLabel)
deriving DecidableEq, Repr

/-- The register update that the pseudocode writes between the action a context took last and its next one. It belongs to
the next action (R10), so until that action it is still to be done (entry 9). -/
inductive Between where
  | nothing
  /-- `CNT <- times` (R170). -/
  | loadCount
  /-- `CNT <- CNT - 1` (R170). -/
  | countDown
  /-- `IDX <- 0` (R193, R194). -/
  | firstChar
  /-- `IDX <- IDX + 1` (R193, R194). -/
  | nextChar
deriving DecidableEq, Repr

/-! ### Contexts -/

/-- One requester context: its registers (R21, R22), its status (R23), its position (R24) with the register update its next
action begins with (R10), its delay (R25, R270), the response word it last handed back (R91), and the words its requester
has still to hand over (R66, R93; entry 6). -/
structure Ctx where
  a : Byte
  b : Byte
  c : Byte
  tmp : Word
  cnt : BitVec 16
  idx : BitVec 16
  res : BitVec 1
  text : List Byte
  status : Status
  upc : Upc
  between : Between
  wake : Nat
  delayFrom : Option Nat
  response : Option Word
  todo : List Word
deriving DecidableEq, Repr

/-- A context at launch: Idle (R40). Its registers have no launch value and are never read before they are written; the
model holds zero in them (DESIGN CHOICE, entry 2). -/
def Ctx.launch : Ctx where
  a := 0#8
  b := 0#8
  c := 0#8
  tmp := 0#32
  cnt := 0#16
  idx := 0#16
  res := 0#1
  text := []
  status := .idle
  upc := .none
  between := .nothing
  wake := 0
  delayFrom := none
  response := none
  todo := []

/-! ### Observation (R14, R186) -/

/-- The events of the history H (R14), each with its context `c` and its time `t`. -/
inductive Event where
  | ld (c t w : Nat) (v : Word)
  | st (c t w : Nat) (v : Word)
  /-- A delay of at least `d`, held from `t0` until `t1`. -/
  | dly (c d t0 t1 : Nat)
  | acq (c t : Nat)
  | rel (c t : Nat)
  /-- `Ret(c, v)`: the level of READ, nothing for every other operation. -/
  | ret (c t : Nat) (v : Option (BitVec 1))
  | err (c t : Nat) (e : InitError)
deriving DecidableEq, Repr

/-- A latch event: the display samples RS and D7..D4 (R186). -/
structure Latch where
  rs : BitVec 1
  nibble : Nibble
deriving DecidableEq, Repr

/-! ### The register block and the whole state -/

/-- The six function-select words, word offsets 0 to 5 (R26). -/
structure Fsel where
  w0 : Word
  w1 : Word
  w2 : Word
  w3 : Word
  w4 : Word
  w5 : Word
deriving DecidableEq, Repr

/-- The whole state. The last block of fields is the environment of R13 as plain data: launch parameters, draws, turns
and the executing context. -/
structure State where
  ctxs : List Ctx
  fsel : Fsel
  out : Word
  mapState : MapState
  lcdState : LcdState
  lock : Lock
  lcdCursor : Option (BitVec 7)
  lcdDisplayOn : Option Bool
  now : Nat
  hist : List Event
  latches : List Latch
  lcdCols : Nat
  openOutcome : OpenOutcome
  draws : List Word
  drawn : Nat
  agenda : List Turn
  turns : Nat
  cur : Nat
deriving DecidableEq, Repr

/-- Launch, the block's one reset (R40, R260): what the spec states, and free values where it says unspecified. -/
def State.reset : State where
  ctxs := List.replicate (Config.launchExtraCtx + 1) Ctx.launch
  fsel := {
    w0 := Config.launchFsel 0
    w1 := Config.launchFsel 1
    w2 := Config.launchFsel 2
    w3 := Config.launchFsel 3
    w4 := Config.launchFsel 4
    w5 := Config.launchFsel 5 }
  out := Config.launchOut
  mapState := .unmapped
  lcdState := .uninitialized
  lock := .free
  lcdCursor := none
  lcdDisplayOn := none
  now := 0
  hist := []
  latches := []
  lcdCols := Config.launchCols.val + 1
  openOutcome := Config.launchOutcome
  draws := []
  drawn := 0
  agenda := []
  turns := 0
  cur := 0

end Sys2Proof.Machine
end

