-- ==== Sys2Proof/Machine/Operands.lean ====
section
/-! DEFINITION. Operand arithmetic: from a pin to its function-select field and its one-hot word (R82, R83), from a byte
to its nibbles and lines (R84, R85), from a row and a column to the cursor command (R87), the execution wait (R184). -/

namespace Sys2Proof.Machine

/-- The function-select word of pin `p`: `p div 10` (R82, D5). -/
def fselWordOf (p : Nat) : Nat := p / 10

/-- The field offset of pin `p`: `(p mod 10) * 3` (R82). -/
def fieldOffset (p : Nat) : Nat := (p % 10) * 3

/-- `M_clr = ~(0b111 << off)` (R82). -/
def clearMask (p : Nat) : Word := ~~~(0b111#32 <<< fieldOffset p)

/-- `M_out = 0b001 << off` (R82). -/
def outputPattern (p : Nat) : Word := 0b001#32 <<< fieldOffset p

/-- The one-hot word `bit(p) = 1 << p` (R83). -/
def bitOf (p : Nat) : Word := 1#32 <<< p

/-- The physical address of word `w` (R50); no rule reads it. -/
def physicalAddress (w : Nat) : Nat := Config.gpioBase + 4 * w

/-- Line `i` of a nibble: D4 is bit 0 up to D7, bit 3 (R84). -/
def nibbleLine (n : Nibble) (i : Nat) : Level := levelOfBool (n.getLsbD i)

/-- The nibble sent first (R85). -/
def highNibble (b : Byte) : Nibble := b.extractLsb' 4 4

/-- The nibble sent second (R85). -/
def lowNibble (b : Byte) : Nibble := b.extractLsb' 0 4

/-- The level of the RS line: Low for a command, High for data (R84). -/
def rsLevel : Rs → Level
  | .command => .low
  | .data => .high

/-- ROW_OFFSET = (0x00, 0x40) (R87). -/
def rowOffset (row : Byte) : Byte := if row = 0#8 then 0x00#8 else 0x40#8

/-- The cursor command `0x80 | (ROW_OFFSET[row] + col)` (R87, R192). -/
def cursorByte (row col : Byte) : Byte := 0x80#8 ||| (rowOffset row + col)

/-- ExecWait (R184): long for the command bytes 0x01, 0x02 and 0x03, short otherwise (PRESUMED by the spec for home,
entry 19). -/
def execWait (rs : Rs) (b : Byte) : Nat :=
  match rs with
  | .command => if b = 0x01#8 ∨ b = 0x02#8 ∨ b = 0x03#8 then Config.tExecLong else Config.tExec
  | .data => Config.tExec

/-- The value of nibble `k` of the initialization (R187). -/
def initNibbleValue : InitNibble → Nibble
  | .first => 0x3#4
  | .second => 0x3#4
  | .third => 0x3#4
  | .commit => 0x2#4

/-- The wait after nibble `k` of the initialization (R187, conflict C3 reading A, D18). -/
def initWait : InitNibble → Nat
  | .first => Config.tInit1
  | .second => Config.tInit2
  | .third => Config.tInit3
  | .commit => Config.tInit4

/-- Configuration byte `k` of the initialization (R86, R187; the numbers are PRESUMED by the spec, entry 19). -/
def initByteValue : InitByte → Byte
  | .functionSet => 0x28#8
  | .displayControl => 0x0C#8
  | .entryMode => 0x06#8
  | .clearDisplay => 0x01#8

/-! ### Operands in the context's registers (R21) -/

/-- The pin operand, in `A`. -/
def Ctx.pin (x : Ctx) : Nat := x.a.toNat

/-- The mode operand, `B[0]` (R130). -/
def Ctx.mode (x : Ctx) : Mode := if x.b.getLsbD 0 then .output else .input

/-- The level operand, `B[0]` (R131). -/
def Ctx.level (x : Ctx) : Level := levelOfBool (x.b.getLsbD 0)

/-- The RS operand of LCDBYTE, `A[0]` (R195). -/
def Ctx.rs (x : Ctx) : Rs := if x.a.getLsbD 0 then .data else .command

/-- The count operand, `B ++ C` (R92). -/
def Ctx.times (x : Ctx) : BitVec 16 := joinBytes x.b x.c

/-- `TEXT[IDX]` (R193). It is read only while `IDX < LEN`. -/
def Ctx.char (x : Ctx) : Byte := x.text.getD x.idx.toNat 0#8

end Sys2Proof.Machine
end

