-- ==== Sys2Proof/Machine/Flags.lean ====
section
/-! DEFINITION. The block has no flags (R35). The one-bit result RES is the only value of that kind. -/

namespace Sys2Proof.Machine

/-- `RES <- if (TMP & (1 << pin)) != 0 then 1 else 0` (R132). -/
def sampleOf (v : Word) (p : Nat) : BitVec 1 := if v &&& bitOf p ≠ 0#32 then 1#1 else 0#1

end Sys2Proof.Machine
end

