-- ==== Sys2Proof/Machine/Ops.lean ====
section
/-! DEFINITION. The named operations: the register block (R50 to R57), the latch events and the shadow (R186, R199), and
the actions that every operation is made of (R10): load, store, delay, acquire, release, return, raise, refuse and the
hand-over. -/

namespace Sys2Proof.Machine

/-- What one step answers. -/
abbrev Result := Host.Outcome State Fault Refusal

/-! ### The executing context -/

/-- Write the executing context back. -/
def State.putCtx (s : State) (x : Ctx) : State := { s with ctxs := s.ctxs.set s.cur x }

/-- Append an event to the history (R14). -/
def State.record (s : State) (e : Event) : State := { s with hist := s.hist ++ [e] }

/-- The context moves on to position `u` (R24). -/
def Ctx.goto (x : Ctx) (u : Upc) : Ctx := { x with upc := u }

/-! ### Local computation (R10, R24) -/

/-- The context with the register update done that belongs to the action it is about to take (R10). -/
def Ctx.computed (x : Ctx) : Ctx :=
  { x with
    cnt :=
      match x.between with
      | .loadCount => x.times
      | .countDown => x.cnt - 1#16
      | .nothing => x.cnt
      | .firstChar => x.cnt
      | .nextChar => x.cnt
    idx :=
      match x.between with
      | .firstChar => 0#16
      | .nextChar => x.idx + 1#16
      | .nothing => x.idx
      | .loadCount => x.idx
      | .countDown => x.idx
    between := .nothing }

/-- The update `k` comes next: the registers stay as they are until the next action (R10), while `upc` names already the
action that the loop test after the update reaches (R24; entry 9). -/
def Ctx.thenCompute (x : Ctx) (k : Between) (label : Ctx → Upc) : Ctx :=
  { x with between := k, upc := label { x with between := k }.computed }

/-! ### The register block (R50 to R57) -/

/-- Function-select word `w`, `0 ≤ w ≤ 5` (R52). -/
def Fsel.get (f : Fsel) : Nat → Word
  | 0 => f.w0
  | 1 => f.w1
  | 2 => f.w2
  | 3 => f.w3
  | 4 => f.w4
  | 5 => f.w5
  | _ => 0#32

/-- Replace function-select word `w`, all 32 bits (R52). -/
def Fsel.set (f : Fsel) (w : Nat) (v : Word) : Fsel :=
  match w with
  | 0 => { f with w0 := v }
  | 1 => { f with w1 := v }
  | 2 => { f with w2 := v }
  | 3 => { f with w3 := v }
  | 4 => { f with w4 := v }
  | 5 => { f with w5 := v }
  | _ => f

/-- The function of pin `p` (R36). -/
def Fsel.func (f : Fsel) (p : Nat) : BitVec 3 := (f.get (fselWordOf p)).extractLsb' (fieldOffset p) 3

/-- The word with a one for every pin below `n` in Output mode. -/
def outputPins (f : Fsel) : Nat → Word
  | 0 => 0#32
  | n + 1 => (if f.func n = 0b001#3 then bitOf n else 0#32) ||| outputPins f n

/-- What a load of LEVEL returns (R56): `OUT[i]` for a pin in Output mode, the drawn bit for every other pin. That an
Output pin reads back its latch is PRESUMED by the spec (entry 18). -/
def levelWord (f : Fsel) (out draw : Word) : Word :=
  (out &&& outputPins f 32) ||| (draw &&& ~~~outputPins f 32)

/-- The next draw of the external levels: from the list while it lasts, then the free values (R56; entry 4). -/
def State.takeDraw (s : State) : Word × State :=
  match s.draws with
  | d :: ds => (d, { s with draws := ds })
  | [] => (Config.draw s.drawn, { s with drawn := s.drawn + 1 })

/-- The six LCD pins are all in Output mode (R186). -/
def lcdPinsDriven (f : Fsel) : Bool :=
  f.func Config.lcdRs = 0b001#3 && f.func Config.lcdEn = 0b001#3 && f.func Config.lcdD4 = 0b001#3 &&
    f.func Config.lcdD5 = 0b001#3 && f.func Config.lcdD6 = 0b001#3 && f.func Config.lcdD7 = 0b001#3

/-- The level of pin `p` in the latch, as bit `i` of a nibble (R84). -/
def lineBit (out : Word) (p i : Nat) : Nibble := (out.extractLsb' p 1).setWidth 4 <<< i

/-- What the display samples from the latch word: RS, and D7 to D4 (R186). -/
def latchOf (out : Word) : Latch where
  rs := out.extractLsb' Config.lcdRs 1
  nibble := lineBit out Config.lcdD7 3 ||| lineBit out Config.lcdD6 2 ||| lineBit out Config.lcdD5 1 |||
    lineBit out Config.lcdD4 0

/-- The latch events of a change of OUT: one when `OUT[24]` goes from 1 to 0 with the six pins driven (R186). -/
def latchEvents (f : Fsel) (old new : Word) : List Latch :=
  if old.getLsbD Config.lcdEn && !new.getLsbD Config.lcdEn && lcdPinsDriven f then [latchOf new] else []

/-- Change the output latch, with the latch events that this causes (R53, R54, R186). -/
def State.driveOut (s : State) (new : Word) : State :=
  { s with out := new, latches := s.latches ++ latchEvents s.fsel s.out new }

/-- RegLoad (R7): what a load of word `w` returns and the state after it; `none` where the spec gives the load no
meaning (R57). -/
def regLoad (w : Nat) (s : State) : Option (Word × State) :=
  if w < 6 then some (s.fsel.get w, s)
  else if w = Config.levelWord then some (levelWord s.fsel s.out s.takeDraw.1, s.takeDraw.2)
  else none

/-- RegStore (R7): the state after a store to word `w`; `none` where the spec gives the store no meaning (R57). -/
def regStore (w : Nat) (v : Word) (s : State) : Option State :=
  if w < 6 then some { s with fsel := s.fsel.set w v }
  else if w = Config.setWord then some (s.driveOut (s.out ||| v))
  else if w = Config.clrWord then some (s.driveOut (s.out &&& ~~~v))
  else none

/-- `MemRead(addr, 4)` (R7): only naturally aligned offsets have a meaning (R61). -/
def memRead (addr : Nat) (s : State) : Option (Word × State) :=
  if addr % 4 = 0 then regLoad (addr / 4) s else none

/-- `MemWrite(addr, 4, v)` (R7, R61). -/
def memWrite (addr : Nat) (v : Word) (s : State) : Option State :=
  if addr % 4 = 0 then regStore (addr / 4) v s else none

/-! ### Actions (R10) -/

/-- The action `MemRead(4*w, 4)`, recorded as `Ld(c, w, v)`. -/
def loadAct (w : Nat) (s : State) (k : Word → State → Result) : Result :=
  match memRead (4 * w) s with
  | some (v, s') => k v (s'.record (.ld s.cur s.now w v))
  | none => .refused (.undefinedAccess (4 * w))

/-- The action `MemWrite(4*w, 4, v)`, recorded as `St(c, w, v)`. -/
def storeAct (w : Nat) (v : Word) (s : State) (k : State → Result) : Result :=
  match memWrite (4 * w) v s with
  | some s' => k (s'.record (.st s.cur s.now w v))
  | none => .refused (.undefinedAccess (4 * w))

/-- SET for High, CLR for Low (R131). -/
def portOf : Level → Nat
  | .high => Config.setWord
  | .low => Config.clrWord

/-- One pin change: one store of `1 << p` to SET or to CLR (R131). -/
def pinWrite (p : Nat) (l : Level) (s : State) (k : State → Result) : Result :=
  storeAct (portOf l) (bitOf p) s k

/-- A pin of the display (R112). -/
def isLcdPin (p : Nat) : Bool :=
  p = Config.lcdRs || p = Config.lcdEn || p = Config.lcdD4 || p = Config.lcdD5 || p = Config.lcdD6 ||
    p = Config.lcdD7

/-- A pin written directly, outside LcdNibble and LcdByte: if it is one of the display's, what the display holds is
outside the model, and the shadow is Unknown (U4; DEDUCED, entry 13) until R199's table gives it a value again (DESIGN
CHOICE, entry 33). -/
def State.disturbLcd (s : State) (p : Nat) : State :=
  { s with
    lcdCursor := if isLcdPin p then none else s.lcdCursor
    lcdDisplayOn := if isLcdPin p then none else s.lcdDisplayOn }

/-- A pin change by WRITE or BLINK. -/
def directPinWrite (p : Nat) (l : Level) (s : State) (k : State → Result) : Result :=
  pinWrite p l s fun s => k (s.disturbLcd p)

/-- `Delay(d)` (R270), one action in two halves. The first sets `wake` and notes the start; the second is enabled once
`now ≥ wake`, records `Dly(c, d, t0, now)` and goes on with `k`. A held context does not move (R23). -/
def delayAct (d : Nat) (x : Ctx) (s : State) (k : Ctx → State → Result) : Result :=
  match x.delayFrom with
  | none => .next (s.putCtx { x with wake := s.now + d, delayFrom := some s.now })
  | some t0 =>
    if x.wake ≤ s.now then k { x with delayFrom := none } (s.record (.dly s.cur d t0 s.now))
    else .next s

/-- `Acquire()` (R180): enabled only while the lock is Free; a held context does not move. -/
def acquireAct (s : State) (k : State → Result) : Result :=
  match s.lock with
  | .free => k ({ s with lock := .held s.cur }.record (.acq s.cur s.now))
  | .held _ => .next s

/-- `Release()` (R181), by the context that holds the lock. -/
def releaseAct (s : State) (k : State → Result) : Result :=
  if s.lock = .held s.cur then k ({ s with lock := .free }.record (.rel s.cur s.now))
  else .fault .lockNotHeld

/-- The response word (R91): STATUS in bits 31 to 24, VALUE in bit 0. -/
def responseWord (status : Byte) (value : BitVec 1) : Word := 
  status.setWidth 32 <<< 24 ||| value.setWidth 32

/-- The status codes of the two errors (R220). -/
def errorCode : InitError → Byte
  | .deviceOpenFailed => 0x01#8
  | .mapFailed => 0x02#8

/-- `Return(v)` (R9, R91): the operation ends, the context is Idle again, the response word is handed back. -/
def returnAct (v : Option (BitVec 1)) (x : Ctx) (s : State) : Result :=
  .next ((s.record (.ret s.cur s.now v)).putCtx
    { x with status := .idle, upc := .none, response := some (responseWord 0x00#8 (v.getD 0#1)) })

/-- `raise InitError(e)` (R224), the block's one error entry: `map_state` becomes Failed(e), `Err(c, e)` is recorded, the
response word carries the status, the context is Idle. Nothing is saved and nothing returns from it (R225). -/
def raiseInitError (e : InitError) (x : Ctx) (s : State) : Result :=
  .next (({ s with mapState := .failed e }.record (.err s.cur s.now e)).putCtx
    { x with status := .idle, upc := .none, response := some (responseWord (errorCode e) 0#1) })

/-- `refuse(reason)` (R226): the context is Refused for good, with no response word. It is a status of the block, so
the step goes on for the other contexts (entry 7). -/
def refuse (r : RefuseReason) (x : Ctx) (s : State) : Result :=
  .next (s.putCtx { x with status := .refused r, upc := .none, response := none })

/-! ### The hand-over (R93, R226 to R229) -/

/-- The reason of the first test that fails, in the order of R229. -/
def firstFailure : List (Bool × RefuseReason) → Option RefuseReason
  | [] => none
  | (true, _) :: rest => firstFailure rest
  | (false, r) :: _ => some r

/-- The validity of the mapped block (R227). -/
def mappedTest (s : State) : Bool × RefuseReason := (decide (s.mapState = .mapped), .blockNotValid)

/-- A pin range (R228). -/
def pinTest (p : Byte) (max : Nat) : Bool × RefuseReason := (decide (p.toNat ≤ max), .pinOutOfRange)

/-- A row or line range (R228). -/
def rowTest (row : Byte) : Bool × RefuseReason := (decide (row.toNat ≤ 1), .rowOutOfRange)

/-- The column range (R228). -/
def colTest (s : State) (col : Byte) : Bool × RefuseReason := (decide (col.toNat < s.lcdCols), .colOutOfRange)

/-- `A`, `B`, `C` as request decode writes them (R93), with nothing left of an earlier operation. -/
def Ctx.withOperands (x : Ctx) (a b c : Byte) : Ctx := { x with a := a, b := b, c := c, between := .nothing }

/-- One payload word is received: one more character of TEXT (R92). -/
def Ctx.receiveChar (x : Ctx) (c : Byte) : Ctx := { x with text := x.text ++ [c] }

/-- All the payload words of a text request are received (R92, R93). -/
def Ctx.receiveText (x : Ctx) (t : List Byte) : Ctx := t.foldl Ctx.receiveChar { x with text := [] }

/-- The hand-over of a request to the Idle context `x`: refused with the first reason that applies, touching nothing
(R228, R229); else the operand registers are those of `loaded`, the context is Running at `first` (R93). -/
def handOver (tests : List (Bool × RefuseReason)) (loaded : Ctx) (first : Upc) (x : Ctx) (s : State) : Result :=
  match firstFailure tests with
  | some r => refuse r x s
  | none => .next (s.putCtx { loaded with status := .running, upc := first, delayFrom := none, response := none })

/-- The shape of every meaning: on an Idle context the hand-over of the request, on a Running one its next action, which
begins with the local computation before it (R10). A context that is Refused, or that runs something else (`act` says
which), has no place for it. -/
def onContext (s : State) (offer act : Ctx → Result) : Result :=
  match s.ctxs[s.cur]? with
  | none => .fault .noSuchContext
  | some x =>
    match x.status with
    | .idle => offer x
    | .running => act x.computed
    | .refused _ => .fault .contextBusy

/-- The meaning of what is no request: it acts only inside a Running context. -/
def insideOperation (s : State) (act : Ctx → Result) : Result :=
  onContext s (fun _ => .fault .notSending) act

/-! ### The closing action (R121, R122) -/

/-- Every context other than the executing one is Idle (R121); a Refused one is not (DEDUCED, entry 26). -/
def othersIdle (s : State) : Bool :=
  (List.range s.ctxs.length).all fun c =>
    c = s.cur || decide ((s.ctxs[c]?).map Ctx.status = some .idle)

/-- `map_state <- Released; Return()` (R121 a0, R122 a2), refused while another context is busy or the lock is taken. -/
def closeAct (x : Ctx) (s : State) : Result :=
  if othersIdle s && decide (s.lock = .free) then returnAct none x { s with mapState := .released }
  else refuse .closeWhileBusy x s

/-! ### The display's shadow (R33, R199) -/

/-- `lcd_cursor` after a byte (R199). The rows for clear, home, 0x28 and 0x06 are PRESUMED by the spec (entry 19). That
R199's table is followed where R195 corner (ii) says Unknown, for 0x02, 0x03 and 0x08 to 0x0F but 0x0C, is a
DESIGN CHOICE (entry 32). -/
def cursorAfter (cols : Nat) (rs : Rs) (b : Byte) (cursor : Option (BitVec 7)) : Option (BitVec 7) :=
  match rs with
  | .command =>
    if 0x80 ≤ b.toNat then some (b.extractLsb' 0 7)
    else if b = 0x01#8 ∨ b = 0x02#8 ∨ b = 0x03#8 then some 0#7
    else if 0x08 ≤ b.toNat ∧ b.toNat ≤ 0x0F then cursor
    else if b = 0x28#8 ∨ b = 0x06#8 then cursor
    else none
  | .data =>
    match cursor with
    | none => none
    | some a => if a.toNat % 0x40 + 1 < cols then some (a + 1#7) else none

/-- `lcd_display_on` after a byte (R199). That R199's table is followed where R195 corner (ii) says Unknown, for 0x02, 0x03
and 0x08 to 0x0F but 0x0C, is a DESIGN CHOICE (entry 32). -/
def displayOnAfter (rs : Rs) (b : Byte) (on : Option Bool) : Option Bool :=
  match rs with
  | .command =>
    if 0x80 ≤ b.toNat then on
    else if b = 0x01#8 ∨ b = 0x02#8 ∨ b = 0x03#8 then on
    else if 0x08 ≤ b.toNat ∧ b.toNat ≤ 0x0F then some (b.getLsbD 2)
    else if b = 0x28#8 ∨ b = 0x06#8 then on
    else none
  | .data => on

/-- The shadow update when an LcdByte completes in `lcd_state = Ready` (R199). It makes the shadow known again by R199's
table after a direct write had made it Unknown, even when that write fell into this very byte (DESIGN CHOICE,
entry 33). -/
def State.shadowUpdate (s : State) (rs : Rs) (b : Byte) : State :=
  if s.lcdState = .ready then
    { s with
      lcdCursor := cursorAfter s.lcdCols rs b s.lcdCursor
      lcdDisplayOn := displayOnAfter rs b s.lcdDisplayOn }
  else s

/-! ### Nibble and byte transmission (R182, R183) -/

/-- The action of LcdNibble(n) at label `l` (R182). `here` places the context at a label of this nibble, `after` is where
it goes when the nibble is done. -/
def nibbleAct (n : Nibble) (l : NibbleLabel) (here : NibbleLabel → Upc) (after : Upc) (x : Ctx) (s : State) : Result :=
  match l with
  | .n0 => pinWrite Config.lcdD4 (nibbleLine n 0) s fun s => .next (s.putCtx (x.goto (here .n1)))
  | .n1 => pinWrite Config.lcdD5 (nibbleLine n 1) s fun s => .next (s.putCtx (x.goto (here .n2)))
  | .n2 => pinWrite Config.lcdD6 (nibbleLine n 2) s fun s => .next (s.putCtx (x.goto (here .n3)))
  | .n3 => pinWrite Config.lcdD7 (nibbleLine n 3) s fun s => .next (s.putCtx (x.goto (here .n4)))
  | .n4 => pinWrite Config.lcdEn .high s fun s => .next (s.putCtx (x.goto (here .n5)))
  | .n5 => delayAct Config.tEnHi x s fun x s => .next (s.putCtx (x.goto (here .n6)))
  | .n6 => pinWrite Config.lcdEn .low s fun s => .next (s.putCtx (x.goto (here .n7)))
  | .n7 => delayAct Config.tEnLo x s fun x s => .next (s.putCtx (x.goto after))

/-- The same operation, at label `y` of the byte it is sending (R24, R183). -/
def Upc.atByte (u : Upc) (y : ByteLabel) : Upc :=
  match u with
  | .lcdinit (.byte k _) => .lcdinit (.byte k y)
  | .lcdclear (.single _) => .lcdclear (.single y)
  | .lcdcursor (.single _) => .lcdcursor (.single y)
  | .lcdbyte (.single _) => .lcdbyte (.single y)
  | .lcdline (.single _) => .lcdline (.single y)
  | .lcdline (.text _) => .lcdline (.text y)
  | .lcdstr (.text _) => .lcdstr (.text y)
  | u => u

/-- The loop test `IDX < LEN` of R193 and R194: the next character, or `Release`. -/
def textLoop (mk : LcdLabel → Upc) (x : Ctx) : Upc :=
  if x.idx.toNat < x.text.length then mk (.text .y0) else mk .release

/-- The configuration byte after byte `k`, or `Release` (R187). -/
def InitByte.after : InitByte → InitLabel
  | .functionSet => .byte .displayControl .y0
  | .displayControl => .byte .entryMode .y0
  | .entryMode => .byte .clearDisplay .y0
  | .clearDisplay => .i8

/-- Where the operation goes when the byte it was sending is done (R187, R191 to R195). -/
def Ctx.afterByte (x : Ctx) : Ctx :=
  match x.upc with
  | .lcdinit (.byte k _) => x.goto (.lcdinit k.after)
  | .lcdclear (.single _) => x.goto (.lcdclear .release)
  | .lcdcursor (.single _) => x.goto (.lcdcursor .release)
  | .lcdbyte (.single _) => x.goto (.lcdbyte .release)
  | .lcdline (.single _) => x.thenCompute .firstChar (textLoop .lcdline)
  | .lcdline (.text _) => x.thenCompute .nextChar (textLoop .lcdline)
  | .lcdstr (.text _) => x.thenCompute .nextChar (textLoop .lcdstr)
  | _ => x

/-- The action of LcdByte(b, rs) at label `y` (R183). -/
def byteAct (rs : Rs) (b : Byte) (y : ByteLabel) (x : Ctx) (s : State) : Result :=
  match y with
  | .y0 => pinWrite Config.lcdRs (rsLevel rs) s fun s => .next (s.putCtx (x.goto (x.upc.atByte (.high .n0))))
  | .high l =>
    nibbleAct (highNibble b) l (fun l => x.upc.atByte (.high l)) (x.upc.atByte (.low .n0)) x s
  | .low l => nibbleAct (lowNibble b) l (fun l => x.upc.atByte (.low l)) (x.upc.atByte .y1) x s
  | .y1 => delayAct (execWait rs b) x s fun x s => .next ((s.shadowUpdate rs b).putCtx x.afterByte)

/-- The byte a context is sending, with its RS and the label it is at. -/
def Ctx.sendingByte (x : Ctx) : Option (Rs × Byte × ByteLabel) :=
  match x.upc with
  | .lcdinit (.byte k y) => some (.command, initByteValue k, y)
  | .lcdclear (.single y) => some (.command, 0x01#8, y)
  | .lcdcursor (.single y) => some (.command, cursorByte x.a x.b, y)
  | .lcdbyte (.single y) => some (x.rs, x.c, y)
  | .lcdline (.single y) => some (.command, cursorByte x.a 0#8, y)
  | .lcdline (.text y) => some (.data, x.char, y)
  | .lcdstr (.text y) => some (.data, x.char, y)
  | _ => none

/-- The single nibble a context is sending, and the label it is at (R187). -/
def Ctx.sendingNibble (x : Ctx) : Option (InitNibble × NibbleLabel) :=
  match x.upc with
  | .lcdinit (.nibble k l) => some (k, l)
  | _ => none

/-- The action of the initialization nibble `k` at label `l` (R187). -/
def initNibbleAct (k : InitNibble) (l : NibbleLabel) (x : Ctx) (s : State) : Result :=
  nibbleAct (initNibbleValue k) l (fun l => .lcdinit (.nibble k l)) (.lcdinit (.wait k)) x s

/-- The body of an LCD operation other than LCDINIT (R189 to R195). `mk` places the context at a label of this operation,
`begin` is where it goes once the lock is taken and `lcd_state` is Ready. -/
def lcdAct (mk : LcdLabel → Upc) (begin : Ctx → Ctx) (l : LcdLabel) (x : Ctx) (s : State) : Result :=
  match l with
  | .acquire =>
    acquireAct s fun s =>
      if s.lcdState = .ready then .next (s.putCtx (begin x)) else refuse .lcdNotReady x s
  | .single _ =>
    match x.sendingByte with
    | some (rs, b, y) => byteAct rs b y x s
    | none => .fault .notSending
  | .text _ =>
    match x.sendingByte with
    | some (rs, b, y) => byteAct rs b y x s
    | none => .fault .notSending
  | .release => releaseAct s fun s => .next (s.putCtx (x.goto (mk .ret)))
  | .ret => returnAct none x s

end Sys2Proof.Machine
end

