-- ==== Sys2Proof/Machine/Blink.lean ====
section
/-! DEFINITION. The Blink Sequencer: BLINK (43_blink_sequencer.md). -/

namespace Sys2Proof.Machine

/-- The loop test of BLINK: `if CNT = 0 then goto b4` (R170). -/
def blinkLoop (x : Ctx) : Upc := if x.cnt = 0#16 then .blink .b4 else .blink .b0

/-- The actions of BLINK (R170). -/
def blinkAct (l : BlinkLabel) (x : Ctx) (s : State) : Result :=
  match l with
  | .b0 => directPinWrite x.pin .high s fun s => .next (s.putCtx (x.goto (.blink .b1)))
  | .b1 => delayAct Config.tBlink x s fun x s => .next (s.putCtx (x.goto (.blink .b2)))
  | .b2 => directPinWrite x.pin .low s fun s => .next (s.putCtx (x.goto (.blink .b3)))
  | .b3 =>
    delayAct Config.tBlink x s fun x s => .next (s.putCtx (x.thenCompute .countDown blinkLoop))
  | .b4 => returnAct none x s

/-- The context handed a BLINK: `CNT <- times` comes before its first action (R10, R170). -/
def Ctx.withBlinkOperands (x : Ctx) (pin : Byte) (times : BitVec 16) : Ctx :=
  (x.withOperands pin (highByte times) (lowByte times)).thenCompute .loadCount blinkLoop

/-- BLINK (R170). -/
def execBlink (pin : Byte) (times : BitVec 16) (s : State) : Result :=
  onContext s
    (fun x =>
      handOver [mappedTest s, pinTest pin Config.rwPinMax]
        (x.withBlinkOperands pin times) (x.withBlinkOperands pin times).upc x s)
    (fun x =>
      match x.upc with
      | .blink l => blinkAct l x s
      | _ => .fault .contextBusy)

end Sys2Proof.Machine
end

