-- ==== Sys2Proof/Machine/PinDriver.lean ====
section
/-! DEFINITION. The Pin Driver: SETMODE, WRITE, READ (41_pin_driver.md). -/

namespace Sys2Proof.Machine

/-- The actions of SETMODE (R130): clear the field to Input, then for Output load again and set `0b001`. On a pin of the
display it leaves the shadow alone (DESIGN CHOICE, entry 33). -/
def setmodeAct (l : SetmodeLabel) (x : Ctx) (s : State) : Result :=
  match l with
  | .a0 =>
    loadAct (fselWordOf x.pin) s fun v s => .next (s.putCtx { x with tmp := v, upc := .setmode .a1 })
  | .a1 =>
    storeAct (fselWordOf x.pin) (x.tmp &&& clearMask x.pin) s fun s =>
      match x.mode with
      | .input => .next (s.putCtx (x.goto (.setmode .a4)))
      | .output => .next (s.putCtx (x.goto (.setmode .a2)))
  | .a2 =>
    loadAct (fselWordOf x.pin) s fun v s => .next (s.putCtx { x with tmp := v, upc := .setmode .a3 })
  | .a3 =>
    storeAct (fselWordOf x.pin) (x.tmp ||| outputPattern x.pin) s fun s =>
      .next (s.putCtx (x.goto (.setmode .a4)))
  | .a4 => returnAct none x s

/-- SETMODE on the executing context (R130); pins up to PIN_MAX (R228). -/
def setmodeOn (pin : Byte) (mode : Mode) (s : State) : Result :=
  onContext s
    (fun x =>
      handOver [mappedTest s, pinTest pin Config.pinMax] (x.withOperands pin mode.toByte 0#8) (.setmode .a0) x s)
    (fun x =>
      match x.upc with
      | .setmode l => setmodeAct l x s
      | _ => .fault .contextBusy)

/-- SETMODE (R130). -/
def execSetmode (pin : Byte) (mode : Mode) (s : State) : Result := setmodeOn pin mode s

/-- The actions of WRITE (R131): one store to SET or CLR, then Return. -/
def writeAct (l : PinLabel) (x : Ctx) (s : State) : Result :=
  match l with
  | .a0 => directPinWrite x.pin x.level s fun s => .next (s.putCtx (x.goto (.write .a1)))
  | .a1 => returnAct none x s

/-- WRITE on the executing context (R131); pins up to RW_PIN_MAX (R83, R228). -/
def writeOn (pin : Byte) (level : Level) (s : State) : Result :=
  onContext s
    (fun x =>
      handOver [mappedTest s, pinTest pin Config.rwPinMax] (x.withOperands pin level.toByte 0#8) (.write .a0) x s)
    (fun x =>
      match x.upc with
      | .write l => writeAct l x s
      | _ => .fault .contextBusy)

/-- WRITE (R131). -/
def execWrite (pin : Byte) (level : Level) (s : State) : Result := writeOn pin level s

/-- The sample of READ and WAITBTN (R132, R153): one load of LEVEL into TMP and the bit test into RES. -/
def sampleAct (x : Ctx) (s : State) (k : Ctx → State → Result) : Result :=
  loadAct Config.levelWord s fun v s => k { x with tmp := v, res := sampleOf v x.pin } s

/-- The actions of READ (R132). -/
def readAct (l : PinLabel) (x : Ctx) (s : State) : Result :=
  match l with
  | .a0 => sampleAct x s fun x s => .next (s.putCtx (x.goto (.read .a1)))
  | .a1 => returnAct (some x.res) x s

/-- READ on the executing context (R132). -/
def readOn (pin : Byte) (s : State) : Result :=
  onContext s
    (fun x => handOver [mappedTest s, pinTest pin Config.rwPinMax] (x.withOperands pin 0#8 0#8) (.read .a0) x s)
    (fun x =>
      match x.upc with
      | .read l => readAct l x s
      | _ => .fault .contextBusy)

/-- READ (R132). -/
def execRead (pin : Byte) (s : State) : Result := readOn pin s

end Sys2Proof.Machine
end

