-- ==== Sys2Proof/Machine/Facade.lean ====
section
/-! DEFINITION. The Digital I/O Façade: the three pass-throughs and the debounce filter WAITBTN
(42_digital_io_debounce.md). -/

namespace Sys2Proof.Machine

/-- SETPINMODE is SETMODE with nothing added (R150). -/
def execSetpinmode (pin : Byte) (mode : Mode) (s : State) : Result := setmodeOn pin mode s

/-- WRITEPIN is WRITE with nothing added (R151). -/
def execWritepin (pin : Byte) (level : Level) (s : State) : Result := writeOn pin level s

/-- READPIN is READ with nothing added (R152). -/
def execReadpin (pin : Byte) (s : State) : Result := readOn pin s

/-- The actions of WAITBTN (R153): press-detect, release-detect, debounce-settle. -/
def waitbtnAct (l : WaitLabel) (x : Ctx) (s : State) : Result :=
  match l with
  | .p0 =>
    sampleAct x s fun x s =>
      .next (s.putCtx (x.goto (if x.res = 1#1 then .waitbtn .r0 else .waitbtn .p1)))
  | .p1 => delayAct Config.tPoll x s fun x s => .next (s.putCtx (x.goto (.waitbtn .p0)))
  | .r0 =>
    sampleAct x s fun x s =>
      .next (s.putCtx (x.goto (if x.res = 0#1 then .waitbtn .s0 else .waitbtn .r1)))
  | .r1 => delayAct Config.tPoll x s fun x s => .next (s.putCtx (x.goto (.waitbtn .r0)))
  | .s0 => delayAct Config.tSettle x s fun x s => .next (s.putCtx (x.goto (.waitbtn .s1)))
  | .s1 => returnAct none x s

/-- WAITBTN (R153). -/
def execWaitbtn (pin : Byte) (s : State) : Result :=
  onContext s
    (fun x => handOver [mappedTest s, pinTest pin Config.rwPinMax] (x.withOperands pin 0#8 0#8) (.waitbtn .p0) x s)
    (fun x =>
      match x.upc with
      | .waitbtn l => waitbtnAct l x s
      | _ => .fault .contextBusy)

end Sys2Proof.Machine
end

