-- ==== Sys2Proof/Machine/Lcd.lean ====
section
/-! DEFINITION. The LCD Controller's operations (44_lcd_controller.md). -/

namespace Sys2Proof.Machine

/-- Where LCDINIT goes after the wait that follows nibble `k` (R187). -/
def InitNibble.after : InitNibble → InitLabel
  | .first => .nibble .second .n0
  | .second => .nibble .third .n0
  | .third => .nibble .commit .n0
  | .commit => .byte .functionSet .y0

/-- `lcd_state` after the wait that follows nibble `k`: Ready after the 0x2 nibble's (R31, R187 i7). -/
def lcdStateAfter (k : InitNibble) (st : LcdState) : LcdState :=
  match k with
  | .commit => .ready
  | .first => st
  | .second => st
  | .third => st

/-- The actions of LCDINIT (R187). -/
def lcdinitAct (l : InitLabel) (x : Ctx) (s : State) : Result :=
  match l with
  | .i0 =>
    acquireAct s fun s =>
      .next ({ s with lcdState := .fourBitModeNegotiating }.putCtx (x.goto (.lcdinit .i1)))
  | .i1 => pinWrite Config.lcdRs .low s fun s => .next (s.putCtx (x.goto (.lcdinit .i2)))
  | .i2 => pinWrite Config.lcdEn .low s fun s => .next (s.putCtx (x.goto (.lcdinit .i3)))
  | .i3 => delayAct Config.tPwr x s fun x s => .next (s.putCtx (x.goto (.lcdinit (.nibble .first .n0))))
  | .nibble k l => initNibbleAct k l x s
  | .wait k =>
    delayAct (initWait k) x s fun x s =>
      .next ({ s with lcdState := lcdStateAfter k s.lcdState }.putCtx (x.goto (.lcdinit k.after)))
  | .byte k y => byteAct .command (initByteValue k) y x s
  | .i8 => releaseAct s fun s => .next (s.putCtx (x.goto (.lcdinit .i9)))
  | .i9 => returnAct none x s

/-- LCDINIT (R187): accepted in any `lcd_state`. -/
def execLcdinit (s : State) : Result :=
  onContext s
    (fun x => handOver [mappedTest s] (x.withOperands 0#8 0#8 0#8) (.lcdinit .i0) x s)
    (fun x =>
      match x.upc with
      | .lcdinit l => lcdinitAct l x s
      | _ => .fault .contextBusy)

/-- LCDCLEAR (R191). -/
def execLcdclear (s : State) : Result :=
  onContext s
    (fun x => handOver [mappedTest s] (x.withOperands 0#8 0#8 0#8) (.lcdclear .acquire) x s)
    (fun x =>
      match x.upc with
      | .lcdclear l => lcdAct .lcdclear (fun x => x.goto (.lcdclear (.single .y0))) l x s
      | _ => .fault .contextBusy)

/-- LCDCURSOR (R192). -/
def execLcdcursor (row col : Byte) (s : State) : Result :=
  onContext s
    (fun x =>
      handOver [mappedTest s, rowTest row, colTest s col] (x.withOperands row col 0#8) (.lcdcursor .acquire) x s)
    (fun x =>
      match x.upc with
      | .lcdcursor l => lcdAct .lcdcursor (fun x => x.goto (.lcdcursor (.single .y0))) l x s
      | _ => .fault .contextBusy)

/-- LEN as request decode writes it into `B` and `C` (R92). -/
def Ctx.withTextOperands (x : Ctx) (a : Byte) (text : List Byte) : Ctx :=
  (x.withOperands a (highByte (BitVec.ofNat 16 text.length))
    (lowByte (BitVec.ofNat 16 text.length))).receiveText text

/-- LCDSTR (R193): `IDX <- 0` comes between the `Acquire` and the first character or the `Release` (R10). -/
def execLcdstr (text : List Byte) (s : State) : Result :=
  onContext s
    (fun x => handOver [mappedTest s] (x.withTextOperands 0#8 text) (.lcdstr .acquire) x s)
    (fun x =>
      match x.upc with
      | .lcdstr l => lcdAct .lcdstr (fun x => x.thenCompute .firstChar (textLoop .lcdstr)) l x s
      | _ => .fault .contextBusy)

/-- LCDLINE (R194): one lock for the cursor command and the text (R190). -/
def execLcdline (line : Byte) (text : List Byte) (s : State) : Result :=
  onContext s
    (fun x =>
      handOver [mappedTest s, rowTest line] (x.withTextOperands line text) (.lcdline .acquire) x s)
    (fun x =>
      match x.upc with
      | .lcdline l => lcdAct .lcdline (fun x => x.goto (.lcdline (.single .y0))) l x s
      | _ => .fault .contextBusy)

/-- LCDBYTE (R195). -/
def execLcdbyte (rs : Rs) (byte : Byte) (s : State) : Result :=
  onContext s
    (fun x => handOver [mappedTest s] (x.withOperands rs.toByte 0#8 byte) (.lcdbyte .acquire) x s)
    (fun x =>
      match x.upc with
      | .lcdbyte l => lcdAct .lcdbyte (fun x => x.goto (.lcdbyte (.single .y0))) l x s
      | _ => .fault .contextBusy)

end Sys2Proof.Machine
end

