-- ==== Sys2Proof/Machine/LcdBus.lean ====
section
/-! DEFINITION. The words that are no requests: the rows of the LCD bus, which the controller sends by LcdNibble and
LcdByte from inside an LCD operation (R86, R182, R183; entry 14), and the payload word W (R92; entry 15). -/

namespace Sys2Proof.Machine

/-- Send the single nibble `n`: the next action of LcdNibble(n) of the context that is sending it (R182, R187). -/
def sendNibble (n : Nibble) (s : State) : Result :=
  insideOperation s fun x =>
    match x.sendingNibble with
    | some (k, l) => if initNibbleValue k = n then initNibbleAct k l x s else .fault .notSending
    | none => .fault .notSending

/-- Send the byte `b` with RS `rs`: the next action of LcdByte(b, rs) of the context that is sending it (R183). -/
def sendByte (rs : Rs) (b : Byte) (s : State) : Result :=
  insideOperation s fun x =>
    match x.sendingByte with
    | some (rs', b', y) => if rs' = rs ∧ b' = b then byteAct rs b y x s else .fault .notSending
    | none => .fault .notSending

/-- INIT3 (R86): the nibble 0x3. -/
def execInit3 (s : State) : Result := sendNibble 0x3#4 s

/-- INIT2 (R86): the nibble 0x2. -/
def execInit2 (s : State) : Result := sendNibble 0x2#4 s

/-- FUNCSET (R86): command byte 0x28. -/
def execFuncset (s : State) : Result := sendByte .command 0x28#8 s

/-- DISPCTL (R86): command byte 0x0C. -/
def execDispctl (s : State) : Result := sendByte .command 0x0C#8 s

/-- ENTRYMODE (R86): command byte 0x06. -/
def execEntrymode (s : State) : Result := sendByte .command 0x06#8 s

/-- CLEAR (R86): command byte 0x01, with the long wait (R184). -/
def execClear (s : State) : Result := sendByte .command 0x01#8 s

/-- SETADDR (R87): command byte `0x80 | a`. -/
def execSetaddr (addr : BitVec 7) (s : State) : Result := sendByte .command (addressByte addr) s

/-- DATA (R86): a character, with RS = 1. -/
def execData (char : Byte) (s : State) : Result := sendByte .data char s

/-- W (R92): the Idle context that is being handed a text request receives one more character of TEXT. The hand-over of
LCDSTR and LCDLINE receives all its payload words in its one step (R93). -/
def execPayload (char : Byte) (s : State) : Result :=
  onContext s (fun x => .next (s.putCtx (x.receiveChar char))) (fun _ => .fault .contextBusy)

end Sys2Proof.Machine
end

