-- ==== Sys2Proof/Machine/Mapper.lean ====
section
/-! DEFINITION. The Register Mapper: MAPOPEN, MAPCLOSE, SHUTDOWN (40_register_mapper.md). -/

namespace Sys2Proof.Machine

/-- MAPOPEN a0 (R120): the outcome is the environment's. If another context's MAPOPEN has opened the block, or failed to,
since this one was handed over, it is refused: the block is opened once, and a second error cannot occur (R120, R225,
D25; DEDUCED, entry 12). -/
def mapopenAct (x : Ctx) (s : State) : Result :=
  if s.mapState = .unmapped then
    match s.openOutcome with
    | .ok => returnAct none x { s with mapState := .mapped }
    | .fails e => raiseInitError e x s
  else refuse .alreadyOpened x s

/-- MAPOPEN (R120): accepted in Unmapped only, at hand-over (R229) and again at its action (entry 12). -/
def execMapopen (s : State) : Result :=
  onContext s
    (fun x => handOver [(decide (s.mapState = .unmapped), .alreadyOpened)] (x.withOperands 0#8 0#8 0#8) .mapopen x s)
    (fun x =>
      match x.upc with
      | .mapopen => mapopenAct x s
      | _ => .fault .contextBusy)

/-- MAPCLOSE (R121): one action, the closing one. -/
def execMapclose (s : State) : Result :=
  onContext s
    (fun x => handOver [mappedTest s] (x.withOperands 0#8 0#8 0#8) .mapclose x s)
    (fun x =>
      match x.upc with
      | .mapclose => closeAct x s
      | _ => .fault .contextBusy)

/-- The actions of SHUTDOWN (R122): green LED low, red LED low, close. -/
def shutdownAct (l : ShutdownLabel) (x : Ctx) (s : State) : Result :=
  match l with
  | .a0 => pinWrite Config.greenLed .low s fun s => .next (s.putCtx (x.goto (.shutdown .a1)))
  | .a1 => pinWrite Config.redLed .low s fun s => .next (s.putCtx (x.goto (.shutdown .a2)))
  | .a2 => closeAct x s

/-- SHUTDOWN (R122). -/
def execShutdown (s : State) : Result :=
  onContext s
    (fun x => handOver [mappedTest s] (x.withOperands 0#8 0#8 0#8) (.shutdown .a0) x s)
    (fun x =>
      match x.upc with
      | .shutdown l => shutdownAct l x s
      | _ => .fault .contextBusy)

end Sys2Proof.Machine
end

