-- ==== Sys2Proof/Machine/Dispatch.lean ====
section
/-! DEFINITION. One arm per constructor of Instr: the executing context is offered the instruction, or takes its next
action of it (R10, R93; entry 8). -/

namespace Sys2Proof.Machine

def exec (i : Instr) (s : State) : Host.Outcome State Fault Refusal :=
  match i with
  | .mapopen => Sys2Proof.Machine.execMapopen s
  | .mapclose => Sys2Proof.Machine.execMapclose s
  | .shutdown => Sys2Proof.Machine.execShutdown s
  | .setmode pin mode => Sys2Proof.Machine.execSetmode pin mode s
  | .write pin level => Sys2Proof.Machine.execWrite pin level s
  | .read pin => Sys2Proof.Machine.execRead pin s
  | .waitbtn pin => Sys2Proof.Machine.execWaitbtn pin s
  | .blink pin times => Sys2Proof.Machine.execBlink pin times s
  | .lcdinit => Sys2Proof.Machine.execLcdinit s
  | .lcdclear => Sys2Proof.Machine.execLcdclear s
  | .lcdcursor row col => Sys2Proof.Machine.execLcdcursor row col s
  | .lcdstr text => Sys2Proof.Machine.execLcdstr text s
  | .lcdline line text => Sys2Proof.Machine.execLcdline line text s
  | .lcdbyte rs byte => Sys2Proof.Machine.execLcdbyte rs byte s
  | .payload char => Sys2Proof.Machine.execPayload char s
  | .setpinmode pin mode => Sys2Proof.Machine.execSetpinmode pin mode s
  | .writepin pin level => Sys2Proof.Machine.execWritepin pin level s
  | .readpin pin => Sys2Proof.Machine.execReadpin pin s
  | .init3 => Sys2Proof.Machine.execInit3 s
  | .init2 => Sys2Proof.Machine.execInit2 s
  | .funcset => Sys2Proof.Machine.execFuncset s
  | .dispctl => Sys2Proof.Machine.execDispctl s
  | .entrymode => Sys2Proof.Machine.execEntrymode s
  | .clear => Sys2Proof.Machine.execClear s
  | .setaddr addr => Sys2Proof.Machine.execSetaddr addr s
  | .data char => Sys2Proof.Machine.execData char s

end Sys2Proof.Machine
end

