-- ==== Sys2Proof/Machine/Fetch.lean ====
section
/-! DEFINITION. What a turn of the scheduler runs: the next turn (R60), the clock (R271), the request an Idle context is
handed (R93), the instruction a Running context is in the middle of (R24), and how a word is laid down to be fetched. -/

namespace Sys2Proof.Machine

/-- The next turn: from the list while it lasts, then the free choices (R60; entry 5). -/
def State.takeTurn (s : State) : Turn × State :=
  match s.agenda with
  | t :: ts => (t, { s with agenda := ts })
  | [] => (Config.turn s.turns, { s with turns := s.turns + 1 })

/-- `Tick(extra + 1)` (R271). -/
def State.tick (s : State) (extra : Nat) : State := { s with now := s.now + (extra + 1) }

/-- The operation a Running context runs, with the operands its registers hold (R21, R24). -/
def Ctx.operation (x : Ctx) : Option Instr :=
  match x.upc with
  | .none => none
  | .mapopen => some .mapopen
  | .mapclose => some .mapclose
  | .shutdown _ => some .shutdown
  | .setmode _ => some (.setmode x.a x.mode)
  | .write _ => some (.write x.a x.level)
  | .read _ => some (.read x.a)
  | .waitbtn _ => some (.waitbtn x.a)
  | .blink _ => some (.blink x.a x.times)
  | .lcdinit _ => some .lcdinit
  | .lcdclear _ => some .lcdclear
  | .lcdcursor _ => some (.lcdcursor x.a x.b)
  | .lcdstr _ => some (.lcdstr x.text)
  | .lcdline _ => some (.lcdline x.a x.text)
  | .lcdbyte _ => some (.lcdbyte x.rs x.c)

/-- The row of the LCD bus that a context is sending, where the table has one (R86, R108). -/
def Ctx.busWord (x : Ctx) : Option Instr :=
  match x.sendingNibble, x.sendingByte with
  | some (k, _), _ => (decodeNibble .command (initNibbleValue k)).toOption
  | none, some (rs, b, _) => (decodeByte rs b).toOption
  | none, none => none

/-- The instruction whose next action a Running context takes: the word it is sending to the display if that is a row of
the table, else its operation. -/
def Ctx.instr (x : Ctx) : Option Instr :=
  match x.busWord with
  | some i => some i
  | none => x.operation

/-- What a context's turn finds. -/
inductive Fetched where
  /-- Run `i` from the state `s`: for a hand-over, the words of `i` are taken off the requester's list. -/
  | run (i : Instr) (s : State)
  /-- The requester's next words are no request (R105). -/
  | illegal (x : Ctx)
  /-- No request, or not all of its words, is there to hand over, or the context is Refused: nothing is enabled. -/
  | nothing
  /-- A Running context without a position. -/
  | broken
deriving Repr

/-- What the turn of the executing context finds (R23, R93). Which character a Running context is about to send shows once
the local computation before its action is done (R10). -/
def fetch (s : State) : Fetched :=
  match s.ctxs[s.cur]? with
  | none => .nothing
  | some x =>
    match x.status with
    | .refused _ => .nothing
    | .running =>
      match x.computed.instr with
      | some i => .run i s
      | none => .broken
    | .idle =>
      match decodeRequest x.todo with
      | .ok (i, rest) => .run i (s.putCtx { x with todo := rest })
      | .error .incomplete => .nothing
      | .error _ => .illegal x

/-! ### Laying a word down where the next step fetches it (entry 6) -/

/-- Context 0 changed by `f`, and its turn the next one. -/
def State.placeFirst (s : State) (f : Ctx → Ctx) : State :=
  { s with
    ctxs :=
      match s.ctxs with
      | [] => []
      | x :: xs => f x :: xs
    agenda := .context 0 :: s.agenda }

/-- An Idle context whose requester holds the words `ws`. -/
def Ctx.offered (x : Ctx) (ws : List Word) : Ctx :=
  { x with status := .idle, upc := .none, between := .nothing, delayFrom := none, todo := ws }

/-- A context that is Running at `u`, with no delay in progress and nothing to compute before its action. -/
def Ctx.runningAt (x : Ctx) (u : Upc) : Ctx :=
  { x with status := .running, upc := u, between := .nothing, delayFrom := none }

/-- A context about to send the bus word `i`: the operation that sends it, at the first action of its transmission. -/
def Ctx.aboutToSend (x : Ctx) (i : Instr) : Ctx :=
  match i with
  | .init3 => x.runningAt (.lcdinit (.nibble .first .n0))
  | .init2 => x.runningAt (.lcdinit (.nibble .commit .n0))
  | .funcset => x.runningAt (.lcdinit (.byte .functionSet .y0))
  | .dispctl => x.runningAt (.lcdinit (.byte .displayControl .y0))
  | .entrymode => x.runningAt (.lcdinit (.byte .entryMode .y0))
  | .clear => x.runningAt (.lcdclear (.single .y0))
  | .setaddr a =>
    { x with a := (a.extractLsb' 6 1).setWidth 8, b := (a.extractLsb' 0 6).setWidth 8 }.runningAt
      (.lcdcursor (.single .y0))
  | .data c => { x with text := [c], idx := 0#16 }.runningAt (.lcdstr (.text .y0))
  | _ => x

/-- `lcd_state` while the bus word `i` is sent: the two nibbles come before Ready (R187). -/
def lcdStateSending (i : Instr) : LcdState :=
  match i with
  | .init3 => .fourBitModeNegotiating
  | .init2 => .fourBitModeNegotiating
  | _ => .ready

/-- `s` with the bus word `i` the next thing context 0 sends, inside its LCD operation: mapped, with the lock. -/
def State.withBusWord (s : State) (i : Instr) : State :=
  { s with mapState := .mapped, lcdState := lcdStateSending i, lock := .held 0 }.placeFirst (·.aboutToSend i)

/-- `s` with a word of 32 bits the next that context 0's requester hands over. A payload word is handed over as the one
character of an LCDSTR, by a mapped block. -/
def State.withRequestWord (s : State) (w : Nat) : State :=
  match decodeRequest (wordsOfTableWord w), decodePayload (BitVec.ofNat 32 w) with
  | .error _, .ok _ =>
    { s with mapState := .mapped }.placeFirst (·.offered [pack 0x43#8 0#8 0#8 1#8, BitVec.ofNat 32 w])
  | _, _ => s.placeFirst (·.offered (wordsOfTableWord w))

end Sys2Proof.Machine
end

