-- ==== Sys2Proof/Machine/Step.lean ====
section
/-! DEFINITION. One step: the next turn of the free scheduler, the clock's or a context's (R12, R60, R271). -/

namespace Sys2Proof.Machine

/-- The turn of the executing context: the instruction it fetches, a refusal of words that are no request (R105), or
nothing where nothing is enabled (R23). -/
def contextTurn (s : State) : Result :=
  match fetch s with
  | .run i s' => exec i s'
  | .illegal x => refuse .illegalRequest x s
  | .nothing => .next s
  | .broken => .fault .noPosition

/-- One turn. A turn for a context that does not exist changes nothing (entry 5). -/
def runTurn (t : Turn) (s : State) : Result :=
  match t with
  | .clock extra => .next (s.tick extra)
  | .context c => if c < s.ctxs.length then contextTurn { s with cur := c } else .next s

def step (s : State) : Host.Outcome State Fault Refusal := runTurn s.takeTurn.1 s.takeTurn.2

/-- `s` with the table word `w` of `nbits` bits placed so that the very next step runs it (entry 6). -/
def State.withFetchWord (s : State) (nbits w : Nat) : State :=
  if nbits = 32 then s.withRequestWord w else s.withBusWord (decodeBusWord w)

end Sys2Proof.Machine
end

