-- ==== Sys2Proof/Laws/Decode.lean ====
section
/-! SUPPORT. The fields of a packed request word and of a payload word, and the text of a payload. -/

namespace Sys2Proof

@[simp] theorem opcOf_pack (o a b c : Byte) : opcOf (pack o a b c) = o := by
  apply BitVec.eq_of_getLsbD_eq
  intro i hi
  simp [opcOf, pack, hi]
  grind

@[simp] theorem fieldA_pack (o a b c : Byte) : fieldA (pack o a b c) = a := by
  apply BitVec.eq_of_getLsbD_eq
  intro i hi
  simp [fieldA, pack, hi]
  grind

@[simp] theorem fieldB_pack (o a b c : Byte) : fieldB (pack o a b c) = b := by
  apply BitVec.eq_of_getLsbD_eq
  intro i hi
  simp [fieldB, pack, hi]
  grind

@[simp] theorem fieldC_pack (o a b c : Byte) : fieldC (pack o a b c) = c := by
  apply BitVec.eq_of_getLsbD_eq
  intro i hi
  simp [fieldC, pack, hi]
  grind

/-- A request word is its four fields (R90). -/
theorem pack_fields (r : Word) : pack (opcOf r) (fieldA r) (fieldB r) (fieldC r) = r := by
  apply BitVec.eq_of_getLsbD_eq
  intro i hi
  simp [fieldC, fieldB, fieldA, opcOf, pack, BitVec.getLsbD_extractLsb', hi]
  grind

/-- A sixteen-bit operand is its two halves (R92). -/
@[simp] theorem joinBytes_high_low (n : BitVec 16) : joinBytes (highByte n) (lowByte n) = n := by
  apply BitVec.eq_of_getLsbD_eq
  intro i hi
  simp [joinBytes, highByte, lowByte, BitVec.getLsbD_extractLsb', hi]
  grind

@[simp] theorem highByte_joinBytes (b c : Byte) : highByte (joinBytes b c) = b := by
  apply BitVec.eq_of_getLsbD_eq
  intro i hi
  simp [joinBytes, highByte, hi]
  grind

@[simp] theorem lowByte_joinBytes (b c : Byte) : lowByte (joinBytes b c) = c := by
  apply BitVec.eq_of_getLsbD_eq
  intro i hi
  simp [joinBytes, lowByte, hi]
  grind

/-- The payload word of a character decodes to it (R92). -/
@[simp] theorem decodePayload_payloadWord (c : Byte) : decodePayload (payloadWord c) = .ok c := by
  have h1 : (payloadWord c).extractLsb' 8 24 = 0#24 := by
    apply BitVec.eq_of_getLsbD_eq
    intro i hi
    simp [payloadWord, hi]
  have h2 : (payloadWord c).extractLsb' 0 8 = c := by
    apply BitVec.eq_of_getLsbD_eq
    intro i hi
    simp [payloadWord, hi]
    intro _; omega
  simp [decodePayload, h1, h2]

/-- A word that decodes as a payload is the payload word of its character (R92). -/
theorem payloadWord_of_decode {w : Word} {c : Byte} (h : decodePayload w = .ok c) : payloadWord c = w := by
  unfold decodePayload at h
  split at h
  · rename_i h0
    cases h
    apply BitVec.eq_of_getLsbD_eq
    intro i hi
    by_cases h8 : i < 8
    · simp [payloadWord, hi, h8]
    · have h1 := congrArg (fun v => BitVec.getLsbD v (i - 8)) h0
      have h3 : 8 + (i - 8) = i := by omega
      simp only [BitVec.getLsbD_extractLsb', h3, BitVec.getLsbD_zero, Bool.and_eq_false_iff,
        decide_eq_false_iff_not] at h1
      have h2 : w.getLsbD i = false := by
        rcases h1 with h1 | h1
        · omega
        · exact h1
      rw [h2]
      simp [payloadWord, h8, hi]
  · cases h

/-- The payload words of a text are taken off whole (R92). -/
theorem takeText_payload (t : List Byte) (ws : List Word) :
    takeText t.length (t.map payloadWord ++ ws) = .ok (t, ws) := by
  induction t with
  | nil => rfl
  | cons c cs ih => simp [takeText, ih]

/-- What is taken off as a text is its payload words (R92). -/
theorem takeText_ok {n : Nat} {ws rest : List Word} {t : List Byte} (h : takeText n ws = .ok (t, rest)) :
    t.length = n ∧ ws = t.map payloadWord ++ rest := by
  induction n generalizing ws t with
  | zero => simp [takeText] at h; simp [h.1.symm, h.2]
  | succ n ih =>
    cases ws with
    | nil => simp [takeText] at h
    | cons w ws =>
      simp only [takeText] at h
      split at h
      · cases h
      · rename_i c hc
        split at h
        · cases h
        · rename_i t' rest' ht
          cases h
          have := ih ht
          simp [this.1, payloadWord_of_decode hc, ← this.2]

end Sys2Proof
end

