-- ==== Sys2Proof/Laws/PerInstr.lean ====
section
/-! SUPPORT. One statement about the syntax of every instruction: the word it is encoded to is selected by the mask and
the match of its own row of spec/opcode_table.json (R86, R87, R92, R94). -/

namespace Sys2Proof.Laws.Words

/-- A row of the opcode table: which words it selects. -/
inductive Row where
  /-- A request word `r` with `r & mask = value` (R94). -/
  | request (mask value : Word)
  /-- A payload word (R92). -/
  | payload (mask value : Word)
  /-- A nibble of the LCD bus (R86). -/
  | nibble (rs : Rs) (mask value : Nibble)
  /-- A byte of the LCD bus (R86, R87). -/
  | byte (rs : Rs) (mask value : Byte)
deriving DecidableEq, Repr

/-- The row of an instruction. -/
def row : Instr → Row
  | .mapopen => .request 0xFFFFFFFF#32 0x01000000#32
  | .mapclose => .request 0xFFFFFFFF#32 0x02000000#32
  | .shutdown => .request 0xFFFFFFFF#32 0x03000000#32
  | .setmode _ _ => .request 0xFF00FEFF#32 0x10000000#32
  | .write _ _ => .request 0xFF00FEFF#32 0x11000000#32
  | .read _ => .request 0xFF00FFFF#32 0x12000000#32
  | .waitbtn _ => .request 0xFF00FFFF#32 0x20000000#32
  | .blink _ _ => .request 0xFF000000#32 0x30000000#32
  | .lcdinit => .request 0xFFFFFFFF#32 0x40000000#32
  | .lcdclear => .request 0xFFFFFFFF#32 0x41000000#32
  | .lcdcursor _ _ => .request 0xFF0000FF#32 0x42000000#32
  | .lcdstr _ => .request 0xFFFF0000#32 0x43000000#32
  | .lcdline _ _ => .request 0xFF000000#32 0x44000000#32
  | .lcdbyte _ _ => .request 0xFFFEFF00#32 0x45000000#32
  | .payload _ => .payload 0xFFFFFF00#32 0x00000000#32
  | .setpinmode _ _ => .request 0xFF00FEFF#32 0x10000000#32
  | .writepin _ _ => .request 0xFF00FEFF#32 0x11000000#32
  | .readpin _ => .request 0xFF00FFFF#32 0x12000000#32
  | .init3 => .nibble .command 0xF#4 0x3#4
  | .init2 => .nibble .command 0xF#4 0x2#4
  | .funcset => .byte .command 0xFF#8 0x28#8
  | .dispctl => .byte .command 0xFF#8 0x0C#8
  | .entrymode => .byte .command 0xFF#8 0x06#8
  | .clear => .byte .command 0xFF#8 0x01#8
  | .setaddr _ => .byte .command 0x80#8 0x80#8
  | .data _ => .byte .data 0x00#8 0x00#8

/-- The row selects the encoded words. -/
def Row.Selects : Row → Encoded → Prop
  | .request mask value, .request (r :: _) => r &&& mask = value
  | .payload mask value, .payload w => w &&& mask = value
  | .nibble rs mask value, .nibble rs' n => rs' = rs ∧ n &&& mask = value
  | .byte rs mask value, .byte rs' b => rs' = rs ∧ b &&& mask = value
  | _, _ => False

/-- The words of an instruction are words of its row. -/
def Statement (i : Instr) : Prop := (row i).Selects (encode i)

/-- A mask acts field by field (R90). -/
theorem pack_and (o a b c mo ma mb mc : Byte) :
    pack o a b c &&& pack mo ma mb mc = pack (o &&& mo) (a &&& ma) (b &&& mb) (c &&& mc) := by
  apply BitVec.eq_of_getLsbD_eq
  intro i hi
  simp [pack, hi]
  grind

theorem selects_of_fields {o a b c mo ma mb mc vo va vb vc : Byte} {mask value : Word} {rest : List Word}
    (hm : mask = pack mo ma mb mc) (hv : value = pack vo va vb vc) (ho : o &&& mo = vo) (ha : a &&& ma = va)
    (hb : b &&& mb = vb) (hc : c &&& mc = vc) :
    (Row.request mask value).Selects (.request (pack o a b c :: rest)) := by
  simp only [Row.Selects, hm, hv, pack_and, ho, ha, hb, hc]

theorem byte_and_zero (b : Byte) : b &&& 0#8 = 0#8 := by simp

theorem mode_byte (m : Mode) : m.toByte &&& 0xFE#8 = 0#8 := by cases m <;> rfl

theorem level_byte (l : Level) : l.toByte &&& 0xFE#8 = 0#8 := by cases l <;> rfl

theorem rs_byte (r : Rs) : r.toByte &&& 0xFE#8 = 0#8 := by cases r <;> rfl

theorem mapopen : Statement .mapopen := by
  show (_ : Word) = _
  decide

theorem mapclose : Statement .mapclose := by
  show (_ : Word) = _
  decide

theorem shutdown : Statement .shutdown := by
  show (_ : Word) = _
  decide


theorem setmode (p : Byte) (m : Mode) : Statement (.setmode p m) :=
  selects_of_fields (mo := 0xFF#8) (ma := 0#8) (mb := 0xFE#8) (mc := 0xFF#8) (vo := 0x10#8) (va := 0#8) (vb := 0#8)
    (vc := 0#8) (by decide) (by decide) (by decide) (byte_and_zero _) (mode_byte m) (by decide)

theorem write (p : Byte) (l : Level) : Statement (.write p l) :=
  selects_of_fields (mo := 0xFF#8) (ma := 0#8) (mb := 0xFE#8) (mc := 0xFF#8) (vo := 0x11#8) (va := 0#8) (vb := 0#8)
    (vc := 0#8) (by decide) (by decide) (by decide) (byte_and_zero _) (level_byte l) (by decide)

theorem read (p : Byte) : Statement (.read p) :=
  selects_of_fields (mo := 0xFF#8) (ma := 0#8) (mb := 0xFF#8) (mc := 0xFF#8) (vo := 0x12#8) (va := 0#8) (vb := 0#8)
    (vc := 0#8) (by decide) (by decide) (by decide) (byte_and_zero _) (by decide) (by decide)

theorem waitbtn (p : Byte) : Statement (.waitbtn p) :=
  selects_of_fields (mo := 0xFF#8) (ma := 0#8) (mb := 0xFF#8) (mc := 0xFF#8) (vo := 0x20#8) (va := 0#8) (vb := 0#8)
    (vc := 0#8) (by decide) (by decide) (by decide) (byte_and_zero _) (by decide) (by decide)

theorem blink (p : Byte) (n : BitVec 16) : Statement (.blink p n) :=
  selects_of_fields (mo := 0xFF#8) (ma := 0#8) (mb := 0#8) (mc := 0#8) (vo := 0x30#8) (va := 0#8) (vb := 0#8)
    (vc := 0#8) (by decide) (by decide) (by decide) (byte_and_zero _) (byte_and_zero _) (byte_and_zero _)

theorem lcdinit : Statement .lcdinit := by
  show (_ : Word) = _
  decide

theorem lcdclear : Statement .lcdclear := by
  show (_ : Word) = _
  decide


theorem lcdcursor (r c : Byte) : Statement (.lcdcursor r c) :=
  selects_of_fields (mo := 0xFF#8) (ma := 0#8) (mb := 0#8) (mc := 0xFF#8) (vo := 0x42#8) (va := 0#8) (vb := 0#8)
    (vc := 0#8) (by decide) (by decide) (by decide) (byte_and_zero _) (byte_and_zero _) (by decide)

theorem lcdstr (t : List Byte) : Statement (.lcdstr t) :=
  selects_of_fields (mo := 0xFF#8) (ma := 0xFF#8) (mb := 0#8) (mc := 0#8) (vo := 0x43#8) (va := 0#8) (vb := 0#8)
    (vc := 0#8) (by decide) (by decide) (by decide) (by decide) (byte_and_zero _) (byte_and_zero _)

theorem lcdline (l : Byte) (t : List Byte) : Statement (.lcdline l t) :=
  selects_of_fields (mo := 0xFF#8) (ma := 0#8) (mb := 0#8) (mc := 0#8) (vo := 0x44#8) (va := 0#8) (vb := 0#8)
    (vc := 0#8) (by decide) (by decide) (by decide) (byte_and_zero _) (byte_and_zero _) (byte_and_zero _)

theorem lcdbyte (rs : Rs) (b : Byte) : Statement (.lcdbyte rs b) :=
  selects_of_fields (mo := 0xFF#8) (ma := 0xFE#8) (mb := 0xFF#8) (mc := 0#8) (vo := 0x45#8) (va := 0#8) (vb := 0#8)
    (vc := 0#8) (by decide) (by decide) (by decide) (rs_byte rs) (by decide) (byte_and_zero _)

theorem payload (c : Byte) : Statement (.payload c) := by
  show payloadWord c &&& 0xFFFFFF00#32 = 0#32
  have h : payloadWord c = pack 0#8 0#8 0#8 c := by
    apply BitVec.eq_of_getLsbD_eq
    intro i hi
    simp [payloadWord, pack, hi]
  have h2 : (0xFFFFFF00#32 : Word) = pack 0xFF#8 0xFF#8 0xFF#8 0#8 := by decide
  rw [h, h2, pack_and, byte_and_zero]
  decide

theorem setpinmode (p : Byte) (m : Mode) : Statement (.setpinmode p m) := setmode p m
theorem writepin (p : Byte) (l : Level) : Statement (.writepin p l) := write p l
theorem readpin (p : Byte) : Statement (.readpin p) := read p

theorem init3 : Statement .init3 := ⟨rfl, by decide⟩
theorem init2 : Statement .init2 := ⟨rfl, by decide⟩
theorem funcset : Statement .funcset := ⟨rfl, by decide⟩
theorem dispctl : Statement .dispctl := ⟨rfl, by decide⟩
theorem entrymode : Statement .entrymode := ⟨rfl, by decide⟩
theorem clear : Statement .clear := ⟨rfl, by decide⟩

theorem setaddr (a : BitVec 7) : Statement (.setaddr a) := by
  refine ⟨rfl, ?_⟩
  apply BitVec.eq_of_getLsbD_eq
  intro i hi
  by_cases h7 : i < 7
  · have h0 : (0x80#8).getLsbD i = false := by interval_cases i <;> rfl
    simp only [BitVec.getLsbD_and, h0, Bool.and_false]
  · have h1 : i = 7 := by omega
    subst h1
    simp [addressByte]

theorem data (c : Byte) : Statement (.data c) := ⟨rfl, byte_and_zero c⟩

end Sys2Proof.Laws.Words
end

