-- ==== Sys2Proof/Safety.lean ====
section
/-! DEFINITION. The terms of the statements: when a run is over and finished well (R291), where a context is in its
operation, the invariants of the block, an operation run alone with its least delays, and the events the spec's
pseudocode lists for a transmission. -/

namespace Sys2Proof.Machine

/-- The executing context (R8). -/
def State.me (s : State) : Option Ctx := s.ctxs[s.cur]?

/-- Some context is Refused (R226). -/
def State.someRefused (s : State) : Bool :=
  s.ctxs.any fun x =>
    match x.status with
    | .refused _ => true
    | .idle => false
    | .running => false

/-- A run is over when every context is Idle and there is no further request for any of them (R291). -/
def State.runOver (s : State) : Bool := s.ctxs.all fun x => decide (x.status = .idle) && x.todo.isEmpty

/-- Finished well (R291): over, nothing Refused, the lock Free, the block Released, Failed or never opened. -/
def State.finishedWell (s : State) : Bool :=
  s.runOver && !s.someRefused && decide (s.lock = .free) && decide (s.mapState ≠ .mapped)

/-- The obligation on the closing action (R283 a): both LEDs low in the latch. -/
def State.ledsLow (s : State) : Bool :=
  !s.out.getLsbD Config.greenLed && !s.out.getLsbD Config.redLed

/-! ### Where a context is -/

/-- Between `Acquire` and `Release` of an LCD operation (R190). -/
def LcdLabel.critical : LcdLabel → Bool
  | .acquire => false
  | .single _ => true
  | .text _ => true
  | .release => true
  | .ret => false

/-- Between `Acquire` and `Release` of LCDINIT (R187). -/
def InitLabel.critical : InitLabel → Bool
  | .i0 => false
  | .i1 => true
  | .i2 => true
  | .i3 => true
  | .nibble _ _ => true
  | .wait _ => true
  | .byte _ _ => true
  | .i8 => true
  | .i9 => false

/-- Between `Acquire` and `Release` (R190). -/
def Upc.critical : Upc → Bool
  | .lcdinit l => l.critical
  | .lcdclear l => l.critical
  | .lcdcursor l => l.critical
  | .lcdstr l => l.critical
  | .lcdline l => l.critical
  | .lcdbyte l => l.critical
  | _ => false

/-- In LCDINIT, before the 0x2 nibble has been waited out (R31, R187). -/
def InitLabel.negotiating : InitLabel → Bool
  | .i1 => true
  | .i2 => true
  | .i3 => true
  | .nibble _ _ => true
  | .wait _ => true
  | .i0 => false
  | .byte _ _ => false
  | .i8 => false
  | .i9 => false

def Upc.negotiating : Upc → Bool
  | .lcdinit l => l.negotiating
  | _ => false

/-- The store a nibble transmission makes at a label: the pin and its level (R182). -/
def nibbleStore (n : Nibble) : NibbleLabel → Option (Nat × Level)
  | .n0 => some (23, nibbleLine n 0)
  | .n1 => some (10, nibbleLine n 1)
  | .n2 => some (27, nibbleLine n 2)
  | .n3 => some (22, nibbleLine n 3)
  | .n4 => some (24, .high)
  | .n5 => none
  | .n6 => some (24, .low)
  | .n7 => none

/-- The least delay of a nibble transmission at a label (R182). -/
def nibbleDelay : NibbleLabel → Option Nat
  | .n5 => some 1
  | .n7 => some 1
  | .n0 => none
  | .n1 => none
  | .n2 => none
  | .n3 => none
  | .n4 => none
  | .n6 => none

/-- The label after a label of LcdNibble (R182). -/
def NibbleLabel.next : NibbleLabel → Option NibbleLabel
  | .n0 => some .n1
  | .n1 => some .n2
  | .n2 => some .n3
  | .n3 => some .n4
  | .n4 => some .n5
  | .n5 => some .n6
  | .n6 => some .n7
  | .n7 => none

/-- The store a byte transmission makes at a label (R183). -/
def byteStore (rs : Rs) (b : Byte) : ByteLabel → Option (Nat × Level)
  | .y0 => some (25, rsLevel rs)
  | .high l => nibbleStore (highNibble b) l
  | .low l => nibbleStore (lowNibble b) l
  | .y1 => none

/-- The least delay of a byte transmission at a label (R183, R184). -/
def byteDelay (rs : Rs) (b : Byte) : ByteLabel → Option Nat
  | .y0 => none
  | .high l => nibbleDelay l
  | .low l => nibbleDelay l
  | .y1 => some (execWait rs b)

/-- The label after a label of LcdByte (R183). -/
def ByteLabel.next : ByteLabel → Option ByteLabel
  | .y0 => some (.high .n0)
  | .high l =>
    match l.next with
    | some l' => some (.high l')
    | none => some (.low .n0)
  | .low l =>
    match l.next with
    | some l' => some (.low l')
    | none => some .y1
  | .y1 => none

/-- The least delay of the action a context is at, if that action is a `Delay` (R290). -/
def Ctx.delayLength (x : Ctx) : Option Nat :=
  match x.upc with
  | .waitbtn .p1 => some 10000
  | .waitbtn .r1 => some 10000
  | .waitbtn .s0 => some 50000
  | .blink .b1 => some 200000
  | .blink .b3 => some 200000
  | .lcdinit .i3 => some 15000
  | .lcdinit (.wait k) => some (initWait k)
  | .lcdinit (.nibble _ l) => nibbleDelay l
  | _ =>
    match x.sendingByte with
    | some (rs, b, y) => byteDelay rs b y
    | none => none

/-! ### The invariants -/

/-- The document's "all pin operations must execute only while this block is valid" (R30, R227): what runs is MAPOPEN in a
block that is not Released, or runs in a Mapped block; and the outcome of opening agrees with OPEN_OUTCOME. -/
def State.MappingOk (s : State) : Prop :=
  (∀ (c : Nat) (x : Ctx), s.ctxs[c]? = some x → x.status = .running →
    s.mapState = .mapped ∨ (x.upc = .mapopen ∧ s.mapState ≠ .released)) ∧
  (∀ e, s.mapState = .failed e → s.openOutcome = .fails e) ∧
  (s.mapState = .mapped ∨ s.mapState = .released → s.openOutcome = .ok)

/-- The lock is held by exactly the context that is between its `Acquire` and its `Release`, or that was refused with
LcdNotReady after its `Acquire` (R68, R181, R190, R242). -/
def State.LockOk (s : State) : Prop :=
  (∀ (c : Nat) (x : Ctx), s.ctxs[c]? = some x → x.status = .running → x.upc.critical = true → s.lock = .held c) ∧
  (∀ c : Nat, s.lock = .held c →
    ∃ x, s.ctxs[c]? = some x ∧
      ((x.status = .running ∧ x.upc.critical = true) ∨ x.status = .refused .lcdNotReady))

/-- `lcd_state` is FourBitModeNegotiating while LCDINIT is before the end of the 0x2 nibble's wait, and Ready wherever else
the lock is held by a Running context (R31, R188, R189). -/
def State.ReadyOk (s : State) : Prop :=
  ∀ (c : Nat) (x : Ctx), s.ctxs[c]? = some x → x.status = .running → x.upc.critical = true →
    s.lcdState = if x.upc.negotiating then .fourBitModeNegotiating else .ready

/-- Only a Running context has a delay in progress, and it ends `d` after it began, `d` the length of the action the
context is at (R270). -/
def Ctx.DelayOk (x : Ctx) : Prop :=
  ∀ t0, x.delayFrom = some t0 → x.status = .running ∧ ∃ d, x.delayLength = some d ∧ x.wake = t0 + d

/-- An event that is a delay lasted at least as long as it had to (R14, R270). -/
def Event.LongEnough : Event → Prop
  | .dly _ d t0 t1 => t0 + d ≤ t1
  | _ => True

/-- Every delay, in progress or recorded, respects its lower bound (R270). -/
def State.DelaysOk (s : State) : Prop :=
  (∀ (c : Nat) (x : Ctx), s.ctxs[c]? = some x → x.DelayOk) ∧ (∀ e ∈ s.hist, e.LongEnough)

/-- The operands of a Running context are inside the ranges of R228, and its label is one its operation has. -/
def Ctx.Placed (cols : Nat) (x : Ctx) : Prop :=
  match x.upc with
  | .none => False
  | .mapopen => True
  | .mapclose => True
  | .shutdown _ => True
  | .setmode _ => x.pin ≤ 53
  | .write _ => x.pin ≤ 31
  | .read _ => x.pin ≤ 31
  | .waitbtn _ => x.pin ≤ 31
  | .blink _ => x.pin ≤ 31
  | .lcdinit _ => True
  | .lcdclear l => ∀ y, l ≠ .text y
  | .lcdcursor l => x.a.toNat ≤ 1 ∧ x.b.toNat < cols ∧ ∀ y, l ≠ .text y
  | .lcdbyte l => ∀ y, l ≠ .text y
  | .lcdstr l => x.text.length ≤ 65535 ∧ (∀ y, l ≠ .single y) ∧ ∀ y, l = .text y → x.idx.toNat < x.text.length
  | .lcdline l => x.a.toNat ≤ 1 ∧ x.text.length ≤ 65535 ∧ ∀ y, l = .text y → x.idx.toNat < x.text.length

/-- Every Running context is placed, as it is once the local computation before its action is done (R10, R24, R228); there
is a context, and LCD_COLS is in its range (R4). -/
def State.PlacedOk (s : State) : Prop :=
  (∀ (c : Nat) (x : Ctx), s.ctxs[c]? = some x → x.status = .running → x.computed.Placed s.lcdCols) ∧
  0 < s.ctxs.length ∧ 1 ≤ s.lcdCols ∧ s.lcdCols ≤ 64

/-- The invariant of the block. -/
def State.Inv (s : State) : Prop :=
  s.MappingOk ∧ s.LockOk ∧ s.ReadyOk ∧ s.DelaysOk ∧ s.PlacedOk

/-! ### The hand-over, as the tables of the spec give it -/

/-- The operations that a request word can name, the three pseudo-operations among them (R94, R111). -/
def isRequest (i : Instr) : Bool :=
  match encode i with
  | .request _ => true
  | .payload _ => false
  | .nibble _ _ => false
  | .byte _ _ => false

/-- The pin operand and the largest pin the operation accepts (R228). -/
def pinRange : Instr → Option (Byte × Nat)
  | .setmode p _ => some (p, 53)
  | .setpinmode p _ => some (p, 53)
  | .write p _ => some (p, 31)
  | .writepin p _ => some (p, 31)
  | .read p => some (p, 31)
  | .readpin p => some (p, 31)
  | .waitbtn p => some (p, 31)
  | .blink p _ => some (p, 31)
  | _ => none

/-- The row or line operand, at most 1 (R228). -/
def rowOperand : Instr → Option Byte
  | .lcdcursor r _ => some r
  | .lcdline l _ => some l
  | _ => none

/-- The column operand, below LCD_COLS (R228). -/
def colOperand : Instr → Option Byte
  | .lcdcursor _ c => some c
  | _ => none

/-- The text operand (R22). -/
def textOperand : Instr → Option (List Byte)
  | .lcdstr t => some t
  | .lcdline _ t => some t
  | _ => none

/-- The first action of the operation (R93); for BLINK the loop test comes first (R170). -/
def firstUpc : Instr → Upc
  | .mapopen => .mapopen
  | .mapclose => .mapclose
  | .shutdown => .shutdown .a0
  | .setmode _ _ => .setmode .a0
  | .setpinmode _ _ => .setmode .a0
  | .write _ _ => .write .a0
  | .writepin _ _ => .write .a0
  | .read _ => .read .a0
  | .readpin _ => .read .a0
  | .waitbtn _ => .waitbtn .p0
  | .blink _ n => if n = 0#16 then .blink .b4 else .blink .b0
  | .lcdinit => .lcdinit .i0
  | .lcdclear => .lcdclear .acquire
  | .lcdcursor _ _ => .lcdcursor .acquire
  | .lcdstr _ => .lcdstr .acquire
  | .lcdline _ _ => .lcdline .acquire
  | .lcdbyte _ _ => .lcdbyte .acquire
  | _ => .none

/-- The reason a request is refused at its hand-over, in the order of R229; `none` where it is accepted. -/
def State.refusalOf (s : State) (i : Instr) : Option RefuseReason :=
  if i = .mapopen then if s.mapState = .unmapped then none else some .alreadyOpened
  else if s.mapState ≠ .mapped then some .blockNotValid
  else if (pinRange i).any (fun r => r.2 < r.1.toNat) then some .pinOutOfRange
  else if (rowOperand i).any (fun r => 1 < r.toNat) then some .rowOutOfRange
  else if (colOperand i).any (fun c => s.lcdCols ≤ c.toNat) then some .colOutOfRange
  else none

/-- The payload words of a text, each given alone and in turn to the executing context (R92; entry 15). -/
def State.receives (s : State) : List Byte → Result
  | [] => .next s
  | c :: cs =>
    match exec (.payload c) s with
    | .next t => t.receives cs
    | .fault r => .fault r
    | .refused r => .refused r

/-- The register update written before the first action of the operation: `CNT <- times` for BLINK (R10, R170). -/
def firstBetween : Instr → Between
  | .blink _ _ => .loadCount
  | _ => .nothing

/-- The context after the hand-over of `i`: `A`, `B`, `C` are the fields of the request word (R90, R93). -/
def Ctx.handed (x : Ctx) (i : Instr) : Ctx :=
  match encode i with
  | .request (r :: _) =>
    { x with
      a := fieldA r
      b := fieldB r
      c := fieldC r
      text := (textOperand i).getD x.text
      status := .running
      upc := (firstUpc i)
      between := (firstBetween i)
      delayFrom := none
      response := none }
  | _ => x

/-- The context after a refusal (R226). -/
def Ctx.refusedFor (x : Ctx) (r : RefuseReason) : Ctx :=
  { x with status := .refused r, upc := .none, response := none }

/-! ### An operation alone, with its least delays -/

/-- The clock gives the executing context's delay exactly the time it still needs, and nothing more. -/
def State.leastTick (s : State) : State :=
  match s.me with
  | some x => if x.delayFrom.isSome && decide (s.now < x.wake) then { s with now := x.wake } else s
  | none => s

/-- One action of `i` by the executing context, after the least tick it needs. -/
def soloStep (i : Instr) (s : State) : Result := exec i s.leastTick

/-- `n` actions of `i` by the executing context, no other context acting. -/
def solo (i : Instr) : Nat → State → Result
  | 0, s => .next s
  | n + 1, s =>
    match soloStep i s with
    | .next t => solo i n t
    | .fault r => .fault r
    | .refused r => .refused r

/-! ### Events of the spec's pseudocode -/

/-- The store of a pin write: SET for High, CLR for Low, the one-hot word (R131). -/
def pinEvent (c t p : Nat) (l : Level) : Event :=
  match l with
  | .high => .st c t 7 (1#32 <<< p)
  | .low => .st c t 10 (1#32 <<< p)

/-- The events of LcdNibble(n) by context `c` from time `t`, with the least delays (R182). -/
def nibbleEvents (c t : Nat) (n : Nibble) : List Event :=
  [pinEvent c t 23 (nibbleLine n 0), pinEvent c t 10 (nibbleLine n 1), pinEvent c t 27 (nibbleLine n 2),
    pinEvent c t 22 (nibbleLine n 3), pinEvent c t 24 .high, .dly c 1 t (t + 1), pinEvent c (t + 1) 24 .low,
    .dly c 1 (t + 1) (t + 2)]

/-- The events of LcdByte(b, rs) by context `c` from time `t`, with the least delays (R183). -/
def byteEvents (c t : Nat) (rs : Rs) (b : Byte) : List Event :=
  pinEvent c t 25 (rsLevel rs) :: nibbleEvents c t (highNibble b) ++ nibbleEvents c (t + 2) (lowNibble b) ++
    [.dly c (execWait rs b) (t + 4) (t + 4 + execWait rs b)]

/-- The events of a text sent from time `t`: each character is one byte with RS = 1 and 104 µs (R193). -/
def textEvents (c : Nat) : Nat → List Byte → List Event
  | _, [] => []
  | t, b :: bs => byteEvents c t .data b ++ textEvents c (t + 104) bs

/-- The two latch events of a byte (R186). -/
def byteLatches (rs : Rs) (b : Byte) : List Latch :=
  [{ rs := if rs = .data then 1#1 else 0#1, nibble := highNibble b },
    { rs := if rs = .data then 1#1 else 0#1, nibble := lowNibble b }]

/-- The events of BLINK on pin `p`, `n` times, from time `t` (R170). -/
def blinkEvents (c p : Nat) : Nat → Nat → List Event
  | _, 0 => []
  | t, n + 1 =>
    [pinEvent c t p .high, .dly c 200000 t (t + 200000), pinEvent c (t + 200000) p .low,
      .dly c 200000 (t + 200000) (t + 400000)] ++ blinkEvents c p (t + 400000) n

/-! ### The shapes that the statements of single actions share -/

/-- The next turn of `s` is `t`, and `s1` is `s` with that turn taken (R60). -/
def State.TakesTurn (s : State) (t : Turn) (s1 : State) : Prop :=
  (∃ ts, s.agenda = t :: ts ∧ s1 = { s with agenda := ts }) ∨
    (s.agenda = [] ∧ Config.turn s.turns = t ∧ s1 = { s with turns := s.turns + 1 })

/-- The next draw of external levels is `d`, and `s1` is `s` with that draw taken (R56). -/
def State.Draws (s : State) (d : Word) (s1 : State) : Prop :=
  (∃ ds, s.draws = d :: ds ∧ s1 = { s with draws := ds }) ∨
    (s.draws = [] ∧ Config.draw s.drawn = d ∧ s1 = { s with drawn := s.drawn + 1 })

/-- `v` is the word a load of LEVEL returns under the draw `d` (R56). -/
def State.IsLevel (s : State) (d v : Word) : Prop :=
  ∀ i, i < 32 → v.getLsbD i = if s.fsel.func i = 0b001#3 then s.out.getLsbD i else d.getLsbD i

/-- The executing context is Running, and `x` is what it is once the local computation before its action is done, which
belongs to that action (R10). -/
def State.Runs (s : State) (x : Ctx) : Prop := ∃ y, s.me = some y ∧ y.status = .running ∧ x = y.computed

/-- The latch word after a store for pin `p` (R53, R54). -/
def outAfter (out : Word) (p : Nat) (l : Level) : Word :=
  match l with
  | .high => out ||| 1#32 <<< p
  | .low => out &&& ~~~(1#32 <<< p)

/-- The one store of a pin change (R131): the latch, the event, and the latch event of R186. -/
def State.storedPin (s : State) (p : Nat) (l : Level) : State :=
  { s with
    out := outAfter s.out p l
    hist := s.hist ++ [pinEvent s.cur s.now p l]
    latches := s.latches ++ latchEvents s.fsel s.out (outAfter s.out p l) }

/-- The display pins of R112. -/
def lcdPins : List Nat := [25, 24, 23, 10, 27, 22]

/-- The shadow after a direct write of pin `p`: unknown if the display may have seen it (entry 13). -/
def State.shadowLost (s : State) (p : Nat) : State :=
  if p ∈ lcdPins then { s with lcdCursor := none, lcdDisplayOn := none } else s

/-- The context when its operation has ended with the response word `w` (R9, R91). -/
def Ctx.finished (x : Ctx) (w : Word) : Ctx := { x with status := .idle, upc := .none, response := some w }

/-- `Return()` of an operation without a value. -/
def State.returned (s : State) (x : Ctx) : State :=
  ({ s with hist := s.hist ++ [.ret s.cur s.now none] } : State).putCtx (x.finished 0#32)

/-- At a `Delay(d)`, `i` first notes the time, then holds its context, then goes on to `fin` of the state that has the
event recorded (R270). -/
def DelayRule (i : Instr) (x : Ctx) (s : State) (d : Nat) (fin : State → State) : Prop :=
  (x.delayFrom = none → exec i s = .next (s.putCtx { x with wake := s.now + d, delayFrom := some s.now })) ∧
  (∀ t0, x.delayFrom = some t0 → s.now < x.wake → exec i s = .next s) ∧
  (∀ t0, x.delayFrom = some t0 → x.wake ≤ s.now →
    exec i s = .next (fin { s with hist := s.hist ++ [.dly s.cur d t0 s.now] }))

/-- `i` is an instruction through which `x` sends the byte `b` with RS `rs`: the operation it runs, or the row of the
LCD bus that the byte is (R86, R183). -/
def Ctx.SendsBy (x : Ctx) (i : Instr) (rs : Rs) (b : Byte) : Prop :=
  x.operation = some i ∨ encode i = .byte rs b

/-- The LCD operations other than LCDINIT, at a label of theirs (R191 to R195). -/
def lcdAt (i : Instr) (l : LcdLabel) : Option Upc :=
  match i with
  | .lcdclear => some (.lcdclear l)
  | .lcdcursor _ _ => some (.lcdcursor l)
  | .lcdstr _ => some (.lcdstr l)
  | .lcdline _ _ => some (.lcdline l)
  | .lcdbyte _ _ => some (.lcdbyte l)
  | _ => none

/-- The context after `Acquire`: at the first byte, or for an empty LCDSTR at the `Release`; LCDSTR's `IDX <- 0` belongs to
that next action (R10, R191 to R195). -/
def Ctx.afterAcquire (x : Ctx) (i : Instr) : Ctx :=
  match i with
  | .lcdclear => { x with upc := .lcdclear (.single .y0) }
  | .lcdcursor _ _ => { x with upc := .lcdcursor (.single .y0) }
  | .lcdline _ _ => { x with upc := .lcdline (.single .y0) }
  | .lcdbyte _ _ => { x with upc := .lcdbyte (.single .y0) }
  | .lcdstr _ =>
    { x with between := .firstChar, upc := (if 0 < x.text.length then .lcdstr (.text .y0) else .lcdstr .release) }
  | _ => x

/-- The rows of R94 as mask and match. -/
def requestRows : List (Word × Word) :=
  [(0xFFFFFFFF#32, 0x01000000#32), (0xFFFFFFFF#32, 0x02000000#32), (0xFFFFFFFF#32, 0x03000000#32),
    (0xFF00FEFF#32, 0x10000000#32), (0xFF00FEFF#32, 0x11000000#32), (0xFF00FFFF#32, 0x12000000#32),
    (0xFF00FFFF#32, 0x20000000#32), (0xFF000000#32, 0x30000000#32), (0xFFFFFFFF#32, 0x40000000#32),
    (0xFFFFFFFF#32, 0x41000000#32), (0xFF0000FF#32, 0x42000000#32), (0xFFFF0000#32, 0x43000000#32),
    (0xFF000000#32, 0x44000000#32), (0xFFFEFF00#32, 0x45000000#32)]

/-- The requester's words begin with an illegal request (R105): a word that no row of R94 matches, or a text request
with a payload word above 0xFF among those laid down. -/
def IllegalWords : List Word → Prop
  | [] => False
  | r :: rest =>
    (∀ row ∈ requestRows, r &&& row.1 ≠ row.2) ∨
      ((r &&& 0xFFFF0000#32 = 0x43000000#32 ∨ r &&& 0xFF000000#32 = 0x44000000#32) ∧
        ∃ j w, j < (r &&& 0xFFFF#32).toNat ∧ rest[j]? = some w ∧ 0xFF < w.toNat)

/-! ### What an operation's history holds -/

/-- The context of an event (R14). -/
def Event.ctx : Event → Nat
  | .ld c _ _ _ => c
  | .st c _ _ _ => c
  | .dly c _ _ _ => c
  | .acq c _ => c
  | .rel c _ => c
  | .ret c _ _ => c
  | .err c _ _ => c

/-- The time of an event: when it was recorded (R14). -/
def Event.time : Event → Nat
  | .ld _ t _ _ => t
  | .st _ t _ _ => t
  | .dly _ _ _ t1 => t1
  | .acq _ t => t
  | .rel _ t => t
  | .ret _ t _ => t
  | .err _ t _ => t

/-- An event that ends an operation. -/
def Event.ends : Event → Bool
  | .ret _ _ _ => true
  | .err _ _ _ => true
  | .ld _ _ _ _ => false
  | .st _ _ _ _ => false
  | .dly _ _ _ _ => false
  | .acq _ _ => false
  | .rel _ _ => false

/-- The events of context `c` since the last end of an operation of its, oldest first. -/
def opEvents (c : Nat) (h : List Event) : List Event :=
  ((h.filter (fun e => e.ctx = c)).reverse.takeWhile (fun e => !e.ends)).reverse

/-- A load of LEVEL by `c` that reads pin `p` as `b`. -/
def IsSample (c p : Nat) (b : Bool) (e : Event) : Prop :=
  ∃ t v, e = .ld c t 13 v ∧ v.getLsbD p = b

/-- A high sample of pin `p` among the events. -/
def SeenHigh (c p : Nat) (es : List Event) : Prop := ∃ e ∈ es, IsSample c p true e

/-- A high sample and after it a low one, which is the last load (R154). -/
def SeenPress (c p : Nat) (es : List Event) : Prop :=
  ∃ es1 es2 hi lo, es = es1 ++ hi :: es2 ++ [lo] ∧ IsSample c p true hi ∧ IsSample c p false lo

/-- A press, and after its low sample a delay of at least 50 000 µs (R154). -/
def SeenSettled (c p : Nat) (es : List Event) : Prop :=
  ∃ es0 t0 t1, es = es0 ++ [.dly c 50000 t0 t1] ∧ SeenPress c p es0 ∧ t0 + 50000 ≤ t1

/-- What the history of its operation holds, by the label a context of WAITBTN is at (R153, R154). -/
def Ctx.Debounced (x : Ctx) (c : Nat) (es : List Event) : Prop :=
  (x.status = .idle → es = []) ∧
  (x.status = .running →
    match x.upc with
    | .waitbtn .r0 => SeenHigh c x.pin es
    | .waitbtn .r1 => SeenHigh c x.pin es
    | .waitbtn .s0 => SeenPress c x.pin es
    | .waitbtn .s1 => SeenSettled c x.pin es
    | _ => True)

/-- The debounce invariant (R154). -/
def State.DebounceOk (s : State) : Prop :=
  s.PlacedOk ∧ s.DelaysOk ∧
    ∀ (c : Nat) (x : Ctx), s.ctxs[c]? = some x → x.Debounced c (opEvents c s.hist)

/-- The accesses of R58: loads of words 0 to 5 and 13 only, stores to words 0 to 5, and to 7 and 10 of a word with exactly
one bit set (R53, R54). -/
def Event.Described : Event → Prop
  | .ld _ _ w _ => w < 6 ∨ w = 13
  | .st _ _ w v => w < 6 ∨ ((w = 7 ∨ w = 10) ∧ ∃ p, p ≤ 31 ∧ v = 1#32 <<< p)
  | _ => True

/-- Every access in the history is one of R58. -/
def State.AccessesOk (s : State) : Prop := s.PlacedOk ∧ ∀ e ∈ s.hist, e.Described

/-- An error was recorded (R224). -/
def Event.isErr : Event → Bool
  | .err _ _ _ => true
  | .ret _ _ _ => false
  | .ld _ _ _ _ => false
  | .st _ _ _ _ => false
  | .dly _ _ _ _ => false
  | .acq _ _ => false
  | .rel _ _ => false

/-- The history holds no error, unless the block is Failed, and then the one error that made it so (R224, R225). -/
def State.ErrorsOk (s : State) : Prop :=
  s.MappingOk ∧
  (∀ e, s.mapState = .failed e → ∃ c t, s.hist.filter Event.isErr = [.err c t e]) ∧
  ((∀ e, s.mapState ≠ .failed e) → s.hist.filter Event.isErr = [])

/-- The response words the block produces (R91). -/
def State.ResponsesOk (s : State) : Prop :=
  ∀ (c : Nat) (x : Ctx) (w : Word), s.ctxs[c]? = some x → x.response = some w →
    x.status = .idle ∧ (w = 0x00000000#32 ∨ w = 0x00000001#32 ∨ w = 0x01000000#32 ∨ w = 0x02000000#32)

/-- The six pins of the display are in Output mode (R186). -/
def State.LcdDriven (s : State) : Prop := ∀ p ∈ lcdPins, s.fsel.func p = 0b001#3

/-- The latch word after the byte `b` with RS `rs` has been sent: RS as sent, EN low, the data lines at the low nibble
(R182, R183). -/
def outAfterByte (out : Word) (rs : Rs) (b : Byte) : Word :=
  outAfter (outAfter (outAfter (outAfter (outAfter (outAfter out 25 (rsLevel rs)) 23 (nibbleLine (lowNibble b) 0)) 10
    (nibbleLine (lowNibble b) 1)) 27 (nibbleLine (lowNibble b) 2)) 22 (nibbleLine (lowNibble b) 3)) 24 .low

/-! ### The shapes that the statements of whole operations share -/

/-- The executing context `x` is Idle in a Mapped block, with no delay in progress. -/
def State.Starts (s : State) (x : Ctx) : Prop :=
  s.me = some x ∧ x.status = .idle ∧ x.delayFrom = none ∧ s.mapState = .mapped

/-- The executing context has ended its operation and answered the word `w` (R9, R91). -/
def State.Answered (s : State) (w : Word) : Prop :=
  ∃ y, s.me = some y ∧ y.status = .idle ∧ y.response = some w

/-- Every context but the executing one is Idle (R121). -/
def State.OthersIdle (s : State) : Prop :=
  ∀ (c : Nat) (y : Ctx), c ≠ s.cur → s.ctxs[c]? = some y → y.status = .idle

/-- The wait that follows a byte (R184, R290). -/
def byteWait (rs : Rs) (b : Byte) : Nat :=
  if rs = .command ∧ (b = 0x01#8 ∨ b = 0x02#8 ∨ b = 0x03#8) then 2000 else 100

/-- The text loop at index `n`: on to the next character or to `Release`, whose action begins with the update `k` of IDX
(R10, R193, R194). -/
def Ctx.textAt (x : Ctx) (k : Between) (n : BitVec 16) (mk : LcdLabel → Upc) : Ctx :=
  { x with between := k, upc := (if n.toNat < x.text.length then mk (.text .y0) else mk .release) }

/-- What an operation does after a byte it has sent (R187, R191 to R195). -/
def Ctx.byteDone (x : Ctx) : Ctx :=
  match x.upc with
  | .lcdinit (.byte .functionSet _) => { x with upc := .lcdinit (.byte .displayControl .y0) }
  | .lcdinit (.byte .displayControl _) => { x with upc := .lcdinit (.byte .entryMode .y0) }
  | .lcdinit (.byte .entryMode _) => { x with upc := .lcdinit (.byte .clearDisplay .y0) }
  | .lcdinit (.byte .clearDisplay _) => { x with upc := .lcdinit .i8 }
  | .lcdclear _ => { x with upc := .lcdclear .release }
  | .lcdcursor _ => { x with upc := .lcdcursor .release }
  | .lcdbyte _ => { x with upc := .lcdbyte .release }
  | .lcdline (.single _) => x.textAt .firstChar 0#16 .lcdline
  | .lcdline (.text _) => x.textAt .nextChar (x.idx + 1#16) .lcdline
  | .lcdstr (.text _) => x.textAt .nextChar (x.idx + 1#16) .lcdstr
  | _ => x

/-- The shadow after a byte sent in Ready (R199). -/
def State.shadowAfter (s : State) (rs : Rs) (b : Byte) : State :=
  if s.lcdState = .ready then
    { s with
      lcdCursor := cursorAfter s.lcdCols rs b s.lcdCursor
      lcdDisplayOn := displayOnAfter rs b s.lcdDisplayOn }
  else s

/-- The events of the polls of WAITBTN that do not end a phase: each a load of LEVEL and 10 000 µs (R153). -/
def pollEvents (c : Nat) (f : Fsel) (out : Word) : Nat → List Word → List Event
  | _, [] => []
  | t, d :: ds =>
    [.ld c t 13 (levelWord f out d), .dly c 10000 t (t + 10000)] ++ pollEvents c f out (t + 10000) ds

/-- The latch word after a text has been sent (R193). -/
def outAfterText (out : Word) (text : List Byte) : Word :=
  text.foldl (fun o b => outAfterByte o .data b) out

/-- The events of LCDINIT by context `c` from time `t`, with the least delays (R187). -/
def initEvents (c t : Nat) : List Event :=
  [.acq c t, pinEvent c t 25 .low, pinEvent c t 24 .low, .dly c 15000 t (t + 15000)] ++
    nibbleEvents c (t + 15000) 0x3#4 ++ [.dly c 4100 (t + 15002) (t + 19102)] ++
    nibbleEvents c (t + 19102) 0x3#4 ++ [.dly c 100 (t + 19104) (t + 19204)] ++
    nibbleEvents c (t + 19204) 0x3#4 ++ [.dly c 100 (t + 19206) (t + 19306)] ++
    nibbleEvents c (t + 19306) 0x2#4 ++ [.dly c 100 (t + 19308) (t + 19408)] ++
    byteEvents c (t + 19408) .command 0x28#8 ++ byteEvents c (t + 19512) .command 0x0C#8 ++
    byteEvents c (t + 19616) .command 0x06#8 ++ byteEvents c (t + 19720) .command 0x01#8 ++
    [.rel c (t + 21724), .ret c (t + 21724) none]

/-- The latch events of LCDINIT (R187). -/
def initLatches : List Latch :=
  [0x3#4, 0x3#4, 0x3#4, 0x2#4, 0x2#4, 0x8#4, 0x0#4, 0xC#4, 0x0#4, 0x6#4, 0x0#4, 0x1#4].map fun n =>
    { rs := 0#1, nibble := n }

/-- The pins whose latch bit the operation a context runs may change (R58, R122, R131, R170, R182). -/
def Ctx.drives (x : Ctx) : List Nat :=
  match x.upc with
  | .shutdown _ => [26, 5]
  | .write _ => [x.pin]
  | .blink _ => [x.pin]
  | .lcdinit _ => lcdPins
  | .lcdclear _ => lcdPins
  | .lcdcursor _ => lcdPins
  | .lcdstr _ => lcdPins
  | .lcdline _ => lcdPins
  | .lcdbyte _ => lcdPins
  | _ => []

end Sys2Proof.Machine
end

