-- ==== Sys2Proof/Certificates/Slice0/Obligations.lean ====
section
/-! DEFINITION. The statements for the provers, in the order of OBLIGATIONS.json: encodings, steps, the register block,
the hand-over, the actions of every operation, whole operations, and what every step keeps. -/

open Sys2Proof Sys2Proof.Machine

/-! ### Encodings -/

/-- Decoding what a well-formed instruction is encoded to gives it back, a pseudo-operation as the Pin Driver operation it
assembles to (R86, R87, R90 to R94, R111). -/
def Obligations.DecodeOfEncode : Prop :=
  ∀ i : Instr, i.wellFormed = true → decode (encode i) = .ok i.core

/-- Whatever decodes is exactly what its instruction is encoded to, and that instruction is well formed: every word has
one meaning (R90 to R94). -/
def Obligations.EncodeOfDecode : Prop :=
  ∀ (e : Encoded) (i : Instr), decode e = .ok i → encode i = e ∧ i.wellFormed = true ∧ i.core = i

/-- The length of a request is known from its first word: a request is taken off the front of the requester's words
whole (R90, R92). That nothing is taken while words of it are missing is the model's choice, the spec says nothing of
missing words (entry 10). -/
def Obligations.RequestsAreTakenWhole : Prop :=
  ∀ (i : Instr) (ws : List Word), i.wellFormed = true → encode i = .request ws →
    (∀ rest, decodeRequest (ws ++ rest) = .ok (i.core, rest)) ∧
    (∀ k, k < ws.length → decodeRequest (ws.take k) = .error .incomplete)

/-- A few words of the spec's own tables decode to the instructions they stand for (R86, R87, R94, V18). -/
def Obligations.DecodeWordsRight : Prop :=
  decode (.request [0x10350100#32]) = .ok (.setmode 53#8 .output) ∧
  decode (.request [0x12130000#32]) = .ok (.read 19#8) ∧
  decode (.request [0x3005012C#32]) = .ok (.blink 5#8 300#16) ∧
  decode (.request [0x42010F00#32]) = .ok (.lcdcursor 1#8 15#8) ∧
  decode (.request [0x44010002#32, 0x4F#32, 0x4B#32]) = .ok (.lcdline 1#8 [0x4F#8, 0x4B#8]) ∧
  decode (.request [0x45010041#32]) = .ok (.lcdbyte .data 0x41#8) ∧
  decode (.byte .command 0xC3#8) = .ok (.setaddr 0x43#7) ∧
  decode (.nibble .command 0x3#4) = .ok .init3

/-! ### Steps -/

/-- A turn of a Running context is `exec` of the instruction it is in the middle of, a turn of an Idle one is `exec` of the
request its requester's words begin with, those words taken off (R10, R12, R93). That turns and words stand in State
(entries 5, 6), and that a byte of the LCD bus is run as its own row (entry 14), is the model's choice. -/
def Obligations.StepRunsWhatItFetches : Prop :=
  ∀ (s s1 : State) (c : Nat) (x : Ctx), s.TakesTurn (.context c) s1 → s.ctxs[c]? = some x →
    (∀ i, x.status = .running → x.computed.instr = some i → step s = exec i { s1 with cur := c }) ∧
    (∀ i rest, x.status = .idle → decodeRequest x.todo = .ok (i, rest) →
      step s = exec i { s1 with cur := c, ctxs := s1.ctxs.set c { x with todo := rest } })

/-- The clock's turn advances `now` by its tick and changes nothing else; no action takes time (R271). -/
def Obligations.TimePassesInTicks : Prop :=
  (∀ (s s1 : State) (extra : Nat), s.TakesTurn (.clock extra) s1 →
    step s = .next { s1 with now := s1.now + (extra + 1) }) ∧
  (∀ (i : Instr) (s t : State), exec i s = .next t → t.now = s.now)

/-- `Delay(d)` in two halves: the first sets `wake` to `now + d` and notes the start; until `now ≥ wake` the context is
held; then, at least `d` after the start and with no upper bound, the event is recorded and the operation goes on
(R270). -/
def Obligations.DelayIsTwoHalves : Prop :=
  ∀ (d : Nat) (x : Ctx) (s : State) (k : Ctx → State → Result),
    (x.delayFrom = none →
      delayAct d x s k = .next (s.putCtx { x with wake := s.now + d, delayFrom := some s.now })) ∧
    (∀ t0, x.delayFrom = some t0 → s.now < x.wake → delayAct d x s k = .next s) ∧
    (∀ t0, x.delayFrom = some t0 → x.wake ≤ s.now →
      delayAct d x s k = k { x with delayFrom := none } { s with hist := s.hist ++ [.dly s.cur d t0 s.now] } ∧
        (x.wake = t0 + d → t0 + d ≤ s.now))

/-- A turn for which nothing is enabled changes nothing but the turn taken: no such context, a Refused context, a
request not yet laid down whole (R23; the model's choice, entries 5 and 10). -/
def Obligations.StepWaitsWhereNothingIsEnabled : Prop :=
  ∀ (s s1 : State) (c : Nat), s.TakesTurn (.context c) s1 →
    (s.ctxs.length ≤ c → step s = .next s1) ∧
    (∀ x r, s.ctxs[c]? = some x → x.status = .refused r → step s = .next { s1 with cur := c }) ∧
    (∀ x, s.ctxs[c]? = some x → x.status = .idle → decodeRequest x.todo = .error .incomplete →
      step s = .next { s1 with cur := c })

/-- Words that match no row of R94, and a payload word with a one above bit 7, are refused with IllegalRequest (R105). That
such a payload word is refused while later words are still missing (entry 10), and that the refusal clears the old
response and leaves the words where they stand (entry 11), is the model's choice; nothing else changes. -/
def Obligations.IllegalRequestsAreRefused : Prop :=
  ∀ (s s1 : State) (c : Nat) (x : Ctx), s.TakesTurn (.context c) s1 → s.ctxs[c]? = some x → x.status = .idle →
    IllegalWords x.todo →
    step s = .next (({ s1 with cur := c } : State).putCtx (x.refusedFor .illegalRequest))

/-- Launch (R40): every context Idle, the block Unmapped, the display Uninitialized, the lock Free, the shadow Unknown,
time 0, the history empty. The model's choices, for which R40 has no value: the free launch values of the six FSEL words
and OUT (entry 1), no response (entry 2), no request to hand over (entry 6). -/
def Obligations.ResetIsLaunch : Prop :=
  0 < State.reset.ctxs.length ∧
  (∀ x ∈ State.reset.ctxs, x.status = .idle ∧ x.todo = [] ∧ x.response = none) ∧
  State.reset.mapState = .unmapped ∧ State.reset.lcdState = .uninitialized ∧ State.reset.lock = .free ∧
  State.reset.lcdCursor = none ∧ State.reset.lcdDisplayOn = none ∧ State.reset.now = 0 ∧ State.reset.hist = [] ∧
  (∀ w, w < 6 → State.reset.fsel.get w = Config.launchFsel w) ∧ State.reset.out = Config.launchOut

/-- The state after launch meets every invariant that is stated below (R40). -/
def Obligations.ResetMeetsTheInvariants : Prop :=
  State.reset.Inv ∧ State.reset.DebounceOk ∧ State.reset.AccessesOk ∧ State.reset.ResponsesOk ∧ State.reset.ErrorsOk

/-! ### The register block -/

/-- The function-select words are plain storage, all 32 bits; a load changes nothing, a store changes one word, and the
function of a pin is read from the stored word (R52). -/
def Obligations.FselWordsAreStorage : Prop :=
  ∀ (w : Nat) (s : State), w < 6 →
    memRead (4 * w) s = some (s.fsel.get w, s) ∧
    ∀ v : Word, ∃ t, memWrite (4 * w) v s = some t ∧ t = { s with fsel := t.fsel } ∧
      memRead (4 * w) t = some (v, t) ∧
      (∀ w', w' < 6 → w' ≠ w → t.fsel.get w' = s.fsel.get w') ∧
      (∀ p, p / 10 = w → t.fsel.func p = v.extractLsb' (3 * (p % 10)) 3)

/-- A store to SET sets the bits that are one in the stored word and leaves the others, a store to CLR clears them and
leaves the others; a store of zero changes nothing (R53, R54). -/
def Obligations.SetAndClrStoreBits : Prop :=
  ∀ (v : Word) (s : State),
    (∃ t, memWrite 0x1C v s = some t ∧
      t = { s with out := s.out ||| v, latches := s.latches ++ latchEvents s.fsel s.out (s.out ||| v) } ∧
      (∀ i, i < 32 → t.out.getLsbD i = if v.getLsbD i then true else s.out.getLsbD i) ∧
      (v = 0#32 → t = s)) ∧
    (∃ t, memWrite 0x28 v s = some t ∧
      t = { s with out := s.out &&& ~~~v, latches := s.latches ++ latchEvents s.fsel s.out (s.out &&& ~~~v) } ∧
      (∀ i, i < 32 → t.out.getLsbD i = if v.getLsbD i then false else s.out.getLsbD i) ∧
      (v = 0#32 → t = s))

/-- A load of LEVEL returns a word that has the latch bit of every pin in Output mode (PRESUMED, entry 18) and the drawn
bit of every other pin; it takes one draw and changes nothing else (R56). -/
def Obligations.LevelShowsLatchOrDraw : Prop :=
  ∀ (s s1 : State) (d : Word), s.Draws d s1 → ∃ v, memRead 0x34 s = some (v, s1) ∧ s.IsLevel d v

/-- A load of SET or CLR, a store to LEVEL, any access to another word, and a misaligned access have no meaning; as an
action each is refused by its own name (R57, R61; the model's refusal, entry 20). -/
def Obligations.OtherAccessesHaveNoMeaning : Prop :=
  (∀ (a : Nat) (s : State), ¬(∃ w, a = 4 * w ∧ (w < 6 ∨ w = 13)) → memRead a s = none) ∧
  (∀ (a : Nat) (v : Word) (s : State), ¬(∃ w, a = 4 * w ∧ (w < 6 ∨ w = 7 ∨ w = 10)) → memWrite a v s = none) ∧
  (∀ (w : Nat) (s : State) (k : Word → State → Result), ¬(w < 6 ∨ w = 13) →
    loadAct w s k = .refused (.undefinedAccess (4 * w))) ∧
  (∀ (w : Nat) (v : Word) (s : State) (k : State → Result), ¬(w < 6 ∨ w = 7 ∨ w = 10) →
    storeAct w v s k = .refused (.undefinedAccess (4 * w)))

/-- A latch event happens exactly when `OUT[24]` goes from 1 to 0 with the six LCD pins in Output mode, and it holds RS
and D7 to D4 at that moment (R186; that the edge is the falling one is the spec's general knowledge, entry 19). -/
def Obligations.LatchAtFallingEnable : Prop :=
  ∀ (f : Fsel) (old new : Word),
    ((∀ p ∈ lcdPins, f.func p = 0b001#3) → old.getLsbD 24 = true → new.getLsbD 24 = false →
      ∃ l, latchEvents f old new = [l] ∧ l.rs.getLsbD 0 = new.getLsbD 25 ∧ l.nibble.getLsbD 3 = new.getLsbD 22 ∧
        l.nibble.getLsbD 2 = new.getLsbD 27 ∧ l.nibble.getLsbD 1 = new.getLsbD 10 ∧
        l.nibble.getLsbD 0 = new.getLsbD 23) ∧
    (¬((∀ p ∈ lcdPins, f.func p = 0b001#3) ∧ old.getLsbD 24 = true ∧ new.getLsbD 24 = false) →
      latchEvents f old new = [])

/-! ### The hand-over -/

/-- A request inside its preconditions, handed to an Idle context, writes A, B, C and TEXT and puts the context at the
operation's first action, b4 for a BLINK of 0 times (R24, R93). `CNT <- times` belongs to that first action (R10; how it
is noted is the model's choice, entry 9), and clearing the old response is the model's choice (entry 11); nothing else
changes. -/
def Obligations.HandOverLoadsOperands : Prop :=
  ∀ (i : Instr) (s : State) (x : Ctx), s.me = some x → x.status = .idle → isRequest i = true →
    s.refusalOf i = none → exec i s = .next (s.putCtx (x.handed i))

/-- A request outside its preconditions is refused at its hand-over, for the first reason in the order of R229, and touches
nothing but the context's status (R226 to R229), its position and its earlier response, which the refusal clears (the
model's choice, entries 28 and 11). -/
def Obligations.HandOverRefusesInOrder : Prop :=
  ∀ (i : Instr) (s : State) (x : Ctx) (r : RefuseReason), s.me = some x → x.status = .idle → isRequest i = true →
    s.refusalOf i = some r → exec i s = .next (s.putCtx (x.refusedFor r))

/-- A payload word alone appends its character to the TEXT of an Idle context (the model's choice, entry 15). The two text
requests receive all of theirs in their hand-over: after it TEXT holds the characters of the payload, whatever it held
before, as if each word had been received in turn from an empty TEXT (R92, R93). -/
def Obligations.PayloadAppendsCharacter : Prop :=
  (∀ (ch : Byte) (s : State) (x : Ctx), s.me = some x → x.status = .idle →
    exec (.payload ch) s = .next (s.putCtx { x with text := x.text ++ [ch] })) ∧
  (∀ (i : Instr) (t : List Byte) (s : State) (x : Ctx), s.me = some x → x.status = .idle →
    i = .lcdstr t ∨ (∃ l, i = .lcdline l t) → s.refusalOf i = none →
    ∃ y, exec i s = .next (s.putCtx y) ∧ y.text = t ∧
      ∃ z, (s.putCtx { x with text := [] }).receives t = .next z ∧ z.me.map Ctx.text = some t)

/-! ### Actions of the Register Mapper -/

/-- MAPOPEN's one action: Ok maps the block and returns, each error is raised with its status (R120, R220, R224). A MAPOPEN
that finds the block no longer Unmapped is refused there too (R120, R225; that the test stands at the action as well as
at the hand-over is deduced, entry 12). -/
def Obligations.MapopenActs : Prop :=
  ∀ (s : State) (x : Ctx), s.Runs x → x.upc = .mapopen →
    (s.mapState = .unmapped → s.openOutcome = .ok →
      exec .mapopen s = .next (({ s with mapState := .mapped } : State).returned x)) ∧
    (s.mapState = .unmapped → s.openOutcome = .fails .deviceOpenFailed →
      exec .mapopen s = .next
        (({ s with
            mapState := .failed .deviceOpenFailed
            hist := s.hist ++ [.err s.cur s.now .deviceOpenFailed] } : State).putCtx (x.finished 0x01000000#32))) ∧
    (s.mapState = .unmapped → s.openOutcome = .fails .mapFailed →
      exec .mapopen s = .next
        (({ s with
            mapState := .failed .mapFailed
            hist := s.hist ++ [.err s.cur s.now .mapFailed] } : State).putCtx (x.finished 0x02000000#32))) ∧
    (s.mapState ≠ .unmapped → exec .mapopen s = .next (s.putCtx (x.refusedFor .alreadyOpened)))

/-- The closing action of MAPCLOSE and of SHUTDOWN: it releases the block when every other context is Idle and the lock is
Free, and is refused with CloseWhileBusy otherwise (R121, R122). -/
def Obligations.ClosingActs : Prop :=
  ∀ (i : Instr) (s : State) (x : Ctx), s.Runs x →
    (i = .mapclose ∧ x.upc = .mapclose ∨ i = .shutdown ∧ x.upc = .shutdown .a2) →
    (s.OthersIdle → s.lock = .free → exec i s = .next (({ s with mapState := .released } : State).returned x)) ∧
    (¬(s.OthersIdle ∧ s.lock = .free) → exec i s = .next (s.putCtx (x.refusedFor .closeWhileBusy)))

/-- The two stores of SHUTDOWN: green LED low, then red LED low (R122). -/
def Obligations.ShutdownStores : Prop :=
  ∀ (s : State) (x : Ctx), s.Runs x →
    (x.upc = .shutdown .a0 →
      exec .shutdown s = .next ((s.storedPin 26 .low).putCtx { x with upc := .shutdown .a1 })) ∧
    (x.upc = .shutdown .a1 →
      exec .shutdown s = .next ((s.storedPin 5 .low).putCtx { x with upc := .shutdown .a2 }))

/-! ### Actions of the Pin Driver -/

/-- The five actions of SETMODE, and of SETPINMODE: load, clear the field, and for Output load again and set `0b001`
(R130, R150). -/
def Obligations.SetmodeActs : Prop :=
  ∀ (i : Instr) (p : Byte) (m : Mode) (s : State) (x : Ctx), i = .setmode p m ∨ i = .setpinmode p m → s.Runs x →
    x.a = p → x.b = m.toByte → p.toNat ≤ 53 →
    (x.upc = .setmode .a0 →
      exec i s = .next
        (({ s with
            hist := s.hist ++ [.ld s.cur s.now (p.toNat / 10) (s.fsel.get (p.toNat / 10))] } : State).putCtx
          { x with tmp := s.fsel.get (p.toNat / 10), upc := .setmode .a1 })) ∧
    (∀ v, v = x.tmp &&& ~~~(0b111#32 <<< (p.toNat % 10 * 3)) → x.upc = .setmode .a1 →
      exec i s = .next
        (({ s with
            fsel := s.fsel.set (p.toNat / 10) v
            hist := s.hist ++ [.st s.cur s.now (p.toNat / 10) v] } : State).putCtx
          { x with upc := (if m = .output then .setmode .a2 else .setmode .a4) })) ∧
    (x.upc = .setmode .a2 →
      exec i s = .next
        (({ s with
            hist := s.hist ++ [.ld s.cur s.now (p.toNat / 10) (s.fsel.get (p.toNat / 10))] } : State).putCtx
          { x with tmp := s.fsel.get (p.toNat / 10), upc := .setmode .a3 })) ∧
    (∀ v, v = x.tmp ||| 0b001#32 <<< (p.toNat % 10 * 3) → x.upc = .setmode .a3 →
      exec i s = .next
        (({ s with
            fsel := s.fsel.set (p.toNat / 10) v
            hist := s.hist ++ [.st s.cur s.now (p.toNat / 10) v] } : State).putCtx { x with upc := .setmode .a4 })) ∧
    (x.upc = .setmode .a4 → exec i s = .next (s.returned x))

/-- The two actions of WRITE, and of WRITEPIN: one store of `1 << pin` to SET or to CLR, then Return. That a direct write
to a pin of the display makes the shadow Unknown is the model's choice (R131, R151, entry 13). -/
def Obligations.WriteActs : Prop :=
  ∀ (i : Instr) (p : Byte) (l : Level) (s : State) (x : Ctx), i = .write p l ∨ i = .writepin p l → s.Runs x →
    x.a = p → x.b = l.toByte → p.toNat ≤ 31 →
    (x.upc = .write .a0 →
      exec i s = .next (((s.storedPin p.toNat l).shadowLost p.toNat).putCtx { x with upc := .write .a1 })) ∧
    (x.upc = .write .a1 → exec i s = .next (s.returned x))

/-- The two actions of READ, and of READPIN: one load of LEVEL into TMP, bit `pin` of it into RES, then Return(RES) with
RES in bit 0 of the response word (R91, R132, R152). -/
def Obligations.ReadActs : Prop :=
  ∀ (i : Instr) (p : Byte) (s : State) (x : Ctx), i = .read p ∨ i = .readpin p → s.Runs x →
    x.a = p → p.toNat ≤ 31 →
    (∀ d s1 v, s.Draws d s1 → s.IsLevel d v → x.upc = .read .a0 →
      exec i s = .next
        (({ s1 with hist := s.hist ++ [.ld s.cur s.now 13 v] } : State).putCtx
          { x with tmp := v, res := (if v.getLsbD p.toNat then 1#1 else 0#1), upc := .read .a1 })) ∧
    (x.upc = .read .a1 →
      exec i s = .next
        (({ s with hist := s.hist ++ [.ret s.cur s.now (some x.res)] } : State).putCtx (x.finished (x.res.setWidth 32))))

/-! ### Actions of the debounce filter and of the Blink Sequencer -/

/-- The actions of WAITBTN: sample until High, sample until Low, 10 000 µs between samples of a phase, 50 000 µs to settle,
Return (R153). That a pin in Output mode is sampled as its latch bit is general knowledge (PRESUMED, entry 18). -/
def Obligations.WaitbtnActs : Prop :=
  ∀ (p : Byte) (s : State) (x : Ctx), s.Runs x → x.a = p → p.toNat ≤ 31 →
    (∀ d s1 v, s.Draws d s1 → s.IsLevel d v → x.upc = .waitbtn .p0 →
      exec (.waitbtn p) s = .next
        (({ s1 with hist := s.hist ++ [.ld s.cur s.now 13 v] } : State).putCtx
          { x with
            tmp := v
            res := (if v.getLsbD p.toNat then 1#1 else 0#1)
            upc := (if v.getLsbD p.toNat then .waitbtn .r0 else .waitbtn .p1) })) ∧
    (x.upc = .waitbtn .p1 →
      DelayRule (.waitbtn p) x s 10000 fun r => r.putCtx { x with delayFrom := none, upc := .waitbtn .p0 }) ∧
    (∀ d s1 v, s.Draws d s1 → s.IsLevel d v → x.upc = .waitbtn .r0 →
      exec (.waitbtn p) s = .next
        (({ s1 with hist := s.hist ++ [.ld s.cur s.now 13 v] } : State).putCtx
          { x with
            tmp := v
            res := (if v.getLsbD p.toNat then 1#1 else 0#1)
            upc := (if v.getLsbD p.toNat then .waitbtn .r1 else .waitbtn .s0) })) ∧
    (x.upc = .waitbtn .r1 →
      DelayRule (.waitbtn p) x s 10000 fun r => r.putCtx { x with delayFrom := none, upc := .waitbtn .r0 }) ∧
    (x.upc = .waitbtn .s0 →
      DelayRule (.waitbtn p) x s 50000 fun r => r.putCtx { x with delayFrom := none, upc := .waitbtn .s1 }) ∧
    (x.upc = .waitbtn .s1 → exec (.waitbtn p) s = .next (s.returned x))

/-- The actions of BLINK: drive high, hold 200 000 µs, drive low, hold 200 000 µs, count down, Return at zero (R170). The
count-down belongs to the action after b3 (R10), while the context stands already at the label it reaches (R24); how it
is noted is the model's choice (entry 9). That a direct write to a pin of the display makes the shadow Unknown is the
model's choice too (entry 13). -/
def Obligations.BlinkActs : Prop :=
  ∀ (p : Byte) (n : BitVec 16) (s : State) (x : Ctx), s.Runs x → x.a = p → x.times = n → p.toNat ≤ 31 →
    (x.upc = .blink .b0 →
      exec (.blink p n) s = .next
        (((s.storedPin p.toNat .high).shadowLost p.toNat).putCtx { x with upc := .blink .b1 })) ∧
    (x.upc = .blink .b1 →
      DelayRule (.blink p n) x s 200000 fun r => r.putCtx { x with delayFrom := none, upc := .blink .b2 }) ∧
    (x.upc = .blink .b2 →
      exec (.blink p n) s = .next
        (((s.storedPin p.toNat .low).shadowLost p.toNat).putCtx { x with upc := .blink .b3 })) ∧
    (x.upc = .blink .b3 →
      DelayRule (.blink p n) x s 200000 fun r =>
        r.putCtx
          { x with
            delayFrom := none
            between := .countDown
            upc := (if x.cnt - 1#16 = 0#16 then .blink .b4 else .blink .b0) }) ∧
    (x.upc = .blink .b4 → exec (.blink p n) s = .next (s.returned x))

/-! ### Actions of the LCD Controller -/

/-- `Acquire` of every LCD operation, LCDINIT among them: while the lock is taken the context is held, and a context that
finds it Free takes it, whichever context that is (R180). -/
def Obligations.AcquireTakesTheLock : Prop :=
  ∀ (i : Instr) (s : State) (x : Ctx), s.Runs x →
    lcdAt i .acquire = some x.upc ∨ (i = .lcdinit ∧ x.upc = .lcdinit .i0) →
    (∀ c, s.lock = .held c → exec i s = .next s) ∧
    (s.lock = .free →
      ∃ t, exec i s = .next t ∧ t.lock = .held s.cur ∧ t.hist = s.hist ++ [.acq s.cur s.now])

/-- `Acquire` of the five LCD operations that need Ready: the context is held while the lock is taken, takes it when it is
Free, and is refused with LcdNotReady if `lcd_state` is not Ready then (R180, R189). LCDSTR's `IDX <- 0` belongs to the
action after the `Acquire` (R10); how it is noted is the model's choice (entry 9). -/
def Obligations.LcdAcquires : Prop :=
  ∀ (i : Instr) (s : State) (x : Ctx), s.Runs x → lcdAt i .acquire = some x.upc →
    (∀ c, s.lock = .held c → exec i s = .next s) ∧
    (s.lock = .free → s.lcdState = .ready →
      exec i s = .next
        (({ s with lock := .held s.cur, hist := s.hist ++ [.acq s.cur s.now] } : State).putCtx (x.afterAcquire i))) ∧
    (s.lock = .free → s.lcdState ≠ .ready →
      exec i s = .next
        (({ s with lock := .held s.cur, hist := s.hist ++ [.acq s.cur s.now] } : State).putCtx (x.refusedFor .lcdNotReady)))

/-- `Release` and `Return` of those five operations (R181). -/
def Obligations.LcdReleases : Prop :=
  ∀ (i : Instr) (s : State) (x : Ctx), s.Runs x →
    (∀ u, lcdAt i .release = some x.upc → lcdAt i .ret = some u → s.lock = .held s.cur →
      exec i s = .next
        (({ s with lock := .free, hist := s.hist ++ [.rel s.cur s.now] } : State).putCtx { x with upc := u })) ∧
    (lcdAt i .ret = some x.upc → exec i s = .next (s.returned x))

/-- A byte transmission's stores, in every operation that sends one and in every row of the LCD bus that is one: RS first,
then the four data lines and the two edges of EN of each nibble, high nibble first (R86, R182, R183). That a row of the
LCD bus (FUNCSET to DATA) is the next action of the running transmission of its byte is the model's choice
(entry 14). -/
def Obligations.ByteStores : Prop :=
  ∀ (i : Instr) (s : State) (x : Ctx) (rs : Rs) (b : Byte) (y y' : ByteLabel) (p : Nat) (l : Level), s.Runs x →
    x.sendingByte = some (rs, b, y) → x.SendsBy i rs b → byteStore rs b y = some (p, l) → y.next = some y' →
    exec i s = .next ((s.storedPin p l).putCtx { x with upc := x.upc.atByte y' })

/-- A byte transmission's EN holds, each at least 1 µs (R182), in the operation or, by the model's choice, in the row of
the LCD bus that the byte is (entry 14). -/
def Obligations.ByteHolds : Prop :=
  ∀ (i : Instr) (s : State) (x : Ctx) (rs : Rs) (b : Byte) (y y' : ByteLabel), s.Runs x →
    x.sendingByte = some (rs, b, y) → x.SendsBy i rs b →
    y = .high .n5 ∨ y = .high .n7 ∨ y = .low .n5 ∨ y = .low .n7 → y.next = some y' →
    DelayRule i x s 1 fun r => r.putCtx { x with delayFrom := none, upc := x.upc.atByte y' }

/-- The end of a byte transmission: the execution wait, 2000 µs after the command bytes 1, 2 and 3 and 100 µs otherwise,
then the shadow update and the operation's next byte, `Release` or next character (R183, R184, R187, R191 to R195). The
long wait of the home bytes 2 and 3 is general knowledge (R184; PRESUMED, entry 19). The update of IDX belongs to the
action after the byte (R10); how it is noted (entry 9), and that a row of the LCD bus is the action of its byte
(entry 14), is the model's choice. -/
def Obligations.ByteEnds : Prop :=
  ∀ (i : Instr) (s : State) (x : Ctx) (rs : Rs) (b : Byte), s.Runs x →
    x.sendingByte = some (rs, b, .y1) → x.SendsBy i rs b →
    DelayRule i x s (byteWait rs b) fun r => (r.shadowAfter rs b).putCtx { x with delayFrom := none }.byteDone

/-- The actions of the initialization's four single nibbles, in LCDINIT and in the rows INIT3 and INIT2 (R86, R182, R187).
That these rows are the next action of LcdNibble inside LCDINIT is the model's choice (entry 14). -/
def Obligations.InitNibbleActs : Prop :=
  ∀ (i : Instr) (s : State) (x : Ctx) (k : InitNibble) (l : NibbleLabel) (n : Nibble), s.Runs x →
    x.upc = .lcdinit (.nibble k l) → n = (if k = .commit then 0x2#4 else 0x3#4) →
    i = .lcdinit ∨ encode i = .nibble .command n →
    (∀ p lev l', nibbleStore n l = some (p, lev) → l.next = some l' →
      exec i s = .next ((s.storedPin p lev).putCtx { x with upc := .lcdinit (.nibble k l') })) ∧
    (l = .n5 → DelayRule i x s 1 fun r => r.putCtx { x with delayFrom := none, upc := .lcdinit (.nibble k .n6) }) ∧
    (l = .n7 → DelayRule i x s 1 fun r => r.putCtx { x with delayFrom := none, upc := .lcdinit (.wait k) })

/-- The actions of LCDINIT outside its nibbles and bytes: `Acquire`, RS and EN low, the power-up settle, the wait after
each nibble, Ready after the last of them, `Release`, `Return` (R187). -/
def Obligations.LcdinitActs : Prop :=
  ∀ (s : State) (x : Ctx), s.Runs x →
    (∀ c, x.upc = .lcdinit .i0 → s.lock = .held c → exec .lcdinit s = .next s) ∧
    (x.upc = .lcdinit .i0 → s.lock = .free →
      exec .lcdinit s = .next
        (({ s with
            lock := .held s.cur
            lcdState := .fourBitModeNegotiating
            hist := s.hist ++ [.acq s.cur s.now] } : State).putCtx { x with upc := .lcdinit .i1 })) ∧
    (x.upc = .lcdinit .i1 →
      exec .lcdinit s = .next ((s.storedPin 25 .low).putCtx { x with upc := .lcdinit .i2 })) ∧
    (x.upc = .lcdinit .i2 →
      exec .lcdinit s = .next ((s.storedPin 24 .low).putCtx { x with upc := .lcdinit .i3 })) ∧
    (x.upc = .lcdinit .i3 →
      DelayRule .lcdinit x s 15000 fun r =>
        r.putCtx { x with delayFrom := none, upc := .lcdinit (.nibble .first .n0) }) ∧
    (x.upc = .lcdinit (.wait .first) →
      DelayRule .lcdinit x s 4100 fun r =>
        r.putCtx { x with delayFrom := none, upc := .lcdinit (.nibble .second .n0) }) ∧
    (x.upc = .lcdinit (.wait .second) →
      DelayRule .lcdinit x s 100 fun r =>
        r.putCtx { x with delayFrom := none, upc := .lcdinit (.nibble .third .n0) }) ∧
    (x.upc = .lcdinit (.wait .third) →
      DelayRule .lcdinit x s 100 fun r =>
        r.putCtx { x with delayFrom := none, upc := .lcdinit (.nibble .commit .n0) }) ∧
    (x.upc = .lcdinit (.wait .commit) →
      DelayRule .lcdinit x s 100 fun r =>
        ({ r with lcdState := .ready } : State).putCtx { x with delayFrom := none, upc := .lcdinit (.byte .functionSet .y0) }) ∧
    (x.upc = .lcdinit .i8 → s.lock = .held s.cur →
      exec .lcdinit s = .next
        (({ s with lock := .free, hist := s.hist ++ [.rel s.cur s.now] } : State).putCtx { x with upc := .lcdinit .i9 })) ∧
    (x.upc = .lcdinit .i9 → exec .lcdinit s = .next (s.returned x))

/-- The shadow after a byte sent in Ready. The rows for clear, home, the bit of display-on and the two bytes without effect
are the spec's general knowledge, not its source (R199, entry 19). R199's table is followed where R195 corner (ii) says
Unknown, and a direct write's loss ends with it: the model's choices (entries 32 and 33). -/
def Obligations.ShadowFollowsBytes : Prop :=
  ∀ (s : State) (b : Byte),
    (s.lcdState ≠ .ready → ∀ rs, s.shadowUpdate rs b = s) ∧
    (s.lcdState = .ready →
      (0x80 ≤ b.toNat →
        s.shadowUpdate .command b = { s with lcdCursor := some (b.setWidth 7) }) ∧
      (b = 0x01#8 ∨ b = 0x02#8 ∨ b = 0x03#8 → s.shadowUpdate .command b = { s with lcdCursor := some 0#7 }) ∧
      (0x08 ≤ b.toNat → b.toNat ≤ 0x0F →
        s.shadowUpdate .command b = { s with lcdDisplayOn := some (b.getLsbD 2) }) ∧
      (b = 0x28#8 ∨ b = 0x06#8 → s.shadowUpdate .command b = s) ∧
      (b.toNat = 0 ∨ b.toNat = 4 ∨ b.toNat = 5 ∨ b.toNat = 7 ∨
          (0x10 ≤ b.toNat ∧ b.toNat < 0x80 ∧ b.toNat ≠ 0x28) →
        s.shadowUpdate .command b = { s with lcdCursor := none, lcdDisplayOn := none }) ∧
      (∀ a, s.lcdCursor = some a → a.toNat % 0x40 + 1 < s.lcdCols →
        s.shadowUpdate .data b = { s with lcdCursor := some (a + 1#7) }) ∧
      (∀ a, s.lcdCursor = some a → s.lcdCols ≤ a.toNat % 0x40 + 1 →
        s.shadowUpdate .data b = { s with lcdCursor := none }) ∧
      (s.lcdCursor = none → s.shadowUpdate .data b = s))

/-! ### Whole operations, run alone with the least delays -/

/-- After SETMODE the pin's field is `0b001` or `0b000`, the field was `0b000` in between, every other field and the two
bits in no field are as before, and the accesses are those of R58 (R130, R133). -/
def Obligations.SetmodeRun : Prop :=
  ∀ (i : Instr) (p : Byte) (m : Mode) (s : State) (x : Ctx), i = .setmode p m ∨ i = .setpinmode p m →
    s.Starts x → p.toNat ≤ 53 →
    ∃ (t : State) (v0 v1 v2 : Word), solo i (if m = .output then 6 else 4) s = .next t ∧
      v0 = s.fsel.get (p.toNat / 10) ∧
      v1.extractLsb' (3 * (p.toNat % 10)) 3 = 0b000#3 ∧
      (m = .output → v2.extractLsb' (3 * (p.toNat % 10)) 3 = 0b001#3) ∧
      t.hist = s.hist ++
        (if m = .output then
          [.ld s.cur s.now (p.toNat / 10) v0, .st s.cur s.now (p.toNat / 10) v1, .ld s.cur s.now (p.toNat / 10) v1,
            .st s.cur s.now (p.toNat / 10) v2, .ret s.cur s.now none]
        else
          [.ld s.cur s.now (p.toNat / 10) v0, .st s.cur s.now (p.toNat / 10) v1, .ret s.cur s.now none]) ∧
      t.fsel.get (p.toNat / 10) = (if m = .output then v2 else v1) ∧
      t.fsel.func p.toNat = (if m = .output then 0b001#3 else 0b000#3) ∧
      (∀ q, q ≤ 59 → q ≠ p.toNat → t.fsel.func q = s.fsel.func q) ∧
      (∀ w k, w < 6 → k = 30 ∨ k = 31 → (t.fsel.get w).getLsbD k = (s.fsel.get w).getLsbD k) ∧
      t.out = s.out ∧ t.latches = s.latches ∧ t.now = s.now ∧ t.mapState = .mapped ∧ t.lock = s.lock ∧
      t.Answered 0#32

/-- SHUTDOWN drives both LEDs low, in the latch, and releases the block; no other latch bit changes (R122, R283). -/
def Obligations.ShutdownRun : Prop :=
  ∀ (s : State) (x : Ctx), s.Starts x → s.OthersIdle → s.lock = .free →
    ∃ t, solo .shutdown 4 s = .next t ∧ t.mapState = .released ∧ t.ledsLow = true ∧
      (∀ k, k < 32 → k ≠ 26 → k ≠ 5 → t.out.getLsbD k = s.out.getLsbD k) ∧ t.fsel = s.fsel ∧ t.lock = .free ∧
      t.now = s.now ∧
      t.hist = s.hist ++
        [.st s.cur s.now 10 0x04000000#32, .st s.cur s.now 10 0x00000020#32, .ret s.cur s.now none] ∧
      t.Answered 0#32

/-- WAITBTN on a pin that is not in Output mode, for every sequence of draws with a press and a release in it: it polls
through the lows, the high, the highs and stops at the first low, 10 000 µs for each poll that does not end a phase, and
settles for 50 000 µs (R153). In the loaded words the pins in Output mode read back the latch (PRESUMED, entry 18). -/
def Obligations.WaitbtnRun : Prop :=
  ∀ (p : Byte) (s : State) (x : Ctx) (lows highs rest : List Word) (hi lo : Word), s.Starts x → p.toNat ≤ 31 →
    s.fsel.func p.toNat ≠ 0b001#3 → s.draws = lows ++ hi :: (highs ++ lo :: rest) →
    (∀ d ∈ lows, d.getLsbD p.toNat = false) → hi.getLsbD p.toNat = true →
    (∀ d ∈ highs, d.getLsbD p.toNat = true) → lo.getLsbD p.toNat = false →
    ∃ (t : State) (t1 t2 : Nat), solo (.waitbtn p) (3 * (lows.length + highs.length) + 6) s = .next t ∧
      t1 = s.now + 10000 * lows.length ∧ t2 = t1 + 10000 * highs.length ∧ t.now = t2 + 50000 ∧ t.draws = rest ∧
      t.hist = s.hist ++ pollEvents s.cur s.fsel s.out s.now lows ++
        [.ld s.cur t1 13 (levelWord s.fsel s.out hi)] ++ pollEvents s.cur s.fsel s.out t1 highs ++
        [.ld s.cur t2 13 (levelWord s.fsel s.out lo), .dly s.cur 50000 t2 (t2 + 50000),
          .ret s.cur (t2 + 50000) none] ∧
      t.out = s.out ∧ t.fsel = s.fsel ∧ t.latches = s.latches ∧ t.lock = s.lock ∧ t.Answered 0#32

/-- BLINK drives its pin high and low `times` times with 200 000 µs after each store, and leaves it low if `times` is not
zero; no other latch bit changes (R170). -/
def Obligations.BlinkRun : Prop :=
  ∀ (p : Byte) (n : BitVec 16) (s : State) (x : Ctx), s.Starts x → p.toNat ≤ 31 →
    ∃ t, solo (.blink p n) (6 * n.toNat + 2) s = .next t ∧ t.now = s.now + 400000 * n.toNat ∧
      t.hist = s.hist ++ blinkEvents s.cur p.toNat s.now n.toNat ++
        [.ret s.cur (s.now + 400000 * n.toNat) none] ∧
      (∀ k, k < 32 → t.out.getLsbD k = if k = p.toNat ∧ n ≠ 0#16 then false else s.out.getLsbD k) ∧
      t.fsel = s.fsel ∧ t.lock = s.lock ∧ t.mapState = .mapped ∧ t.Answered 0#32

/-- The cold-start sequence of LCDINIT: 114 actions, 21 724 µs, the twelve latch events where EN starts low and the six pins
are driven, Ready at the end, the shadow at address 0 with the display on (R187; the numbers of the configuration bytes and
the shadow rows are the spec's general knowledge, entry 19). -/
def Obligations.LcdinitRun : Prop :=
  ∀ (s : State) (x : Ctx), s.Starts x → s.lock = .free →
    ∃ t, solo .lcdinit 148 s = .next t ∧ t.now = s.now + 21724 ∧ t.hist = s.hist ++ initEvents s.cur s.now ∧
      (s.LcdDriven → s.out.getLsbD 24 = false → t.latches = s.latches ++ initLatches) ∧
      (∀ k, k < 32 → t.out.getLsbD k = if k = 23 then true else if k ∈ lcdPins then false else s.out.getLsbD k) ∧
      t.lcdState = .ready ∧ t.lock = .free ∧ t.lcdCursor = some 0#7 ∧ t.lcdDisplayOn = some true ∧
      t.fsel = s.fsel ∧ t.Answered 0#32

/-- LCDBYTE sends exactly two nibbles, high then low, RS held for the whole byte, one EN pulse of at least 1 µs each, then
the execution wait, all between one `Acquire` and one `Release` (R183, R184, R190, R195, R196). The 2000 µs after the
home bytes 2 and 3 are general knowledge (R184, G2; PRESUMED, entry 19). -/
def Obligations.LcdbyteRun : Prop :=
  ∀ (rs : Rs) (b : Byte) (s : State) (x : Ctx), s.Starts x → s.lock = .free → s.lcdState = .ready →
    ∃ (t : State) (t1 : Nat), solo (.lcdbyte rs b) 27 s = .next t ∧ t1 = s.now + 4 + byteWait rs b ∧ t.now = t1 ∧
      t.hist = s.hist ++ [.acq s.cur s.now] ++ byteEvents s.cur s.now rs b ++
        [.rel s.cur t1, .ret s.cur t1 none] ∧
      (s.LcdDriven → t.latches = s.latches ++ byteLatches rs b) ∧ t.out = outAfterByte s.out rs b ∧
      t.lock = .free ∧ t.lcdState = .ready ∧ t.fsel = s.fsel ∧ t.Answered 0#32

/-- LCDCLEAR sends the command byte 0x01 and waits 2000 µs inside the lock; LCDCURSOR sends `0x80 | c` for row 0 and
`0x80 | (0x40 + c)` for row 1 (R87, R191, R192). -/
def Obligations.LcdCommandRuns : Prop :=
  ∀ (i : Instr) (b : Byte) (s : State) (x : Ctx), s.Starts x → s.lock = .free → s.lcdState = .ready →
    (i = .lcdclear ∧ b = 0x01#8 ∨
      (∃ c : Byte, i = .lcdcursor 0#8 c ∧ c.toNat < s.lcdCols ∧ s.lcdCols ≤ 64 ∧ b.toNat = 0x80 + c.toNat) ∨
      (∃ c : Byte, i = .lcdcursor 1#8 c ∧ c.toNat < s.lcdCols ∧ s.lcdCols ≤ 64 ∧ b.toNat = 0xC0 + c.toNat)) →
    ∃ (t : State) (t1 : Nat), solo i 27 s = .next t ∧ t1 = s.now + 4 + byteWait .command b ∧ t.now = t1 ∧
      t.hist = s.hist ++ [.acq s.cur s.now] ++ byteEvents s.cur s.now .command b ++
        [.rel s.cur t1, .ret s.cur t1 none] ∧
      (s.LcdDriven → t.latches = s.latches ++ byteLatches .command b) ∧ t.out = outAfterByte s.out .command b ∧
      t.lock = .free ∧ t.lcdState = .ready ∧ t.fsel = s.fsel ∧ t.Answered 0#32

/-- LCDSTR sends every character as a data byte in sequence, 104 µs each, inside one lock; with no character it makes no
store (R193). -/
def Obligations.LcdstrRun : Prop :=
  ∀ (text : List Byte) (s : State) (x : Ctx), s.Starts x → s.lock = .free → s.lcdState = .ready →
    text.length ≤ 65535 →
    ∃ (t : State) (t1 : Nat), solo (.lcdstr text) (4 + 23 * text.length) s = .next t ∧
      t1 = s.now + 104 * text.length ∧ t.now = t1 ∧
      t.hist = s.hist ++ [.acq s.cur s.now] ++ textEvents s.cur s.now text ++
        [.rel s.cur t1, .ret s.cur t1 none] ∧
      (s.LcdDriven → t.latches = s.latches ++ text.flatMap (byteLatches .data)) ∧
      t.out = outAfterText s.out text ∧ t.lock = .free ∧ t.lcdState = .ready ∧ t.fsel = s.fsel ∧ t.Answered 0#32

/-- LCDLINE sends the cursor command of column 0 of its line and then the text, all inside one lock (R190, R194). -/
def Obligations.LcdlineRun : Prop :=
  ∀ (line : Byte) (text : List Byte) (s : State) (x : Ctx) (b : Byte), s.Starts x → s.lock = .free →
    s.lcdState = .ready → text.length ≤ 65535 → line = 0#8 ∧ b = 0x80#8 ∨ line = 1#8 ∧ b = 0xC0#8 →
    ∃ (t : State) (t1 : Nat), solo (.lcdline line text) (4 + 23 * (text.length + 1)) s = .next t ∧
      t1 = s.now + 104 * (text.length + 1) ∧ t.now = t1 ∧
      t.hist = s.hist ++ [.acq s.cur s.now] ++ byteEvents s.cur s.now .command b ++
        textEvents s.cur (s.now + 104) text ++ [.rel s.cur t1, .ret s.cur t1 none] ∧
      (s.LcdDriven → t.latches = s.latches ++ byteLatches .command b ++ text.flatMap (byteLatches .data)) ∧
      t.out = outAfterText (outAfterByte s.out .command b) text ∧ t.lock = .free ∧ t.lcdState = .ready ∧
      t.fsel = s.fsel ∧ t.Answered 0#32

/-! ### What contexts do to each other -/

/-- Two WRITEs to different pins by two contexts commute: the same latch word and the same contexts in either order, each
pin at its own written level (R63 a). -/
def Obligations.WritesToDifferentPinsCommute : Prop :=
  ∀ (s : State) (c1 c2 : Nat) (x1 x2 : Ctx) (l1 l2 : Level), c1 ≠ c2 → s.ctxs[c1]? = some x1 →
    s.ctxs[c2]? = some x2 → x1.status = .running → x2.status = .running → x1.upc = .write .a0 →
    x2.upc = .write .a0 → x1.b = l1.toByte → x2.b = l2.toByte → x1.pin ≤ 31 → x2.pin ≤ 31 → x1.pin ≠ x2.pin →
    ∃ s1 s12 s2 s21 : State,
      exec (.write x1.a l1) { s with cur := c1 } = .next s1 ∧ exec (.write x2.a l2) { s1 with cur := c2 } = .next s12 ∧
      exec (.write x2.a l2) { s with cur := c2 } = .next s2 ∧ exec (.write x1.a l1) { s2 with cur := c1 } = .next s21 ∧
      s12.out = s21.out ∧ s12.ctxs = s21.ctxs ∧ s12.fsel = s21.fsel ∧
      (∀ k, k < 32 → s12.out.getLsbD k =
        if k = x1.pin then l1.toBool else if k = x2.pin then l2.toBool else s.out.getLsbD k)

/-- Two SETMODEs on different pins of one function-select word that have both loaded it before either stores its Output
pattern: the first one's update is lost (R63 d, conflict C1). -/
def Obligations.SetmodesOfOneWordLoseAnUpdate : Prop :=
  ∀ (s : State) (c1 c2 : Nat) (x1 x2 : Ctx), c1 ≠ c2 → s.ctxs[c1]? = some x1 → s.ctxs[c2]? = some x2 →
    x1.status = .running → x2.status = .running → x1.upc = .setmode .a3 → x2.upc = .setmode .a3 →
    x1.pin ≤ 53 → x2.pin ≤ 53 → x1.pin ≠ x2.pin → x1.pin / 10 = x2.pin / 10 →
    x1.tmp = s.fsel.get (x1.pin / 10) → x2.tmp = s.fsel.get (x2.pin / 10) →
    ∃ s1 s12 : State,
      exec (.setmode x1.a .output) { s with cur := c1 } = .next s1 ∧
      exec (.setmode x2.a .output) { s1 with cur := c2 } = .next s12 ∧
      s1.fsel.func x1.pin = s.fsel.func x1.pin ||| 0b001#3 ∧
      s12.fsel.func x1.pin = s.fsel.func x1.pin ∧
      s12.fsel.func x2.pin = s.fsel.func x2.pin ||| 0b001#3

/-- LCD operations exclude each other across every step: no two contexts are between `Acquire` and `Release` after it, no
context comes in while another is inside, and whatever another context's turn does, a context inside keeps the lock and
its place (R68, R190). -/
def Obligations.LcdOperationsExcludeEachOther : Prop :=
  ∀ s t : State, s.LockOk → step s = .next t →
    (∀ (c1 c2 : Nat) (x1 x2 : Ctx), t.ctxs[c1]? = some x1 → t.ctxs[c2]? = some x2 → x1.status = .running →
      x2.status = .running → x1.upc.critical = true → x2.upc.critical = true → c1 = c2) ∧
    (∀ (c1 c2 : Nat) (x1 x2 : Ctx), s.ctxs[c1]? = some x1 → t.ctxs[c2]? = some x2 → x1.status = .running →
      x2.status = .running → x1.upc.critical = true → x2.upc.critical = true → c1 = c2) ∧
    (∀ (c : Nat) (x : Ctx), s.ctxs[c]? = some x → x.status = .running → x.upc.critical = true → t.cur ≠ c →
      t.lock = .held c ∧ t.ctxs[c]? = some x)

/-! ### What every step keeps -/

/-- What runs, runs in a Mapped block, or is MAPOPEN in one that is not Released; every step keeps it (R30, R227). -/
def Obligations.MappingIsKept : Prop :=
  ∀ s t : State, s.MappingOk → step s = .next t → t.MappingOk

/-- The lock is held by exactly the context that is between `Acquire` and `Release`, or was refused there; every step keeps
it (R181, R190, R242). -/
def Obligations.LockIsKept : Prop :=
  ∀ s t : State, s.LockOk → step s = .next t → t.LockOk

/-- Every delay in progress and every delay recorded lasts at least as long as its action says; every step keeps it
(R270, R290). -/
def Obligations.DelaysAreKept : Prop :=
  ∀ s t : State, s.DelaysOk → step s = .next t → t.DelaysOk

/-- The operands of every Running context stay inside the ranges of R228, at a label of its operation (R24, R228). -/
def Obligations.PlacementIsKept : Prop :=
  ∀ s t : State, s.PlacedOk → step s = .next t → t.PlacedOk

/-- Every access in the history is one of R58: in particular every store to SET or CLR has exactly one bit set
(R53, R54, R58). -/
def Obligations.AccessesAreKept : Prop :=
  ∀ s t : State, s.AccessesOk → step s = .next t → t.AccessesOk

/-- A context's response word is one of the four the block produces, and only an Idle context has one (R91, V18). It stands
while the context is handed nothing: a turn of the clock or of another context, or one that finds no whole request,
leaves the context and its response as they are (that it stands until the next hand-over is the model's choice,
entry 11). -/
def Obligations.ResponsesAreKept : Prop :=
  ∀ s t : State, s.ResponsesOk → step s = .next t →
    t.ResponsesOk ∧
    ∀ (tn : Turn) (s1 : State) (c : Nat) (x : Ctx) (w : Word), s.TakesTurn tn s1 → s.ctxs[c]? = some x →
      x.response = some w → tn ≠ .context c ∨ decodeRequest x.todo = .error .incomplete → t.ctxs[c]? = some x

/-- WAITBTN returns only after a high sample, a later low sample that is its last load, and at least 50 000 µs after that,
for every interleaving and every draw: what the history holds at each of its labels is kept by every step, and at the
action that returns it is all of that (R154). -/
def Obligations.DebounceHolds : Prop :=
  (∀ s t : State, s.DebounceOk → step s = .next t → t.DebounceOk) ∧
  (∀ (s t : State) (x : Ctx), s.DebounceOk → s.Runs x → x.operation = some (.waitbtn x.a) →
    exec (.waitbtn x.a) s = .next t → t.hist = s.hist ++ [.ret s.cur s.now none] →
    SeenSettled s.cur x.pin (opEvents s.cur s.hist))

/-- From every state that meets the invariant, the step answers a next state that meets it: no model fault and no model
refusal is ever reached (entry 20). -/
def Obligations.InvariantStepsOn : Prop :=
  ∀ s : State, s.Inv → ∃ t, step s = .next t ∧ t.Inv

/-- `map_state` goes from Unmapped to Mapped or Failed and from Mapped to Released, and Released and Failed are final; at
most one error is ever recorded, the one that made the block Failed (R30, R225; that a second MAPOPEN is refused at its
action is deduced, entry 12). -/
def Obligations.ReleasedAndFailedAreFinal : Prop :=
  (∀ s t : State, s.MappingOk → step s = .next t → t.mapState ≠ s.mapState →
    (s.mapState = .unmapped ∧ (t.mapState = .mapped ∨ ∃ e, t.mapState = .failed e)) ∨
      (s.mapState = .mapped ∧ t.mapState = .released)) ∧
  (∀ s t : State, s.ErrorsOk → step s = .next t → t.ErrorsOk)

/-- A Refused context never steps again: it stays as it is, and the history gets no event of its (R23, R226). -/
def Obligations.RefusedForGood : Prop :=
  ∀ (s t : State) (c : Nat) (x : Ctx) (r : RefuseReason), step s = .next t → s.ctxs[c]? = some x →
    x.status = .refused r →
    t.ctxs[c]? = some x ∧ ∀ es, t.hist = s.hist ++ es → ∀ e ∈ es, e.ctx ≠ c

/-- One step adds at most one event, at the present time and by the context whose turn it is, and at most one latch event;
it leaves the other contexts and the launch parameters alone; when time passes nothing else does (R10, R14, R21, R34). -/
def Obligations.StepFrame : Prop :=
  ∀ s t : State, step s = .next t →
    s.now ≤ t.now ∧
    (∃ es, t.hist = s.hist ++ es ∧ es.length ≤ 1 ∧ ∀ e ∈ es, e.ctx = t.cur ∧ e.time = s.now) ∧
    (∃ ls, t.latches = s.latches ++ ls ∧ ls.length ≤ 1) ∧
    t.ctxs.length = s.ctxs.length ∧ t.lcdCols = s.lcdCols ∧ t.openOutcome = s.openOutcome ∧
    (∀ c, c ≠ t.cur → t.ctxs[c]? = s.ctxs[c]?) ∧
    (t.now ≠ s.now →
      t = { s with now := t.now, agenda := t.agenda, turns := t.turns })

/-- What the action of a Running context leaves unchanged: FSEL but for SETMODE, and there every other word; OUT but for
one bit of a pin its operation drives; `map_state` but for MAPOPEN, MAPCLOSE and SHUTDOWN; `lcd_state` but for LCDINIT; the lock but for taking it when Free and giving its own back; the draws but for READ and WAITBTN; the shadow but
at the end of a byte and for a direct write to a display pin; its operands, its text, the requester's words, the other
contexts, the clock; and unless the context is held, CNT and IDX but for the computation before the action (R10, R21,
R26, R28, R30 to R33, R58). -/
def Obligations.ActionFrame : Prop :=
  ∀ (i : Instr) (s t : State) (x : Ctx), s.Runs x → x.Placed s.lcdCols → exec i s = .next t →
    (t.fsel ≠ s.fsel →
      (x.upc = .setmode .a1 ∨ x.upc = .setmode .a3) ∧
      ∀ w, w < 6 → w ≠ x.pin / 10 → t.fsel.get w = s.fsel.get w) ∧
    (t.out ≠ s.out → ∃ p l, p ∈ x.drives ∧ t.out = outAfter s.out p l) ∧
    (t.mapState ≠ s.mapState → x.upc = .mapopen ∨ x.upc = .mapclose ∨ x.upc = .shutdown .a2) ∧
    (t.lcdState ≠ s.lcdState → x.upc = .lcdinit .i0 ∨ x.upc = .lcdinit (.wait .commit)) ∧
    (t.lock ≠ s.lock →
      (s.lock = .free ∧ t.lock = .held s.cur) ∨ (s.lock = .held s.cur ∧ t.lock = .free)) ∧
    (t.draws ≠ s.draws ∨ t.drawn ≠ s.drawn →
      x.upc = .read .a0 ∨ x.upc = .waitbtn .p0 ∨ x.upc = .waitbtn .r0) ∧
    (t.lcdCursor ≠ s.lcdCursor ∨ t.lcdDisplayOn ≠ s.lcdDisplayOn →
      (∃ rs b, x.sendingByte = some (rs, b, .y1)) ∨
        (x.pin ∈ lcdPins ∧ (x.upc = .write .a0 ∨ x.upc = .blink .b0 ∨ x.upc = .blink .b2))) ∧
    (∃ y, t.me = some y ∧ y.a = x.a ∧ y.b = x.b ∧ y.c = x.c ∧ y.text = x.text ∧ y.todo = x.todo ∧
      (t = s ∨ (y.cnt = x.cnt ∧ y.idx = x.idx))) ∧
    (∀ c, c ≠ s.cur → t.ctxs[c]? = s.ctxs[c]?) ∧
    t.now = s.now ∧ t.cur = s.cur ∧ t.agenda = s.agenda ∧ t.turns = s.turns ∧ t.lcdCols = s.lcdCols ∧
    t.openOutcome = s.openOutcome
end

