-- ==== Sys2Proof/Laws/State.lean ====
section
/-! SUPPORT. What each update of the state leaves in each field: one lemma per field per update, so that no proof unfolds
a record update. -/

namespace Sys2Proof.Machine

/-! ### State.putCtx -/

@[simp] theorem State.putCtx_ctxs (s : State) (x : Ctx) : (s.putCtx x).ctxs = s.ctxs.set s.cur x := rfl
@[simp] theorem State.putCtx_fsel (s : State) (x : Ctx) : (s.putCtx x).fsel = s.fsel := rfl
@[simp] theorem State.putCtx_out (s : State) (x : Ctx) : (s.putCtx x).out = s.out := rfl
@[simp] theorem State.putCtx_mapState (s : State) (x : Ctx) : (s.putCtx x).mapState = s.mapState := rfl
@[simp] theorem State.putCtx_lcdState (s : State) (x : Ctx) : (s.putCtx x).lcdState = s.lcdState := rfl
@[simp] theorem State.putCtx_lock (s : State) (x : Ctx) : (s.putCtx x).lock = s.lock := rfl
@[simp] theorem State.putCtx_lcdCursor (s : State) (x : Ctx) : (s.putCtx x).lcdCursor = s.lcdCursor := rfl
@[simp] theorem State.putCtx_lcdDisplayOn (s : State) (x : Ctx) : (s.putCtx x).lcdDisplayOn = s.lcdDisplayOn := rfl
@[simp] theorem State.putCtx_now (s : State) (x : Ctx) : (s.putCtx x).now = s.now := rfl
@[simp] theorem State.putCtx_hist (s : State) (x : Ctx) : (s.putCtx x).hist = s.hist := rfl
@[simp] theorem State.putCtx_latches (s : State) (x : Ctx) : (s.putCtx x).latches = s.latches := rfl
@[simp] theorem State.putCtx_lcdCols (s : State) (x : Ctx) : (s.putCtx x).lcdCols = s.lcdCols := rfl
@[simp] theorem State.putCtx_openOutcome (s : State) (x : Ctx) : (s.putCtx x).openOutcome = s.openOutcome := rfl
@[simp] theorem State.putCtx_draws (s : State) (x : Ctx) : (s.putCtx x).draws = s.draws := rfl
@[simp] theorem State.putCtx_drawn (s : State) (x : Ctx) : (s.putCtx x).drawn = s.drawn := rfl
@[simp] theorem State.putCtx_agenda (s : State) (x : Ctx) : (s.putCtx x).agenda = s.agenda := rfl
@[simp] theorem State.putCtx_turns (s : State) (x : Ctx) : (s.putCtx x).turns = s.turns := rfl
@[simp] theorem State.putCtx_cur (s : State) (x : Ctx) : (s.putCtx x).cur = s.cur := rfl

/-! ### State.record -/

@[simp] theorem State.record_ctxs (s : State) (e : Event) : (s.record e).ctxs = s.ctxs := rfl
@[simp] theorem State.record_fsel (s : State) (e : Event) : (s.record e).fsel = s.fsel := rfl
@[simp] theorem State.record_out (s : State) (e : Event) : (s.record e).out = s.out := rfl
@[simp] theorem State.record_mapState (s : State) (e : Event) : (s.record e).mapState = s.mapState := rfl
@[simp] theorem State.record_lcdState (s : State) (e : Event) : (s.record e).lcdState = s.lcdState := rfl
@[simp] theorem State.record_lock (s : State) (e : Event) : (s.record e).lock = s.lock := rfl
@[simp] theorem State.record_lcdCursor (s : State) (e : Event) : (s.record e).lcdCursor = s.lcdCursor := rfl
@[simp] theorem State.record_lcdDisplayOn (s : State) (e : Event) : (s.record e).lcdDisplayOn = s.lcdDisplayOn := rfl
@[simp] theorem State.record_now (s : State) (e : Event) : (s.record e).now = s.now := rfl
@[simp] theorem State.record_hist (s : State) (e : Event) : (s.record e).hist = s.hist ++ [e] := rfl
@[simp] theorem State.record_latches (s : State) (e : Event) : (s.record e).latches = s.latches := rfl
@[simp] theorem State.record_lcdCols (s : State) (e : Event) : (s.record e).lcdCols = s.lcdCols := rfl
@[simp] theorem State.record_openOutcome (s : State) (e : Event) : (s.record e).openOutcome = s.openOutcome := rfl
@[simp] theorem State.record_draws (s : State) (e : Event) : (s.record e).draws = s.draws := rfl
@[simp] theorem State.record_drawn (s : State) (e : Event) : (s.record e).drawn = s.drawn := rfl
@[simp] theorem State.record_agenda (s : State) (e : Event) : (s.record e).agenda = s.agenda := rfl
@[simp] theorem State.record_turns (s : State) (e : Event) : (s.record e).turns = s.turns := rfl
@[simp] theorem State.record_cur (s : State) (e : Event) : (s.record e).cur = s.cur := rfl

/-! ### State.tick -/

@[simp] theorem State.tick_ctxs (s : State) (n : Nat) : (s.tick n).ctxs = s.ctxs := rfl
@[simp] theorem State.tick_fsel (s : State) (n : Nat) : (s.tick n).fsel = s.fsel := rfl
@[simp] theorem State.tick_out (s : State) (n : Nat) : (s.tick n).out = s.out := rfl
@[simp] theorem State.tick_mapState (s : State) (n : Nat) : (s.tick n).mapState = s.mapState := rfl
@[simp] theorem State.tick_lcdState (s : State) (n : Nat) : (s.tick n).lcdState = s.lcdState := rfl
@[simp] theorem State.tick_lock (s : State) (n : Nat) : (s.tick n).lock = s.lock := rfl
@[simp] theorem State.tick_lcdCursor (s : State) (n : Nat) : (s.tick n).lcdCursor = s.lcdCursor := rfl
@[simp] theorem State.tick_lcdDisplayOn (s : State) (n : Nat) : (s.tick n).lcdDisplayOn = s.lcdDisplayOn := rfl
@[simp] theorem State.tick_now (s : State) (n : Nat) : (s.tick n).now = s.now + (n + 1) := rfl
@[simp] theorem State.tick_hist (s : State) (n : Nat) : (s.tick n).hist = s.hist := rfl
@[simp] theorem State.tick_latches (s : State) (n : Nat) : (s.tick n).latches = s.latches := rfl
@[simp] theorem State.tick_lcdCols (s : State) (n : Nat) : (s.tick n).lcdCols = s.lcdCols := rfl
@[simp] theorem State.tick_openOutcome (s : State) (n : Nat) : (s.tick n).openOutcome = s.openOutcome := rfl
@[simp] theorem State.tick_draws (s : State) (n : Nat) : (s.tick n).draws = s.draws := rfl
@[simp] theorem State.tick_drawn (s : State) (n : Nat) : (s.tick n).drawn = s.drawn := rfl
@[simp] theorem State.tick_agenda (s : State) (n : Nat) : (s.tick n).agenda = s.agenda := rfl
@[simp] theorem State.tick_turns (s : State) (n : Nat) : (s.tick n).turns = s.turns := rfl
@[simp] theorem State.tick_cur (s : State) (n : Nat) : (s.tick n).cur = s.cur := rfl

/-! ### State.driveOut -/

@[simp] theorem State.driveOut_ctxs (s : State) (v : Word) : (s.driveOut v).ctxs = s.ctxs := rfl
@[simp] theorem State.driveOut_fsel (s : State) (v : Word) : (s.driveOut v).fsel = s.fsel := rfl
@[simp] theorem State.driveOut_out (s : State) (v : Word) : (s.driveOut v).out = v := rfl
@[simp] theorem State.driveOut_mapState (s : State) (v : Word) : (s.driveOut v).mapState = s.mapState := rfl
@[simp] theorem State.driveOut_lcdState (s : State) (v : Word) : (s.driveOut v).lcdState = s.lcdState := rfl
@[simp] theorem State.driveOut_lock (s : State) (v : Word) : (s.driveOut v).lock = s.lock := rfl
@[simp] theorem State.driveOut_lcdCursor (s : State) (v : Word) : (s.driveOut v).lcdCursor = s.lcdCursor := rfl
@[simp] theorem State.driveOut_lcdDisplayOn (s : State) (v : Word) : (s.driveOut v).lcdDisplayOn = s.lcdDisplayOn := rfl
@[simp] theorem State.driveOut_now (s : State) (v : Word) : (s.driveOut v).now = s.now := rfl
@[simp] theorem State.driveOut_hist (s : State) (v : Word) : (s.driveOut v).hist = s.hist := rfl
@[simp] theorem State.driveOut_latches (s : State) (v : Word) : (s.driveOut v).latches = s.latches ++ latchEvents s.fsel s.out v := rfl
@[simp] theorem State.driveOut_lcdCols (s : State) (v : Word) : (s.driveOut v).lcdCols = s.lcdCols := rfl
@[simp] theorem State.driveOut_openOutcome (s : State) (v : Word) : (s.driveOut v).openOutcome = s.openOutcome := rfl
@[simp] theorem State.driveOut_draws (s : State) (v : Word) : (s.driveOut v).draws = s.draws := rfl
@[simp] theorem State.driveOut_drawn (s : State) (v : Word) : (s.driveOut v).drawn = s.drawn := rfl
@[simp] theorem State.driveOut_agenda (s : State) (v : Word) : (s.driveOut v).agenda = s.agenda := rfl
@[simp] theorem State.driveOut_turns (s : State) (v : Word) : (s.driveOut v).turns = s.turns := rfl
@[simp] theorem State.driveOut_cur (s : State) (v : Word) : (s.driveOut v).cur = s.cur := rfl

/-! ### State.disturbLcd -/

@[simp] theorem State.disturbLcd_ctxs (s : State) (p : Nat) : (s.disturbLcd p).ctxs = s.ctxs := rfl
@[simp] theorem State.disturbLcd_fsel (s : State) (p : Nat) : (s.disturbLcd p).fsel = s.fsel := rfl
@[simp] theorem State.disturbLcd_out (s : State) (p : Nat) : (s.disturbLcd p).out = s.out := rfl
@[simp] theorem State.disturbLcd_mapState (s : State) (p : Nat) : (s.disturbLcd p).mapState = s.mapState := rfl
@[simp] theorem State.disturbLcd_lcdState (s : State) (p : Nat) : (s.disturbLcd p).lcdState = s.lcdState := rfl
@[simp] theorem State.disturbLcd_lock (s : State) (p : Nat) : (s.disturbLcd p).lock = s.lock := rfl
@[simp] theorem State.disturbLcd_lcdCursor (s : State) (p : Nat) : (s.disturbLcd p).lcdCursor = if isLcdPin p then none else s.lcdCursor := rfl
@[simp] theorem State.disturbLcd_lcdDisplayOn (s : State) (p : Nat) : (s.disturbLcd p).lcdDisplayOn = if isLcdPin p then none else s.lcdDisplayOn := rfl
@[simp] theorem State.disturbLcd_now (s : State) (p : Nat) : (s.disturbLcd p).now = s.now := rfl
@[simp] theorem State.disturbLcd_hist (s : State) (p : Nat) : (s.disturbLcd p).hist = s.hist := rfl
@[simp] theorem State.disturbLcd_latches (s : State) (p : Nat) : (s.disturbLcd p).latches = s.latches := rfl
@[simp] theorem State.disturbLcd_lcdCols (s : State) (p : Nat) : (s.disturbLcd p).lcdCols = s.lcdCols := rfl
@[simp] theorem State.disturbLcd_openOutcome (s : State) (p : Nat) : (s.disturbLcd p).openOutcome = s.openOutcome := rfl
@[simp] theorem State.disturbLcd_draws (s : State) (p : Nat) : (s.disturbLcd p).draws = s.draws := rfl
@[simp] theorem State.disturbLcd_drawn (s : State) (p : Nat) : (s.disturbLcd p).drawn = s.drawn := rfl
@[simp] theorem State.disturbLcd_agenda (s : State) (p : Nat) : (s.disturbLcd p).agenda = s.agenda := rfl
@[simp] theorem State.disturbLcd_turns (s : State) (p : Nat) : (s.disturbLcd p).turns = s.turns := rfl
@[simp] theorem State.disturbLcd_cur (s : State) (p : Nat) : (s.disturbLcd p).cur = s.cur := rfl

/-! ### State.shadowUpdate -/

@[simp] theorem State.shadowUpdate_ctxs (s : State) (rs : Rs) (b : Byte) : (s.shadowUpdate rs b).ctxs = s.ctxs := by
  unfold State.shadowUpdate; split <;> simp_all
@[simp] theorem State.shadowUpdate_fsel (s : State) (rs : Rs) (b : Byte) : (s.shadowUpdate rs b).fsel = s.fsel := by
  unfold State.shadowUpdate; split <;> simp_all
@[simp] theorem State.shadowUpdate_out (s : State) (rs : Rs) (b : Byte) : (s.shadowUpdate rs b).out = s.out := by
  unfold State.shadowUpdate; split <;> simp_all
@[simp] theorem State.shadowUpdate_mapState (s : State) (rs : Rs) (b : Byte) : (s.shadowUpdate rs b).mapState = s.mapState := by
  unfold State.shadowUpdate; split <;> simp_all
@[simp] theorem State.shadowUpdate_lcdState (s : State) (rs : Rs) (b : Byte) : (s.shadowUpdate rs b).lcdState = s.lcdState := by
  unfold State.shadowUpdate; split <;> simp_all
@[simp] theorem State.shadowUpdate_lock (s : State) (rs : Rs) (b : Byte) : (s.shadowUpdate rs b).lock = s.lock := by
  unfold State.shadowUpdate; split <;> simp_all
@[simp] theorem State.shadowUpdate_lcdCursor (s : State) (rs : Rs) (b : Byte) : (s.shadowUpdate rs b).lcdCursor = if s.lcdState = .ready then cursorAfter s.lcdCols rs b s.lcdCursor else s.lcdCursor := by
  unfold State.shadowUpdate; split <;> simp_all
@[simp] theorem State.shadowUpdate_lcdDisplayOn (s : State) (rs : Rs) (b : Byte) : (s.shadowUpdate rs b).lcdDisplayOn = if s.lcdState = .ready then displayOnAfter rs b s.lcdDisplayOn else s.lcdDisplayOn := by
  unfold State.shadowUpdate; split <;> simp_all
@[simp] theorem State.shadowUpdate_now (s : State) (rs : Rs) (b : Byte) : (s.shadowUpdate rs b).now = s.now := by
  unfold State.shadowUpdate; split <;> simp_all
@[simp] theorem State.shadowUpdate_hist (s : State) (rs : Rs) (b : Byte) : (s.shadowUpdate rs b).hist = s.hist := by
  unfold State.shadowUpdate; split <;> simp_all
@[simp] theorem State.shadowUpdate_latches (s : State) (rs : Rs) (b : Byte) : (s.shadowUpdate rs b).latches = s.latches := by
  unfold State.shadowUpdate; split <;> simp_all
@[simp] theorem State.shadowUpdate_lcdCols (s : State) (rs : Rs) (b : Byte) : (s.shadowUpdate rs b).lcdCols = s.lcdCols := by
  unfold State.shadowUpdate; split <;> simp_all
@[simp] theorem State.shadowUpdate_openOutcome (s : State) (rs : Rs) (b : Byte) : (s.shadowUpdate rs b).openOutcome = s.openOutcome := by
  unfold State.shadowUpdate; split <;> simp_all
@[simp] theorem State.shadowUpdate_draws (s : State) (rs : Rs) (b : Byte) : (s.shadowUpdate rs b).draws = s.draws := by
  unfold State.shadowUpdate; split <;> simp_all
@[simp] theorem State.shadowUpdate_drawn (s : State) (rs : Rs) (b : Byte) : (s.shadowUpdate rs b).drawn = s.drawn := by
  unfold State.shadowUpdate; split <;> simp_all
@[simp] theorem State.shadowUpdate_agenda (s : State) (rs : Rs) (b : Byte) : (s.shadowUpdate rs b).agenda = s.agenda := by
  unfold State.shadowUpdate; split <;> simp_all
@[simp] theorem State.shadowUpdate_turns (s : State) (rs : Rs) (b : Byte) : (s.shadowUpdate rs b).turns = s.turns := by
  unfold State.shadowUpdate; split <;> simp_all
@[simp] theorem State.shadowUpdate_cur (s : State) (rs : Rs) (b : Byte) : (s.shadowUpdate rs b).cur = s.cur := by
  unfold State.shadowUpdate; split <;> simp_all

/-! ### State.takeDraw -/

@[simp] theorem State.takeDraw_ctxs (s : State) : (s.takeDraw.2).ctxs = s.ctxs := by
  unfold State.takeDraw; split <;> simp_all
@[simp] theorem State.takeDraw_fsel (s : State) : (s.takeDraw.2).fsel = s.fsel := by
  unfold State.takeDraw; split <;> simp_all
@[simp] theorem State.takeDraw_out (s : State) : (s.takeDraw.2).out = s.out := by
  unfold State.takeDraw; split <;> simp_all
@[simp] theorem State.takeDraw_mapState (s : State) : (s.takeDraw.2).mapState = s.mapState := by
  unfold State.takeDraw; split <;> simp_all
@[simp] theorem State.takeDraw_lcdState (s : State) : (s.takeDraw.2).lcdState = s.lcdState := by
  unfold State.takeDraw; split <;> simp_all
@[simp] theorem State.takeDraw_lock (s : State) : (s.takeDraw.2).lock = s.lock := by
  unfold State.takeDraw; split <;> simp_all
@[simp] theorem State.takeDraw_lcdCursor (s : State) : (s.takeDraw.2).lcdCursor = s.lcdCursor := by
  unfold State.takeDraw; split <;> simp_all
@[simp] theorem State.takeDraw_lcdDisplayOn (s : State) : (s.takeDraw.2).lcdDisplayOn = s.lcdDisplayOn := by
  unfold State.takeDraw; split <;> simp_all
@[simp] theorem State.takeDraw_now (s : State) : (s.takeDraw.2).now = s.now := by
  unfold State.takeDraw; split <;> simp_all
@[simp] theorem State.takeDraw_hist (s : State) : (s.takeDraw.2).hist = s.hist := by
  unfold State.takeDraw; split <;> simp_all
@[simp] theorem State.takeDraw_latches (s : State) : (s.takeDraw.2).latches = s.latches := by
  unfold State.takeDraw; split <;> simp_all
@[simp] theorem State.takeDraw_lcdCols (s : State) : (s.takeDraw.2).lcdCols = s.lcdCols := by
  unfold State.takeDraw; split <;> simp_all
@[simp] theorem State.takeDraw_openOutcome (s : State) : (s.takeDraw.2).openOutcome = s.openOutcome := by
  unfold State.takeDraw; split <;> simp_all
@[simp] theorem State.takeDraw_draws (s : State) : (s.takeDraw.2).draws = s.draws.tail := by
  unfold State.takeDraw; split <;> simp_all
@[simp] theorem State.takeDraw_agenda (s : State) : (s.takeDraw.2).agenda = s.agenda := by
  unfold State.takeDraw; split <;> simp_all
@[simp] theorem State.takeDraw_turns (s : State) : (s.takeDraw.2).turns = s.turns := by
  unfold State.takeDraw; split <;> simp_all
@[simp] theorem State.takeDraw_cur (s : State) : (s.takeDraw.2).cur = s.cur := by
  unfold State.takeDraw; split <;> simp_all

/-! ### State.takeTurn -/

@[simp] theorem State.takeTurn_ctxs (s : State) : (s.takeTurn.2).ctxs = s.ctxs := by
  unfold State.takeTurn; split <;> simp_all
@[simp] theorem State.takeTurn_fsel (s : State) : (s.takeTurn.2).fsel = s.fsel := by
  unfold State.takeTurn; split <;> simp_all
@[simp] theorem State.takeTurn_out (s : State) : (s.takeTurn.2).out = s.out := by
  unfold State.takeTurn; split <;> simp_all
@[simp] theorem State.takeTurn_mapState (s : State) : (s.takeTurn.2).mapState = s.mapState := by
  unfold State.takeTurn; split <;> simp_all
@[simp] theorem State.takeTurn_lcdState (s : State) : (s.takeTurn.2).lcdState = s.lcdState := by
  unfold State.takeTurn; split <;> simp_all
@[simp] theorem State.takeTurn_lock (s : State) : (s.takeTurn.2).lock = s.lock := by
  unfold State.takeTurn; split <;> simp_all
@[simp] theorem State.takeTurn_lcdCursor (s : State) : (s.takeTurn.2).lcdCursor = s.lcdCursor := by
  unfold State.takeTurn; split <;> simp_all
@[simp] theorem State.takeTurn_lcdDisplayOn (s : State) : (s.takeTurn.2).lcdDisplayOn = s.lcdDisplayOn := by
  unfold State.takeTurn; split <;> simp_all
@[simp] theorem State.takeTurn_now (s : State) : (s.takeTurn.2).now = s.now := by
  unfold State.takeTurn; split <;> simp_all
@[simp] theorem State.takeTurn_hist (s : State) : (s.takeTurn.2).hist = s.hist := by
  unfold State.takeTurn; split <;> simp_all
@[simp] theorem State.takeTurn_latches (s : State) : (s.takeTurn.2).latches = s.latches := by
  unfold State.takeTurn; split <;> simp_all
@[simp] theorem State.takeTurn_lcdCols (s : State) : (s.takeTurn.2).lcdCols = s.lcdCols := by
  unfold State.takeTurn; split <;> simp_all
@[simp] theorem State.takeTurn_openOutcome (s : State) : (s.takeTurn.2).openOutcome = s.openOutcome := by
  unfold State.takeTurn; split <;> simp_all
@[simp] theorem State.takeTurn_draws (s : State) : (s.takeTurn.2).draws = s.draws := by
  unfold State.takeTurn; split <;> simp_all
@[simp] theorem State.takeTurn_drawn (s : State) : (s.takeTurn.2).drawn = s.drawn := by
  unfold State.takeTurn; split <;> simp_all
@[simp] theorem State.takeTurn_agenda (s : State) : (s.takeTurn.2).agenda = s.agenda.tail := by
  unfold State.takeTurn; split <;> simp_all
@[simp] theorem State.takeTurn_cur (s : State) : (s.takeTurn.2).cur = s.cur := by
  unfold State.takeTurn; split <;> simp_all

/-! ### State.leastTick -/

@[simp] theorem State.leastTick_ctxs (s : State) : (s.leastTick).ctxs = s.ctxs := by
  unfold State.leastTick; split <;> [split; skip] <;> rfl
@[simp] theorem State.leastTick_fsel (s : State) : (s.leastTick).fsel = s.fsel := by
  unfold State.leastTick; split <;> [split; skip] <;> rfl
@[simp] theorem State.leastTick_out (s : State) : (s.leastTick).out = s.out := by
  unfold State.leastTick; split <;> [split; skip] <;> rfl
@[simp] theorem State.leastTick_mapState (s : State) : (s.leastTick).mapState = s.mapState := by
  unfold State.leastTick; split <;> [split; skip] <;> rfl
@[simp] theorem State.leastTick_lcdState (s : State) : (s.leastTick).lcdState = s.lcdState := by
  unfold State.leastTick; split <;> [split; skip] <;> rfl
@[simp] theorem State.leastTick_lock (s : State) : (s.leastTick).lock = s.lock := by
  unfold State.leastTick; split <;> [split; skip] <;> rfl
@[simp] theorem State.leastTick_lcdCursor (s : State) : (s.leastTick).lcdCursor = s.lcdCursor := by
  unfold State.leastTick; split <;> [split; skip] <;> rfl
@[simp] theorem State.leastTick_lcdDisplayOn (s : State) : (s.leastTick).lcdDisplayOn = s.lcdDisplayOn := by
  unfold State.leastTick; split <;> [split; skip] <;> rfl
@[simp] theorem State.leastTick_hist (s : State) : (s.leastTick).hist = s.hist := by
  unfold State.leastTick; split <;> [split; skip] <;> rfl
@[simp] theorem State.leastTick_latches (s : State) : (s.leastTick).latches = s.latches := by
  unfold State.leastTick; split <;> [split; skip] <;> rfl
@[simp] theorem State.leastTick_lcdCols (s : State) : (s.leastTick).lcdCols = s.lcdCols := by
  unfold State.leastTick; split <;> [split; skip] <;> rfl
@[simp] theorem State.leastTick_openOutcome (s : State) : (s.leastTick).openOutcome = s.openOutcome := by
  unfold State.leastTick; split <;> [split; skip] <;> rfl
@[simp] theorem State.leastTick_draws (s : State) : (s.leastTick).draws = s.draws := by
  unfold State.leastTick; split <;> [split; skip] <;> rfl
@[simp] theorem State.leastTick_drawn (s : State) : (s.leastTick).drawn = s.drawn := by
  unfold State.leastTick; split <;> [split; skip] <;> rfl
@[simp] theorem State.leastTick_agenda (s : State) : (s.leastTick).agenda = s.agenda := by
  unfold State.leastTick; split <;> [split; skip] <;> rfl
@[simp] theorem State.leastTick_turns (s : State) : (s.leastTick).turns = s.turns := by
  unfold State.leastTick; split <;> [split; skip] <;> rfl
@[simp] theorem State.leastTick_cur (s : State) : (s.leastTick).cur = s.cur := by
  unfold State.leastTick; split <;> [split; skip] <;> rfl

/-! ### Ctx.goto -/

@[simp] theorem Ctx.goto_a (x : Ctx) (u : Upc) : (x.goto u).a = x.a := rfl
@[simp] theorem Ctx.goto_b (x : Ctx) (u : Upc) : (x.goto u).b = x.b := rfl
@[simp] theorem Ctx.goto_c (x : Ctx) (u : Upc) : (x.goto u).c = x.c := rfl
@[simp] theorem Ctx.goto_tmp (x : Ctx) (u : Upc) : (x.goto u).tmp = x.tmp := rfl
@[simp] theorem Ctx.goto_cnt (x : Ctx) (u : Upc) : (x.goto u).cnt = x.cnt := rfl
@[simp] theorem Ctx.goto_idx (x : Ctx) (u : Upc) : (x.goto u).idx = x.idx := rfl
@[simp] theorem Ctx.goto_res (x : Ctx) (u : Upc) : (x.goto u).res = x.res := rfl
@[simp] theorem Ctx.goto_text (x : Ctx) (u : Upc) : (x.goto u).text = x.text := rfl
@[simp] theorem Ctx.goto_status (x : Ctx) (u : Upc) : (x.goto u).status = x.status := rfl
@[simp] theorem Ctx.goto_upc (x : Ctx) (u : Upc) : (x.goto u).upc = u := rfl
@[simp] theorem Ctx.goto_between (x : Ctx) (u : Upc) : (x.goto u).between = x.between := rfl
@[simp] theorem Ctx.goto_wake (x : Ctx) (u : Upc) : (x.goto u).wake = x.wake := rfl
@[simp] theorem Ctx.goto_delayFrom (x : Ctx) (u : Upc) : (x.goto u).delayFrom = x.delayFrom := rfl
@[simp] theorem Ctx.goto_response (x : Ctx) (u : Upc) : (x.goto u).response = x.response := rfl
@[simp] theorem Ctx.goto_todo (x : Ctx) (u : Upc) : (x.goto u).todo = x.todo := rfl

/-! ### Ctx.withOperands -/

@[simp] theorem Ctx.withOperands_a (x : Ctx) (a b c : Byte) : (x.withOperands a b c).a = a := rfl
@[simp] theorem Ctx.withOperands_b (x : Ctx) (a b c : Byte) : (x.withOperands a b c).b = b := rfl
@[simp] theorem Ctx.withOperands_c (x : Ctx) (a b c : Byte) : (x.withOperands a b c).c = c := rfl
@[simp] theorem Ctx.withOperands_tmp (x : Ctx) (a b c : Byte) : (x.withOperands a b c).tmp = x.tmp := rfl
@[simp] theorem Ctx.withOperands_cnt (x : Ctx) (a b c : Byte) : (x.withOperands a b c).cnt = x.cnt := rfl
@[simp] theorem Ctx.withOperands_idx (x : Ctx) (a b c : Byte) : (x.withOperands a b c).idx = x.idx := rfl
@[simp] theorem Ctx.withOperands_res (x : Ctx) (a b c : Byte) : (x.withOperands a b c).res = x.res := rfl
@[simp] theorem Ctx.withOperands_text (x : Ctx) (a b c : Byte) : (x.withOperands a b c).text = x.text := rfl
@[simp] theorem Ctx.withOperands_status (x : Ctx) (a b c : Byte) : (x.withOperands a b c).status = x.status := rfl
@[simp] theorem Ctx.withOperands_upc (x : Ctx) (a b c : Byte) : (x.withOperands a b c).upc = x.upc := rfl
@[simp] theorem Ctx.withOperands_between (x : Ctx) (a b c : Byte) : (x.withOperands a b c).between = .nothing := rfl
@[simp] theorem Ctx.withOperands_wake (x : Ctx) (a b c : Byte) : (x.withOperands a b c).wake = x.wake := rfl
@[simp] theorem Ctx.withOperands_delayFrom (x : Ctx) (a b c : Byte) : (x.withOperands a b c).delayFrom = x.delayFrom := rfl
@[simp] theorem Ctx.withOperands_response (x : Ctx) (a b c : Byte) : (x.withOperands a b c).response = x.response := rfl
@[simp] theorem Ctx.withOperands_todo (x : Ctx) (a b c : Byte) : (x.withOperands a b c).todo = x.todo := rfl

/-! ### Ctx.receiveChar -/

@[simp] theorem Ctx.receiveChar_a (x : Ctx) (c : Byte) : (x.receiveChar c).a = x.a := rfl
@[simp] theorem Ctx.receiveChar_b (x : Ctx) (c : Byte) : (x.receiveChar c).b = x.b := rfl
@[simp] theorem Ctx.receiveChar_c (x : Ctx) (c : Byte) : (x.receiveChar c).c = x.c := rfl
@[simp] theorem Ctx.receiveChar_tmp (x : Ctx) (c : Byte) : (x.receiveChar c).tmp = x.tmp := rfl
@[simp] theorem Ctx.receiveChar_cnt (x : Ctx) (c : Byte) : (x.receiveChar c).cnt = x.cnt := rfl
@[simp] theorem Ctx.receiveChar_idx (x : Ctx) (c : Byte) : (x.receiveChar c).idx = x.idx := rfl
@[simp] theorem Ctx.receiveChar_res (x : Ctx) (c : Byte) : (x.receiveChar c).res = x.res := rfl
@[simp] theorem Ctx.receiveChar_text (x : Ctx) (c : Byte) : (x.receiveChar c).text = x.text ++ [c] := rfl
@[simp] theorem Ctx.receiveChar_status (x : Ctx) (c : Byte) : (x.receiveChar c).status = x.status := rfl
@[simp] theorem Ctx.receiveChar_upc (x : Ctx) (c : Byte) : (x.receiveChar c).upc = x.upc := rfl
@[simp] theorem Ctx.receiveChar_between (x : Ctx) (c : Byte) : (x.receiveChar c).between = x.between := rfl
@[simp] theorem Ctx.receiveChar_wake (x : Ctx) (c : Byte) : (x.receiveChar c).wake = x.wake := rfl
@[simp] theorem Ctx.receiveChar_delayFrom (x : Ctx) (c : Byte) : (x.receiveChar c).delayFrom = x.delayFrom := rfl
@[simp] theorem Ctx.receiveChar_response (x : Ctx) (c : Byte) : (x.receiveChar c).response = x.response := rfl
@[simp] theorem Ctx.receiveChar_todo (x : Ctx) (c : Byte) : (x.receiveChar c).todo = x.todo := rfl

/-! ### Ctx.computed -/

@[simp] theorem Ctx.computed_a (x : Ctx) : x.computed.a = x.a := rfl
@[simp] theorem Ctx.computed_b (x : Ctx) : x.computed.b = x.b := rfl
@[simp] theorem Ctx.computed_c (x : Ctx) : x.computed.c = x.c := rfl
@[simp] theorem Ctx.computed_tmp (x : Ctx) : x.computed.tmp = x.tmp := rfl
theorem Ctx.computed_cnt (x : Ctx) :
    x.computed.cnt =
      if x.between = .loadCount then x.times else if x.between = .countDown then x.cnt - 1#16 else x.cnt := by
  unfold Ctx.computed; cases x.between <;> rfl
theorem Ctx.computed_idx (x : Ctx) :
    x.computed.idx =
      if x.between = .firstChar then 0#16 else if x.between = .nextChar then x.idx + 1#16 else x.idx := by
  unfold Ctx.computed; cases x.between <;> rfl
@[simp] theorem Ctx.computed_res (x : Ctx) : x.computed.res = x.res := rfl
@[simp] theorem Ctx.computed_text (x : Ctx) : x.computed.text = x.text := rfl
@[simp] theorem Ctx.computed_status (x : Ctx) : x.computed.status = x.status := rfl
@[simp] theorem Ctx.computed_upc (x : Ctx) : x.computed.upc = x.upc := rfl
@[simp] theorem Ctx.computed_between (x : Ctx) : x.computed.between = .nothing := rfl
@[simp] theorem Ctx.computed_wake (x : Ctx) : x.computed.wake = x.wake := rfl
@[simp] theorem Ctx.computed_delayFrom (x : Ctx) : x.computed.delayFrom = x.delayFrom := rfl
@[simp] theorem Ctx.computed_response (x : Ctx) : x.computed.response = x.response := rfl
@[simp] theorem Ctx.computed_todo (x : Ctx) : x.computed.todo = x.todo := rfl
@[simp] theorem Ctx.computed_pin (x : Ctx) : x.computed.pin = x.pin := rfl
@[simp] theorem Ctx.computed_mode (x : Ctx) : x.computed.mode = x.mode := rfl
@[simp] theorem Ctx.computed_level (x : Ctx) : x.computed.level = x.level := rfl
@[simp] theorem Ctx.computed_rs (x : Ctx) : x.computed.rs = x.rs := rfl
@[simp] theorem Ctx.computed_times (x : Ctx) : x.computed.times = x.times := rfl

/-- Where nothing is left to compute, the context is as it is. -/
theorem Ctx.computed_of_nothing {x : Ctx} (h : x.between = .nothing) : x.computed = x := by
  cases x; cases h; rfl

/-- What was computed is not computed again. -/
@[simp] theorem Ctx.computed_computed (x : Ctx) : x.computed.computed = x.computed :=
  Ctx.computed_of_nothing rfl

/-! ### Ctx.thenCompute -/

@[simp] theorem Ctx.thenCompute_a (x : Ctx) (k : Between) (g : Ctx → Upc) : (x.thenCompute k g).a = x.a := rfl
@[simp] theorem Ctx.thenCompute_b (x : Ctx) (k : Between) (g : Ctx → Upc) : (x.thenCompute k g).b = x.b := rfl
@[simp] theorem Ctx.thenCompute_c (x : Ctx) (k : Between) (g : Ctx → Upc) : (x.thenCompute k g).c = x.c := rfl
@[simp] theorem Ctx.thenCompute_tmp (x : Ctx) (k : Between) (g : Ctx → Upc) : (x.thenCompute k g).tmp = x.tmp := rfl
@[simp] theorem Ctx.thenCompute_cnt (x : Ctx) (k : Between) (g : Ctx → Upc) : (x.thenCompute k g).cnt = x.cnt := rfl
@[simp] theorem Ctx.thenCompute_idx (x : Ctx) (k : Between) (g : Ctx → Upc) : (x.thenCompute k g).idx = x.idx := rfl
@[simp] theorem Ctx.thenCompute_res (x : Ctx) (k : Between) (g : Ctx → Upc) : (x.thenCompute k g).res = x.res := rfl
@[simp] theorem Ctx.thenCompute_text (x : Ctx) (k : Between) (g : Ctx → Upc) : (x.thenCompute k g).text = x.text := rfl
@[simp] theorem Ctx.thenCompute_status (x : Ctx) (k : Between) (g : Ctx → Upc) : (x.thenCompute k g).status = x.status := rfl
@[simp] theorem Ctx.thenCompute_upc (x : Ctx) (k : Between) (g : Ctx → Upc) : (x.thenCompute k g).upc = g ({ x with between := k } : Ctx).computed := rfl
@[simp] theorem Ctx.thenCompute_between (x : Ctx) (k : Between) (g : Ctx → Upc) : (x.thenCompute k g).between = k := rfl
@[simp] theorem Ctx.thenCompute_wake (x : Ctx) (k : Between) (g : Ctx → Upc) : (x.thenCompute k g).wake = x.wake := rfl
@[simp] theorem Ctx.thenCompute_delayFrom (x : Ctx) (k : Between) (g : Ctx → Upc) : (x.thenCompute k g).delayFrom = x.delayFrom := rfl
@[simp] theorem Ctx.thenCompute_response (x : Ctx) (k : Between) (g : Ctx → Upc) : (x.thenCompute k g).response = x.response := rfl
@[simp] theorem Ctx.thenCompute_todo (x : Ctx) (k : Between) (g : Ctx → Upc) : (x.thenCompute k g).todo = x.todo := rfl

/-- The position and the registers agree once the update is done: `upc` is the label that the loop test gives then. -/
theorem Ctx.thenCompute_computed (x : Ctx) (k : Between) (g : Ctx → Upc) :
    (x.thenCompute k g).computed =
      { ({ x with between := k } : Ctx).computed with upc := g ({ x with between := k } : Ctx).computed } := rfl

/-- Receiving all the payload words leaves the text, whatever TEXT held before (R92). -/
@[simp] theorem Ctx.receiveText_eq (x : Ctx) (t : List Byte) : x.receiveText t = { x with text := t } := by
  have h : ∀ (l : List Byte) (y : Ctx), l.foldl Ctx.receiveChar y = { y with text := y.text ++ l } := by
    intro l
    induction l with
    | nil => intro y; simp
    | cons c cs ih => intro y; simp [ih, Ctx.receiveChar]
  simp [Ctx.receiveText, h]

/-- Writing the executing context twice keeps the second (R21). -/
@[simp] theorem State.putCtx_putCtx (s : State) (x y : Ctx) : (s.putCtx x).putCtx y = s.putCtx y := by
  simp [State.putCtx]

end Sys2Proof.Machine
end

