-- ==== Sys2Proof/Laws/Ops.lean ====
section
/-! SUPPORT. For each shared operation one lemma that says all it can do; proofs cite these instead of unfolding it. -/

namespace Sys2Proof.Machine

/-! ### The register block -/

/-- The latch word after pin `p` is driven to level `l` (R53, R54, R131). -/
def pinned (out : Word) (p : Nat) (l : Level) : Word :=
  match l with
  | .high => out ||| bitOf p
  | .low => out &&& ~~~bitOf p

/-- A pin write is one store event and one change of the latch. -/
theorem pinWrite_eq (p : Nat) (l : Level) (s : State) (k : State → Result) :
    pinWrite p l s k =
      k ((s.driveOut (pinned s.out p l)).record (.st s.cur s.now (portOf l) (bitOf p))) := by
  cases l <;> rfl

theorem directPinWrite_eq (p : Nat) (l : Level) (s : State) (k : State → Result) :
    directPinWrite p l s k =
      k (((s.driveOut (pinned s.out p l)).record (.st s.cur s.now (portOf l) (bitOf p))).disturbLcd p) := by
  simp [directPinWrite, pinWrite_eq]

/-- A load of a function-select word returns it and changes nothing (R52). -/
theorem memRead_fsel {w : Nat} (h : w < 6) (s : State) : memRead (4 * w) s = some (s.fsel.get w, s) := by
  simp [memRead, regLoad, h]

/-- A load of LEVEL (R56). -/
theorem memRead_level (s : State) :
    memRead (4 * Config.levelWord) s = some (levelWord s.fsel s.out s.takeDraw.1, s.takeDraw.2) := by
  simp [memRead, regLoad, Config.levelWord]

/-- A store to a function-select word replaces it (R52). -/
theorem memWrite_fsel {w : Nat} (h : w < 6) (v : Word) (s : State) :
    memWrite (4 * w) v s = some { s with fsel := s.fsel.set w v } := by
  simp [memWrite, regStore, h]

theorem loadAct_fsel {w : Nat} (h : w < 6) (s : State) (k : Word → State → Result) :
    loadAct w s k = k (s.fsel.get w) (s.record (.ld s.cur s.now w (s.fsel.get w))) := by
  simp [loadAct, memRead_fsel h]

theorem loadAct_level (s : State) (k : Word → State → Result) :
    loadAct Config.levelWord s k =
      k (levelWord s.fsel s.out s.takeDraw.1)
        (s.takeDraw.2.record (.ld s.cur s.now Config.levelWord (levelWord s.fsel s.out s.takeDraw.1))) := by
  simp [loadAct, memRead_level]

theorem storeAct_fsel {w : Nat} (h : w < 6) (v : Word) (s : State) (k : State → Result) :
    storeAct w v s k = k ({ s with fsel := s.fsel.set w v }.record (.st s.cur s.now w v)) := by
  simp [storeAct, memWrite_fsel h]

/-- Whatever a load answers with a next state, it loaded a word the block has. -/
theorem loadAct_next {w : Nat} {s t : State} {k : Word → State → Result} (h : loadAct w s k = .next t) :
    (w < 6 ∧ k (s.fsel.get w) (s.record (.ld s.cur s.now w (s.fsel.get w))) = .next t) ∨
      (w = Config.levelWord ∧
        k (levelWord s.fsel s.out s.takeDraw.1)
          (s.takeDraw.2.record (.ld s.cur s.now Config.levelWord (levelWord s.fsel s.out s.takeDraw.1))) =
            .next t) := by
  by_cases hw : w < 6
  · exact .inl ⟨hw, by rwa [loadAct_fsel hw] at h⟩
  · by_cases hl : w = Config.levelWord
    · subst hl
      exact .inr ⟨rfl, by rwa [loadAct_level] at h⟩
    · simp [loadAct, memRead, regLoad, hw, hl] at h

/-- Whatever a store answers with a next state, it stored to a word that can be stored to. -/
theorem storeAct_next {w : Nat} {v : Word} {s t : State} {k : State → Result} (h : storeAct w v s k = .next t) :
    (w < 6 ∧ k ({ s with fsel := s.fsel.set w v }.record (.st s.cur s.now w v)) = .next t) ∨
      (∃ out, (w = 7 ∨ w = 10) ∧ k ((s.driveOut out).record (.st s.cur s.now w v)) = .next t) := by
  by_cases hw : w < 6
  · exact .inl ⟨hw, by rwa [storeAct_fsel hw] at h⟩
  · by_cases h7 : w = 7
    · subst h7
      exact .inr ⟨s.out ||| v, .inl rfl, by simpa [storeAct, memWrite, regStore, Config.setWord] using h⟩
    · by_cases h10 : w = 10
      · subst h10
        exact .inr ⟨s.out &&& ~~~v, .inr rfl,
          by simpa [storeAct, memWrite, regStore, Config.setWord, Config.clrWord] using h⟩
      · simp [storeAct, memWrite, regStore, hw, h7, h10, Config.setWord, Config.clrWord] at h

theorem fselWordOf_lt {p : Nat} (h : p ≤ 59) : fselWordOf p < 6 := by
  unfold fselWordOf; omega

/-! ### Words and fields -/

theorem getLsbD_bitOf (p i : Nat) (hi : i < 32) : (bitOf p).getLsbD i = decide (i = p) := by
  simp only [bitOf, BitVec.getLsbD_shiftLeft, hi, decide_true, Bool.true_and]
  by_cases h : i < p
  · simp [h]; omega
  · simp [h]; omega

theorem getLsbD_pinned (out : Word) (p : Nat) (l : Level) (i : Nat) (hi : i < 32) :
    (pinned out p l).getLsbD i = if i = p then l.toBool else out.getLsbD i := by
  cases l
  · simp only [pinned, BitVec.getLsbD_and, BitVec.getLsbD_not, hi, getLsbD_bitOf _ _ hi, Level.toBool]
    by_cases h : i = p <;> simp [h]
  · simp only [pinned, BitVec.getLsbD_or, getLsbD_bitOf _ _ hi, Level.toBool]
    by_cases h : i = p <;> simp [h]

/-- The mask of the pins in Output mode, bit by bit (R56). -/
theorem getLsbD_outputPins (f : Fsel) (n i : Nat) (hi : i < 32) :
    (outputPins f n).getLsbD i = decide (i < n ∧ f.func i = 0b001#3) := by
  induction n with
  | zero => simp [outputPins]
  | succ n ih =>
    simp only [outputPins, BitVec.getLsbD_or, ih]
    by_cases h : f.func n = 0b001#3
    · by_cases hn : i = n
      · subst hn; simp [h, getLsbD_bitOf _ _ hi]
      · have : i < n + 1 ↔ i < n := by omega
        simp [h, getLsbD_bitOf _ _ hi, hn, this]
    · by_cases hn : i = n
      · subst hn; simp [h]
      · have : i < n + 1 ↔ i < n := by omega
        simp [h, this]

/-- LEVEL, bit by bit (R56). -/
theorem getLsbD_levelWord (f : Fsel) (out draw : Word) (i : Nat) (hi : i < 32) :
    (levelWord f out draw).getLsbD i =
      if f.func i = 0b001#3 then out.getLsbD i else draw.getLsbD i := by
  simp only [levelWord, BitVec.getLsbD_or, BitVec.getLsbD_and, BitVec.getLsbD_not, hi,
    getLsbD_outputPins _ _ _ hi, decide_true, Bool.true_and, true_and]
  by_cases h : f.func i = 0b001#3 <;> simp [h]

/-- The sample is the bit of the loaded word (R132). -/
theorem sampleOf_eq (v : Word) (p : Nat) (hp : p < 32) : sampleOf v p = if v.getLsbD p then 1#1 else 0#1 := by
  have key : (v &&& bitOf p ≠ 0#32) ↔ v.getLsbD p = true := by
    constructor
    · intro h
      by_contra hb
      apply h
      apply BitVec.eq_of_getLsbD_eq
      intro i hi
      rw [BitVec.getLsbD_and, getLsbD_bitOf _ _ hi]
      by_cases hip : i = p
      · subst hip; simp at hb; simp [hb]
      · simp [hip]
    · intro h h0
      have := congrArg (fun w => BitVec.getLsbD w p) h0
      simp [BitVec.getLsbD_and, getLsbD_bitOf _ _ hp, h] at this
  simp only [sampleOf, key]

/-- Replacing one function-select word (R52). -/
theorem Fsel.get_set (f : Fsel) (w w' : Nat) (v : Word) (hw : w < 6) (hw' : w' < 6) :
    (f.set w v).get w' = if w' = w then v else f.get w' := by
  interval_cases w <;> interval_cases w' <;> rfl

/-! ### Actions -/

/-- A delay starts, holds, or ends (R270). -/
theorem delayAct_next {d : Nat} {x : Ctx} {s t : State} {k : Ctx → State → Result}
    (h : delayAct d x s k = .next t) :
    (x.delayFrom = none ∧ t = s.putCtx { x with wake := s.now + d, delayFrom := some s.now }) ∨
      (∃ t0, x.delayFrom = some t0 ∧ s.now < x.wake ∧ t = s) ∨
      (∃ t0, x.delayFrom = some t0 ∧ x.wake ≤ s.now ∧
        k { x with delayFrom := none } (s.record (.dly s.cur d t0 s.now)) = .next t) := by
  unfold delayAct at h
  split at h
  · left; exact ⟨‹_›, by simpa using h.symm⟩
  · rename_i t0 h0
    split at h
    · right; right; exact ⟨t0, h0, ‹_›, h⟩
    · right; left; exact ⟨t0, h0, by omega, by simpa using h.symm⟩

/-- `Acquire` waits or takes the lock (R180). -/
theorem acquireAct_next {s t : State} {k : State → Result} (h : acquireAct s k = .next t) :
    (s.lock ≠ .free ∧ t = s) ∨
      (s.lock = .free ∧ k ({ s with lock := .held s.cur }.record (.acq s.cur s.now)) = .next t) := by
  unfold acquireAct at h
  split at h
  · exact .inr ⟨‹_›, h⟩
  · rename_i c hc
    exact .inl ⟨by simp [hc], by simpa using h.symm⟩

/-- `Release` needs the lock (R181). -/
theorem releaseAct_next {s t : State} {k : State → Result} (h : releaseAct s k = .next t) :
    s.lock = .held s.cur ∧ k ({ s with lock := .free }.record (.rel s.cur s.now)) = .next t := by
  unfold releaseAct at h
  split at h
  · exact ⟨‹_›, h⟩
  · cases h

/-- The closing action closes or refuses (R121). -/
theorem closeAct_next {x : Ctx} {s t : State} (h : closeAct x s = .next t) :
    (othersIdle s = true ∧ s.lock = .free ∧ returnAct none x { s with mapState := .released } = .next t) ∨
      ((othersIdle s = false ∨ s.lock ≠ .free) ∧ refuse .closeWhileBusy x s = .next t) := by
  unfold closeAct at h
  split at h
  · rename_i hc
    simp at hc
    exact .inl ⟨hc.1, hc.2, h⟩
  · rename_i hc
    refine .inr ⟨?_, h⟩
    by_cases ho : othersIdle s = true
    · right; intro hl; simp [ho, hl] at hc
    · left; simpa using ho

/-- A hand-over refuses or loads (R93, R226). -/
theorem handOver_next {tests : List (Bool × RefuseReason)} {y x : Ctx} {u : Upc} {s t : State}
    (h : handOver tests y u x s = .next t) :
    (∃ r, firstFailure tests = some r ∧
        t = s.putCtx { x with status := .refused r, upc := .none, response := none }) ∨
      (firstFailure tests = none ∧
        t = s.putCtx { y with status := .running, upc := u, delayFrom := none, response := none }) := by
  unfold handOver at h
  split at h
  · rename_i r hr
    exact .inl ⟨r, hr, by simpa [refuse] using h.symm⟩
  · exact .inr ⟨‹_›, by simpa using h.symm⟩

/-- A meaning acts on an Idle context, or on a Running one once its local computation is done (R10, R93). -/
theorem onContext_next {s t : State} {offer act : Ctx → Result} (h : onContext s offer act = .next t) :
    ∃ x, s.ctxs[s.cur]? = some x ∧
      ((x.status = .idle ∧ offer x = .next t) ∨ (x.status = .running ∧ act x.computed = .next t)) := by
  unfold onContext at h
  split at h
  · cases h
  · rename_i x hx
    refine ⟨x, hx, ?_⟩
    split at h
    · exact .inl ⟨‹_›, h⟩
    · exact .inr ⟨‹_›, h⟩
    · cases h

theorem onContext_idle {s : State} {x : Ctx} {offer act : Ctx → Result} (hx : s.ctxs[s.cur]? = some x)
    (hi : x.status = .idle) : onContext s offer act = offer x := by
  simp [onContext, hx, hi]

theorem onContext_running {s : State} {x : Ctx} {offer act : Ctx → Result} (hx : s.ctxs[s.cur]? = some x)
    (hr : x.status = .running) : onContext s offer act = act x.computed := by
  simp [onContext, hx, hr]

/-- A meaning on a Running context acts on it with the local computation done (R10). -/
theorem onContext_runs {s : State} {x : Ctx} {offer act : Ctx → Result} (h : s.Runs x) :
    onContext s offer act = act x := by
  obtain ⟨y, hy, hr, rfl⟩ := h
  exact onContext_running hy hr

end Sys2Proof.Machine
end

