-- ==== Sys2Proof/Laws/Inversion.lean ====
section
/-! SUPPORT. What a step can do, said once: on a Running context every meaning is the action the context is at, on an Idle
one it is the hand-over. -/

namespace Sys2Proof.Machine

/-- The action a Running context is at, whatever instruction it is reached through (R24). -/
def runningAct (x : Ctx) (s : State) : Result :=
  match x.upc with
  | .none => .fault .noPosition
  | .mapopen => mapopenAct x s
  | .mapclose => closeAct x s
  | .shutdown l => shutdownAct l x s
  | .setmode l => setmodeAct l x s
  | .write l => writeAct l x s
  | .read l => readAct l x s
  | .waitbtn l => waitbtnAct l x s
  | .blink l => blinkAct l x s
  | .lcdinit l => lcdinitAct l x s
  | .lcdclear l => lcdAct .lcdclear (fun x => x.goto (.lcdclear (.single .y0))) l x s
  | .lcdcursor l => lcdAct .lcdcursor (fun x => x.goto (.lcdcursor (.single .y0))) l x s
  | .lcdstr l => lcdAct .lcdstr (fun x => x.thenCompute .firstChar (textLoop .lcdstr)) l x s
  | .lcdline l => lcdAct .lcdline (fun x => x.goto (.lcdline (.single .y0))) l x s
  | .lcdbyte l => lcdAct .lcdbyte (fun x => x.goto (.lcdbyte (.single .y0))) l x s

/-- A context that is sending a byte is at an action of LcdByte (R183). -/
theorem runningAct_sendingByte {x : Ctx} {s : State} {rs : Rs} {b : Byte} {y : ByteLabel}
    (h : x.sendingByte = some (rs, b, y)) : runningAct x s = byteAct rs b y x s := by
  have h' := h
  unfold Ctx.sendingByte at h
  split at h <;> cases h <;> simp_all [runningAct, lcdinitAct, lcdAct]

/-- A context that is sending a nibble of the initialization is at an action of LcdNibble (R187). -/
theorem runningAct_sendingNibble {x : Ctx} {s : State} {k : InitNibble} {l : NibbleLabel}
    (h : x.sendingNibble = some (k, l)) : runningAct x s = initNibbleAct k l x s := by
  unfold Ctx.sendingNibble at h
  split at h <;> cases h
  simp_all [runningAct, lcdinitAct]

/-- Sending a bus byte is the action the context is at. -/
theorem sendByte_next {rs : Rs} {b : Byte} {s t : State} {x : Ctx} (hx : s.ctxs[s.cur]? = some x)
    (hr : x.status = .running) (h : sendByte rs b s = .next t) :
    runningAct x.computed s = .next t := by
  simp only [sendByte, insideOperation, onContext_running hx hr] at h
  split at h
  · rename_i hs
    split at h
    · rename_i he
      rw [runningAct_sendingByte hs, he.1, he.2, h]
    · cases h
  · cases h

/-- Sending an initialization nibble is the action the context is at. -/
theorem sendNibble_next {n : Nibble} {s t : State} {x : Ctx} (hx : s.ctxs[s.cur]? = some x)
    (hr : x.status = .running) (h : sendNibble n s = .next t) :
    runningAct x.computed s = .next t := by
  simp only [sendNibble, insideOperation, onContext_running hx hr] at h
  split at h
  · rename_i hs
    split at h
    · rw [runningAct_sendingNibble hs, h]
    · cases h
  · cases h

/-- On a Running context, what `exec` answers as a next state is the action the context is at, begun with the local
computation before it (R10). -/
theorem exec_running {i : Instr} {s t : State} {x : Ctx} (hx : s.ctxs[s.cur]? = some x)
    (hr : x.status = .running) (h : exec i s = .next t) : runningAct x.computed s = .next t := by
  cases i
  case payload c => simp [exec, execPayload, onContext_running hx hr] at h
  case init3 => exact sendNibble_next hx hr h
  case init2 => exact sendNibble_next hx hr h
  case funcset => exact sendByte_next hx hr h
  case dispctl => exact sendByte_next hx hr h
  case entrymode => exact sendByte_next hx hr h
  case clear => exact sendByte_next hx hr h
  case setaddr a => exact sendByte_next hx hr h
  case data c => exact sendByte_next hx hr h
  all_goals
    simp only [exec, execMapopen, execMapclose, execShutdown, execSetmode, execSetpinmode, setmodeOn, execWrite,
      execWritepin, writeOn, execRead, execReadpin, readOn, execWaitbtn, execBlink, execLcdinit, execLcdclear,
      execLcdcursor, execLcdstr, execLcdline, execLcdbyte, onContext_running hx hr] at h
    split at h
    · rename_i hu
      simp only [runningAct, hu]
      exact h
    · cases h

/-- The tests of a hand-over, in the order of R229, give the refusal of the tables. -/
theorem firstFailure_cons (b : Bool) (r : RefuseReason) (rest : List (Bool × RefuseReason)) :
    firstFailure ((b, r) :: rest) = if b then firstFailure rest else some r := by
  cases b <;> rfl

/-- A hand-over as one equation. -/
theorem handOver_eq (tests : List (Bool × RefuseReason)) (y x : Ctx) (u : Upc) (s : State) :
    handOver tests y u x s = .next (s.putCtx (match firstFailure tests with
      | some r => x.refusedFor r
      | none => { y with status := .running, upc := u, delayFrom := none, response := none })) := by
  unfold handOver
  split <;> simp_all [refuse, Ctx.refusedFor]

/-- The tests of the operations with a pin operand (R228, R229). -/
theorem firstFailure_pin (s : State) (i : Instr) (p : Byte) (m : Nat) (hi : i ≠ .mapopen)
    (hp : pinRange i = some (p, m)) (hr : rowOperand i = none) (hc : colOperand i = none) :
    firstFailure [mappedTest s, pinTest p m] = s.refusalOf i := by
  simp only [State.refusalOf, hi, hp, hr, hc, firstFailure, firstFailure_cons, mappedTest, pinTest]
  by_cases h1 : s.mapState = .mapped <;> by_cases h2 : p.toNat ≤ m <;> simp [h1, h2]

/-- The tests of the operations without a range (R227). -/
theorem firstFailure_mapped (s : State) (i : Instr) (hi : i ≠ .mapopen)
    (hp : pinRange i = none) (hr : rowOperand i = none) (hc : colOperand i = none) :
    firstFailure [mappedTest s] = s.refusalOf i := by
  simp only [State.refusalOf, hi, hp, hr, hc, firstFailure, firstFailure_cons, mappedTest]
  by_cases h1 : s.mapState = .mapped <;> simp [h1]

theorem firstFailure_line (s : State) (l : Byte) (t : List Byte) :
    firstFailure [mappedTest s, rowTest l] = s.refusalOf (.lcdline l t) := by
  simp only [State.refusalOf, pinRange, rowOperand, colOperand, firstFailure, firstFailure_cons, mappedTest, rowTest]
  by_cases h1 : s.mapState = .mapped <;> by_cases h2 : l.toNat ≤ 1 <;> simp [h1, h2]

theorem firstFailure_cursor (s : State) (r c : Byte) :
    firstFailure [mappedTest s, rowTest r, colTest s c] = s.refusalOf (.lcdcursor r c) := by
  simp only [State.refusalOf, pinRange, rowOperand, colOperand, firstFailure, firstFailure_cons, mappedTest, rowTest,
    colTest]
  by_cases h1 : s.mapState = .mapped
  · by_cases h2 : r.toNat ≤ 1
    · have h2' : ¬ 1 < r.toNat := by omega
      by_cases h3 : c.toNat < s.lcdCols
      · have h3' : ¬ s.lcdCols ≤ c.toNat := by omega
        simp [h1, h2, h2', h3, h3']
      · have h3' : s.lcdCols ≤ c.toNat := by omega
        simp [h1, h2, h2', h3, h3']
    · have h2' : 1 < r.toNat := by omega
      simp [h1, h2, h2']
  · simp [h1]

theorem firstFailure_open (s : State) :
    firstFailure [(decide (s.mapState = .unmapped), .alreadyOpened)] = s.refusalOf .mapopen := by
  by_cases h1 : s.mapState = .unmapped <;> simp [State.refusalOf, firstFailure, firstFailure_cons, h1]

/-- The registers after the hand-over of a request whose word is packed from its fields (R90, R93). -/
theorem Ctx.handed_pack {i : Instr} {o a b c : Byte} {rest : List Word} (x : Ctx)
    (he : encode i = .request (pack o a b c :: rest)) :
    x.handed i =
      { x with
        a := a
        b := b
        c := c
        text := (textOperand i).getD x.text
        status := .running
        upc := (firstUpc i)
        between := (firstBetween i)
        delayFrom := none
        response := none } := by
  simp only [Ctx.handed, he, fieldA_pack, fieldB_pack, fieldC_pack]

/-- What the hand-over of `i` answers: refused for the reason of the tables, or loaded (R93, R229). -/
def handedOver (i : Instr) (x : Ctx) (s : State) : Result :=
  .next (s.putCtx (match s.refusalOf i with
    | some r => x.refusedFor r
    | none => x.handed i))

theorem exec_idle_setmode {s : State} {x : Ctx} (hx : s.ctxs[s.cur]? = some x) (hi : x.status = .idle)
    (p : Byte) (m : Mode) : exec (.setmode p m) s = handedOver (.setmode p m) x s := by
  have h : exec (.setmode p m) s = setmodeOn p m s := rfl
  rw [h, setmodeOn, onContext_idle hx hi, handOver_eq,
    firstFailure_pin s (.setmode p m) p Config.pinMax (by simp) rfl rfl rfl, handedOver, Ctx.handed_pack x rfl]
  rfl

theorem exec_idle_setpinmode {s : State} {x : Ctx} (hx : s.ctxs[s.cur]? = some x) (hi : x.status = .idle)
    (p : Byte) (m : Mode) : exec (.setpinmode p m) s = handedOver (.setpinmode p m) x s := by
  have h : exec (.setpinmode p m) s = setmodeOn p m s := rfl
  rw [h, setmodeOn, onContext_idle hx hi, handOver_eq,
    firstFailure_pin s (.setpinmode p m) p Config.pinMax (by simp) rfl rfl rfl, handedOver, Ctx.handed_pack x rfl]
  rfl

theorem exec_idle_write {s : State} {x : Ctx} (hx : s.ctxs[s.cur]? = some x) (hi : x.status = .idle)
    (p : Byte) (l : Level) : exec (.write p l) s = handedOver (.write p l) x s := by
  have h : exec (.write p l) s = writeOn p l s := rfl
  rw [h, writeOn, onContext_idle hx hi, handOver_eq,
    firstFailure_pin s (.write p l) p Config.rwPinMax (by simp) rfl rfl rfl, handedOver, Ctx.handed_pack x rfl]
  rfl

theorem exec_idle_writepin {s : State} {x : Ctx} (hx : s.ctxs[s.cur]? = some x) (hi : x.status = .idle)
    (p : Byte) (l : Level) : exec (.writepin p l) s = handedOver (.writepin p l) x s := by
  have h : exec (.writepin p l) s = writeOn p l s := rfl
  rw [h, writeOn, onContext_idle hx hi, handOver_eq,
    firstFailure_pin s (.writepin p l) p Config.rwPinMax (by simp) rfl rfl rfl, handedOver, Ctx.handed_pack x rfl]
  rfl

theorem exec_idle_read {s : State} {x : Ctx} (hx : s.ctxs[s.cur]? = some x) (hi : x.status = .idle)
    (p : Byte) : exec (.read p) s = handedOver (.read p) x s := by
  have h : exec (.read p) s = readOn p s := rfl
  rw [h, readOn, onContext_idle hx hi, handOver_eq,
    firstFailure_pin s (.read p) p Config.rwPinMax (by simp) rfl rfl rfl, handedOver, Ctx.handed_pack x rfl]
  rfl

theorem exec_idle_readpin {s : State} {x : Ctx} (hx : s.ctxs[s.cur]? = some x) (hi : x.status = .idle)
    (p : Byte) : exec (.readpin p) s = handedOver (.readpin p) x s := by
  have h : exec (.readpin p) s = readOn p s := rfl
  rw [h, readOn, onContext_idle hx hi, handOver_eq,
    firstFailure_pin s (.readpin p) p Config.rwPinMax (by simp) rfl rfl rfl, handedOver, Ctx.handed_pack x rfl]
  rfl

theorem exec_idle_waitbtn {s : State} {x : Ctx} (hx : s.ctxs[s.cur]? = some x) (hi : x.status = .idle)
    (p : Byte) : exec (.waitbtn p) s = handedOver (.waitbtn p) x s := by
  have h : exec (.waitbtn p) s = execWaitbtn p s := rfl
  rw [h, execWaitbtn, onContext_idle hx hi, handOver_eq,
    firstFailure_pin s (.waitbtn p) p Config.rwPinMax (by simp) rfl rfl rfl, handedOver, Ctx.handed_pack x rfl]
  rfl

/-- Where a BLINK starts: the loop test comes after `CNT <- times` (R24, R170). -/
theorem withBlinkOperands_eq (x : Ctx) (p : Byte) (n : BitVec 16) :
    x.withBlinkOperands p n =
      { x with
        a := p
        b := highByte n
        c := lowByte n
        upc := (firstUpc (.blink p n))
        between := .loadCount } := by
  have h : ({ x.withOperands p (highByte n) (lowByte n) with between := .loadCount } : Ctx).computed.cnt = n :=
    joinBytes_high_low n
  unfold Ctx.withBlinkOperands Ctx.thenCompute blinkLoop
  rw [h]
  rfl

theorem exec_idle_blink {s : State} {x : Ctx} (hx : s.ctxs[s.cur]? = some x) (hi : x.status = .idle)
    (p : Byte) (n : BitVec 16) : exec (.blink p n) s = handedOver (.blink p n) x s := by
  have h : exec (.blink p n) s = execBlink p n s := rfl
  rw [h, execBlink, onContext_idle hx hi, handOver_eq,
    firstFailure_pin s (.blink p n) p Config.rwPinMax (by simp) rfl rfl rfl, handedOver, Ctx.handed_pack x rfl,
    withBlinkOperands_eq]
  rfl

theorem exec_idle_mapclose {s : State} {x : Ctx} (hx : s.ctxs[s.cur]? = some x) (hi : x.status = .idle)
    : exec .mapclose s = handedOver .mapclose x s := by
  have h : exec .mapclose s = execMapclose  s := rfl
  rw [h, execMapclose, onContext_idle hx hi, handOver_eq,
    firstFailure_mapped s .mapclose (by simp) rfl rfl rfl, handedOver, Ctx.handed_pack x rfl]
  rfl

theorem exec_idle_shutdown {s : State} {x : Ctx} (hx : s.ctxs[s.cur]? = some x) (hi : x.status = .idle)
    : exec .shutdown s = handedOver .shutdown x s := by
  have h : exec .shutdown s = execShutdown  s := rfl
  rw [h, execShutdown, onContext_idle hx hi, handOver_eq,
    firstFailure_mapped s .shutdown (by simp) rfl rfl rfl, handedOver, Ctx.handed_pack x rfl]
  rfl

theorem exec_idle_lcdinit {s : State} {x : Ctx} (hx : s.ctxs[s.cur]? = some x) (hi : x.status = .idle)
    : exec .lcdinit s = handedOver .lcdinit x s := by
  have h : exec .lcdinit s = execLcdinit  s := rfl
  rw [h, execLcdinit, onContext_idle hx hi, handOver_eq,
    firstFailure_mapped s .lcdinit (by simp) rfl rfl rfl, handedOver, Ctx.handed_pack x rfl]
  rfl

theorem exec_idle_lcdclear {s : State} {x : Ctx} (hx : s.ctxs[s.cur]? = some x) (hi : x.status = .idle)
    : exec .lcdclear s = handedOver .lcdclear x s := by
  have h : exec .lcdclear s = execLcdclear  s := rfl
  rw [h, execLcdclear, onContext_idle hx hi, handOver_eq,
    firstFailure_mapped s .lcdclear (by simp) rfl rfl rfl, handedOver, Ctx.handed_pack x rfl]
  rfl

theorem exec_idle_lcdbyte {s : State} {x : Ctx} (hx : s.ctxs[s.cur]? = some x) (hi : x.status = .idle)
    (rs : Rs) (b : Byte): exec (.lcdbyte rs b) s = handedOver (.lcdbyte rs b) x s := by
  have h : exec (.lcdbyte rs b) s = execLcdbyte rs b s := rfl
  rw [h, execLcdbyte, onContext_idle hx hi, handOver_eq,
    firstFailure_mapped s (.lcdbyte rs b) (by simp) rfl rfl rfl, handedOver, Ctx.handed_pack x rfl]
  rfl

theorem exec_idle_mapopen {s : State} {x : Ctx} (hx : s.ctxs[s.cur]? = some x) (hi : x.status = .idle) :
    exec .mapopen s = handedOver .mapopen x s := by
  have h : exec .mapopen s = execMapopen s := rfl
  rw [h, execMapopen, onContext_idle hx hi, handOver_eq, firstFailure_open, handedOver, Ctx.handed_pack x rfl]
  rfl

theorem exec_idle_lcdcursor {s : State} {x : Ctx} (hx : s.ctxs[s.cur]? = some x) (hi : x.status = .idle)
    (r c : Byte) : exec (.lcdcursor r c) s = handedOver (.lcdcursor r c) x s := by
  have h : exec (.lcdcursor r c) s = execLcdcursor r c s := rfl
  rw [h, execLcdcursor, onContext_idle hx hi, handOver_eq, firstFailure_cursor, handedOver, Ctx.handed_pack x rfl]
  rfl

theorem exec_idle_lcdstr {s : State} {x : Ctx} (hx : s.ctxs[s.cur]? = some x) (hi : x.status = .idle)
    (t : List Byte) : exec (.lcdstr t) s = handedOver (.lcdstr t) x s := by
  have h : exec (.lcdstr t) s = execLcdstr t s := rfl
  rw [h, execLcdstr, onContext_idle hx hi, handOver_eq, firstFailure_mapped s (.lcdstr t) (by simp) rfl rfl rfl,
    handedOver, Ctx.handed_pack x rfl, Ctx.withTextOperands, Ctx.receiveText_eq]
  rfl

theorem exec_idle_lcdline {s : State} {x : Ctx} (hx : s.ctxs[s.cur]? = some x) (hi : x.status = .idle)
    (l : Byte) (t : List Byte) : exec (.lcdline l t) s = handedOver (.lcdline l t) x s := by
  have h : exec (.lcdline l t) s = execLcdline l t s := rfl
  rw [h, execLcdline, onContext_idle hx hi, handOver_eq, firstFailure_line s l t, handedOver, Ctx.handed_pack x rfl,
    Ctx.withTextOperands, Ctx.receiveText_eq]
  rfl

/-- On an Idle context every request is handed over (R93). -/
theorem exec_idle {i : Instr} {s : State} {x : Ctx} (hx : s.ctxs[s.cur]? = some x) (hi : x.status = .idle)
    (hq : isRequest i = true) : exec i s = handedOver i x s := by
  cases i with
  | mapopen => exact exec_idle_mapopen hx hi
  | mapclose => exact exec_idle_mapclose hx hi
  | shutdown => exact exec_idle_shutdown hx hi
  | setmode p m => exact exec_idle_setmode hx hi p m
  | write p l => exact exec_idle_write hx hi p l
  | read p => exact exec_idle_read hx hi p
  | waitbtn p => exact exec_idle_waitbtn hx hi p
  | blink p n => exact exec_idle_blink hx hi p n
  | lcdinit => exact exec_idle_lcdinit hx hi
  | lcdclear => exact exec_idle_lcdclear hx hi
  | lcdcursor r c => exact exec_idle_lcdcursor hx hi r c
  | lcdstr t => exact exec_idle_lcdstr hx hi t
  | lcdline l t => exact exec_idle_lcdline hx hi l t
  | lcdbyte rs b => exact exec_idle_lcdbyte hx hi rs b
  | setpinmode p m => exact exec_idle_setpinmode hx hi p m
  | writepin p l => exact exec_idle_writepin hx hi p l
  | readpin p => exact exec_idle_readpin hx hi p
  | payload _ => exact absurd hq (by simp [isRequest, encode])
  | init3 => exact absurd hq (by simp [isRequest, encode])
  | init2 => exact absurd hq (by simp [isRequest, encode])
  | funcset => exact absurd hq (by simp [isRequest, encode])
  | dispctl => exact absurd hq (by simp [isRequest, encode])
  | entrymode => exact absurd hq (by simp [isRequest, encode])
  | clear => exact absurd hq (by simp [isRequest, encode])
  | setaddr _ => exact absurd hq (by simp [isRequest, encode])
  | data _ => exact absurd hq (by simp [isRequest, encode])

/-- The bus words are no requests: on an Idle context they do nothing the block could do (N34). -/
theorem exec_idle_other {i : Instr} {s t : State} {x : Ctx} (hx : s.ctxs[s.cur]? = some x) (hi : x.status = .idle)
    (hq : isRequest i = false) (h : exec i s = .next t) :
    ∃ c, i = .payload c ∧ t = s.putCtx (x.receiveChar c) := by
  cases i <;> simp [isRequest, encode] at hq <;>
    simp only [exec, execInit3, execInit2, execFuncset, execDispctl, execEntrymode, execClear, execSetaddr,
      execData, sendByte, sendNibble, insideOperation, execPayload, onContext_idle hx hi] at h <;>
    cases h
  exact ⟨_, rfl, rfl⟩

end Sys2Proof.Machine
end

