-- ==== Sys2Proof/Laws/Effects.lean ====
section
/-! SUPPORT. Everything an action of a Running context can do, and everything a step can do, each said once: the
inversion lemmas that proofs about all actions or all steps cite. -/

namespace Sys2Proof.Machine

/-! ### Pin stores and returns in the words of Safety.lean -/

theorem driveOut_stored (s : State) (p : Nat) (l : Level) :
    (s.driveOut (pinned s.out p l)).record (.st s.cur s.now (portOf l) (bitOf p)) = s.storedPin p l := by
  cases l <;> rfl

theorem pinWrite_stored (p : Nat) (l : Level) (s : State) (k : State → Result) :
    pinWrite p l s k = k (s.storedPin p l) := by
  rw [pinWrite_eq, driveOut_stored]

theorem isLcdPin_eq (p : Nat) : isLcdPin p = decide (p ∈ lcdPins) := by
  simp [isLcdPin, lcdPins, Config.lcdRs, Config.lcdEn, Config.lcdD4, Config.lcdD5, Config.lcdD6, Config.lcdD7,
    Bool.or_assoc]
  rfl

theorem disturbLcd_lost (s : State) (p : Nat) : s.disturbLcd p = s.shadowLost p := by
  unfold State.disturbLcd State.shadowLost
  rw [isLcdPin_eq]
  split <;> simp_all

theorem directPinWrite_stored (p : Nat) (l : Level) (s : State) (k : State → Result) :
    directPinWrite p l s k = k ((s.storedPin p l).shadowLost p) := by
  rw [directPinWrite_eq, driveOut_stored, disturbLcd_lost]

/-- `Return(v)` leaves the history with one event more and the context Idle with its response word (R9, R91). -/
theorem returnAct_eq (v : Option (BitVec 1)) (x : Ctx) (s : State) :
    returnAct v x s =
      .next ((s.record (.ret s.cur s.now v)).putCtx (x.finished (responseWord 0x00#8 (v.getD 0#1)))) := rfl

theorem othersIdle_iff (s : State) : othersIdle s = true ↔ s.OthersIdle := by
  simp only [othersIdle, List.all_eq_true, List.mem_range, State.OthersIdle]
  constructor
  · intro h c y hc hy
    have := h c (List.getElem?_eq_some_iff.mp hy).1
    simpa [hc, hy] using this
  · intro h c hc
    by_cases hcc : c = s.cur
    · simp [hcc]
    · obtain ⟨y, hy⟩ : ∃ y, s.ctxs[c]? = some y := ⟨_, List.getElem?_eq_getElem hc⟩
      simp [hy, h c y hcc hy]

/-! ### What an action can do -/

/-- The pin stores that are not direct ones: from the label of `x`, pin `p` to level `l`, on to the label `u`
(R122, R182, R183, R187). -/
inductive PinMove (x : Ctx) : Nat → Level → Upc → Prop where
  | green : x.upc = .shutdown .a0 → PinMove x 26 .low (.shutdown .a1)
  | red : x.upc = .shutdown .a1 → PinMove x 5 .low (.shutdown .a2)
  | rsLow : x.upc = .lcdinit .i1 → PinMove x 25 .low (.lcdinit .i2)
  | enLow : x.upc = .lcdinit .i2 → PinMove x 24 .low (.lcdinit .i3)
  | nibble {k : InitNibble} {n n' : NibbleLabel} {p : Nat} {l : Level} : x.upc = .lcdinit (.nibble k n) →
      nibbleStore (initNibbleValue k) n = some (p, l) → n.next = some n' → PinMove x p l (.lcdinit (.nibble k n'))
  | byte {rs : Rs} {b : Byte} {y y' : ByteLabel} {p : Nat} {l : Level} : x.sendingByte = some (rs, b, y) →
      byteStore rs b y = some (p, l) → y.next = some y' → PinMove x p l (x.upc.atByte y')

/-- The direct pin stores of WRITE and BLINK (R131, R170). -/
inductive DirectMove (x : Ctx) : Level → Upc → Prop where
  | write : x.upc = .write .a0 → DirectMove x x.level (.write .a1)
  | high : x.upc = .blink .b0 → DirectMove x .high (.blink .b1)
  | low : x.upc = .blink .b2 → DirectMove x .low (.blink .b3)

/-- The delays: from the label of `x`, how long, the context afterwards, and what else changes (R270, R290). -/
inductive DelayMove (x : Ctx) : Nat → Ctx → (State → State) → Prop where
  | press : x.upc = .waitbtn .p1 → DelayMove x 10000 { x with delayFrom := none, upc := .waitbtn .p0 } id
  | release : x.upc = .waitbtn .r1 → DelayMove x 10000 { x with delayFrom := none, upc := .waitbtn .r0 } id
  | settle : x.upc = .waitbtn .s0 → DelayMove x 50000 { x with delayFrom := none, upc := .waitbtn .s1 } id
  | blinkHigh : x.upc = .blink .b1 → DelayMove x 200000 { x with delayFrom := none, upc := .blink .b2 } id
  | blinkLow : x.upc = .blink .b3 →
      DelayMove x 200000 ({ x with delayFrom := none }.thenCompute .countDown blinkLoop) id
  | power : x.upc = .lcdinit .i3 →
      DelayMove x 15000 { x with delayFrom := none, upc := .lcdinit (.nibble .first .n0) } id
  | wait {k : InitNibble} : x.upc = .lcdinit (.wait k) →
      DelayMove x (initWait k) { x with delayFrom := none, upc := .lcdinit k.after }
        (fun s => { s with lcdState := lcdStateAfter k s.lcdState })
  | nibbleHigh {k : InitNibble} : x.upc = .lcdinit (.nibble k .n5) →
      DelayMove x 1 { x with delayFrom := none, upc := .lcdinit (.nibble k .n6) } id
  | nibbleLow {k : InitNibble} : x.upc = .lcdinit (.nibble k .n7) →
      DelayMove x 1 { x with delayFrom := none, upc := .lcdinit (.wait k) } id
  | byteHold {rs : Rs} {b : Byte} {y y' : ByteLabel} : x.sendingByte = some (rs, b, y) →
      byteDelay rs b y = some 1 → y.next = some y' →
      DelayMove x 1 { x with delayFrom := none, upc := x.upc.atByte y' } id
  | byteEnd {rs : Rs} {b : Byte} : x.sendingByte = some (rs, b, .y1) →
      DelayMove x (execWait rs b) { x with delayFrom := none }.afterByte (·.shadowUpdate rs b)

/-- Where `Acquire` goes, for the operations that need Ready (R189). -/
inductive AcquireMove (x : Ctx) : Ctx → Prop where
  | clear : x.upc = .lcdclear .acquire → AcquireMove x (x.goto (.lcdclear (.single .y0)))
  | cursor : x.upc = .lcdcursor .acquire → AcquireMove x (x.goto (.lcdcursor (.single .y0)))
  | str : x.upc = .lcdstr .acquire → AcquireMove x (x.thenCompute .firstChar (textLoop .lcdstr))
  | line : x.upc = .lcdline .acquire → AcquireMove x (x.goto (.lcdline (.single .y0)))
  | byte : x.upc = .lcdbyte .acquire → AcquireMove x (x.goto (.lcdbyte (.single .y0)))

/-- From `Release` to `Return` (R181). -/
inductive ReleaseMove (x : Ctx) : Upc → Prop where
  | init : x.upc = .lcdinit .i8 → ReleaseMove x (.lcdinit .i9)
  | clear : x.upc = .lcdclear .release → ReleaseMove x (.lcdclear .ret)
  | cursor : x.upc = .lcdcursor .release → ReleaseMove x (.lcdcursor .ret)
  | str : x.upc = .lcdstr .release → ReleaseMove x (.lcdstr .ret)
  | line : x.upc = .lcdline .release → ReleaseMove x (.lcdline .ret)
  | byte : x.upc = .lcdbyte .release → ReleaseMove x (.lcdbyte .ret)

/-- The labels whose action is `Return`, and the value they hand back (R9). -/
inductive ReturnMove (x : Ctx) : Option (BitVec 1) → Prop where
  | setmode : x.upc = .setmode .a4 → ReturnMove x none
  | write : x.upc = .write .a1 → ReturnMove x none
  | read : x.upc = .read .a1 → ReturnMove x (some x.res)
  | waitbtn : x.upc = .waitbtn .s1 → ReturnMove x none
  | blink : x.upc = .blink .b4 → ReturnMove x none
  | init : x.upc = .lcdinit .i9 → ReturnMove x none
  | clear : x.upc = .lcdclear .ret → ReturnMove x none
  | cursor : x.upc = .lcdcursor .ret → ReturnMove x none
  | str : x.upc = .lcdstr .ret → ReturnMove x none
  | line : x.upc = .lcdline .ret → ReturnMove x none
  | byte : x.upc = .lcdbyte .ret → ReturnMove x none

/-- A sample and where it goes (R132, R153). -/
inductive SampleMove (x : Ctx) (r : BitVec 1) : Upc → Prop where
  | read : x.upc = .read .a0 → SampleMove x r (.read .a1)
  | press : x.upc = .waitbtn .p0 → SampleMove x r (if r = 1#1 then .waitbtn .r0 else .waitbtn .p1)
  | release : x.upc = .waitbtn .r0 → SampleMove x r (if r = 0#1 then .waitbtn .s0 else .waitbtn .r1)

/-- The states that the action of a Running context can leave, `x` the context with its local computation done. -/
inductive Effect (x : Ctx) (s : State) : State → Prop where
  | opened : x.upc = .mapopen → s.mapState = .unmapped → s.openOutcome = .ok →
      Effect x s (({ s with mapState := .mapped }.record (.ret s.cur s.now none)).putCtx
        (x.finished (responseWord 0x00#8 0#1)))
  | openRefused : x.upc = .mapopen → s.mapState ≠ .unmapped → Effect x s (s.putCtx (x.refusedFor .alreadyOpened))
  | raised {e : InitError} : x.upc = .mapopen → s.mapState = .unmapped → s.openOutcome = .fails e →
      Effect x s (({ s with mapState := .failed e }.record (.err s.cur s.now e)).putCtx
        (x.finished (responseWord (errorCode e) 0#1)))
  | closed : x.upc = .mapclose ∨ x.upc = .shutdown .a2 → s.OthersIdle → s.lock = .free →
      Effect x s (({ s with mapState := .released }.record (.ret s.cur s.now none)).putCtx
        (x.finished (responseWord 0x00#8 0#1)))
  | closeRefused : x.upc = .mapclose ∨ x.upc = .shutdown .a2 → ¬(s.OthersIdle ∧ s.lock = .free) →
      Effect x s (s.putCtx (x.refusedFor .closeWhileBusy))
  | pin {p : Nat} {l : Level} {u : Upc} : PinMove x p l u → Effect x s ((s.storedPin p l).putCtx (x.goto u))
  | direct {l : Level} {u : Upc} : DirectMove x l u →
      Effect x s (((s.storedPin x.pin l).shadowLost x.pin).putCtx (x.goto u))
  | fselLoad {l : SetmodeLabel} : (x.upc = .setmode .a0 ∧ l = .a1) ∨ (x.upc = .setmode .a2 ∧ l = .a3) →
      fselWordOf x.pin < 6 →
      Effect x s ((s.record (.ld s.cur s.now (fselWordOf x.pin) (s.fsel.get (fselWordOf x.pin)))).putCtx
        { x with tmp := s.fsel.get (fselWordOf x.pin), upc := .setmode l })
  | fselStore {v : Word} {l : SetmodeLabel} :
      (x.upc = .setmode .a1 ∧ v = x.tmp &&& clearMask x.pin ∧ l = (if x.mode = .output then .a2 else .a4)) ∨
        (x.upc = .setmode .a3 ∧ v = x.tmp ||| outputPattern x.pin ∧ l = .a4) →
      fselWordOf x.pin < 6 →
      Effect x s (({ s with fsel := s.fsel.set (fselWordOf x.pin) v }.record
        (.st s.cur s.now (fselWordOf x.pin) v)).putCtx (x.goto (.setmode l)))
  /-- Only with a pin operand that no hand-over accepts (R228). -/
  | strayLoad {l : SetmodeLabel} (v : Word) : v = levelWord s.fsel s.out s.takeDraw.1 →
      (x.upc = .setmode .a0 ∧ l = .a1) ∨ (x.upc = .setmode .a2 ∧ l = .a3) → fselWordOf x.pin = 13 →
      Effect x s ((s.takeDraw.2.record (.ld s.cur s.now (fselWordOf x.pin) v)).putCtx
        { x with tmp := v, upc := .setmode l })
  /-- Only with a pin operand that no hand-over accepts (R228). -/
  | strayStore {v out : Word} {l : SetmodeLabel} : x.upc = .setmode .a1 ∧ (l = .a2 ∨ l = .a4) ∨
        x.upc = .setmode .a3 ∧ l = .a4 →
      fselWordOf x.pin = 7 ∨ fselWordOf x.pin = 10 →
      Effect x s (((s.driveOut out).record (.st s.cur s.now (fselWordOf x.pin) v)).putCtx (x.goto (.setmode l)))
  | sampled {u : Upc} (v : Word) : v = levelWord s.fsel s.out s.takeDraw.1 → SampleMove x (sampleOf v x.pin) u →
      Effect x s ((s.takeDraw.2.record (.ld s.cur s.now Config.levelWord v)).putCtx
        { x with tmp := v, res := sampleOf v x.pin, upc := u })
  | delayStarts {d : Nat} {y : Ctx} {f : State → State} : DelayMove x d y f → x.delayFrom = none →
      Effect x s (s.putCtx { x with wake := s.now + d, delayFrom := some s.now })
  | held {d : Nat} {y : Ctx} {f : State → State} {t0 : Nat} : DelayMove x d y f → x.delayFrom = some t0 →
      s.now < x.wake → Effect x s s
  | delayEnds {d : Nat} {y : Ctx} {f : State → State} {t0 : Nat} : DelayMove x d y f → x.delayFrom = some t0 →
      x.wake ≤ s.now → Effect x s ((f (s.record (.dly s.cur d t0 s.now))).putCtx y)
  | waits {c : Nat} : x.upc = .lcdinit .i0 ∨ (∃ y, AcquireMove x y) → s.lock = .held c → Effect x s s
  | initAcquired : x.upc = .lcdinit .i0 → s.lock = .free →
      Effect x s ({ { s with lock := .held s.cur }.record (.acq s.cur s.now) with
        lcdState := .fourBitModeNegotiating }.putCtx (x.goto (.lcdinit .i1)))
  | acquired {y : Ctx} : AcquireMove x y → s.lock = .free → s.lcdState = .ready →
      Effect x s (({ s with lock := .held s.cur }.record (.acq s.cur s.now)).putCtx y)
  | notReady {y : Ctx} : AcquireMove x y → s.lock = .free → s.lcdState ≠ .ready →
      Effect x s (({ s with lock := .held s.cur }.record (.acq s.cur s.now)).putCtx (x.refusedFor .lcdNotReady))
  | released {u : Upc} : ReleaseMove x u → s.lock = .held s.cur →
      Effect x s (({ s with lock := .free }.record (.rel s.cur s.now)).putCtx (x.goto u))
  | returned {v : Option (BitVec 1)} : ReturnMove x v →
      Effect x s ((s.record (.ret s.cur s.now v)).putCtx (x.finished (responseWord 0x00#8 (v.getD 0#1))))

theorem next_inj {s t : State} (h : (Host.Outcome.next s : Result) = .next t) : s = t := by
  cases h; rfl

/-- A delay action is one of its three cases. -/
theorem delayAct_effect {x y : Ctx} {s t : State} {d d' : Nat} {f : State → State} {k : Ctx → State → Result}
    (h : delayAct d' x s k = .next t) (hd : d' = d) (hm : DelayMove x d y f)
    (hk : ∀ r, k { x with delayFrom := none } r = .next ((f r).putCtx y)) : Effect x s t := by
  subst hd
  rcases delayAct_next h with ⟨h0, rfl⟩ | ⟨t0, h0, hl, rfl⟩ | ⟨t0, h0, hl, h1⟩
  · exact .delayStarts hm h0
  · exact .held hm h0 hl
  · rw [hk] at h1
    obtain rfl := next_inj h1
    exact .delayEnds hm h0 hl

/-- An action of a byte transmission (R183). -/
theorem byteAct_effect {x : Ctx} {s t : State} {rs : Rs} {b : Byte} {y : ByteLabel}
    (hs : x.sendingByte = some (rs, b, y)) (h : byteAct rs b y x s = .next t) : Effect x s t := by
  cases y with
  | y0 =>
    simp only [byteAct, pinWrite_stored] at h
    obtain rfl := next_inj h
    exact .pin (.byte hs (by cases rs <;> rfl) rfl)
  | y1 =>
    simp only [byteAct] at h
    exact delayAct_effect h rfl (.byteEnd hs) fun r => rfl
  | high n =>
    cases n <;> simp only [byteAct, nibbleAct, pinWrite_stored] at h
    case n5 => exact delayAct_effect h rfl (.byteHold hs rfl rfl) fun r => rfl
    case n7 => exact delayAct_effect h rfl (.byteHold hs rfl rfl) fun r => rfl
    all_goals
      obtain rfl := next_inj h
      exact .pin (.byte hs rfl rfl)
  | low n =>
    cases n <;> simp only [byteAct, nibbleAct, pinWrite_stored] at h
    case n5 => exact delayAct_effect h rfl (.byteHold hs rfl rfl) fun r => rfl
    case n7 => exact delayAct_effect h rfl (.byteHold hs rfl rfl) fun r => rfl
    all_goals
      obtain rfl := next_inj h
      exact .pin (.byte hs rfl rfl)

/-- An action of a nibble of the initialization (R187). -/
theorem initNibbleAct_effect {x : Ctx} {s t : State} {k : InitNibble} {n : NibbleLabel}
    (hu : x.upc = .lcdinit (.nibble k n)) (h : initNibbleAct k n x s = .next t) : Effect x s t := by
  cases n <;> simp only [initNibbleAct, nibbleAct, pinWrite_stored] at h
  case n5 => exact delayAct_effect h rfl (.nibbleHigh hu) fun r => rfl
  case n7 => exact delayAct_effect h rfl (.nibbleLow hu) fun r => rfl
  all_goals
    obtain rfl := next_inj h
    exact .pin (.nibble hu rfl rfl)

/-- The closing action (R121). -/
theorem closeAct_effect {x : Ctx} {s t : State} (hu : x.upc = .mapclose ∨ x.upc = .shutdown .a2)
    (h : closeAct x s = .next t) : Effect x s t := by
  rcases closeAct_next h with ⟨ho, hl, h⟩ | ⟨hn, h⟩
  · rw [returnAct_eq] at h
    obtain rfl := next_inj h
    exact .closed hu ((othersIdle_iff s).1 ho) hl
  · obtain rfl := next_inj h
    refine .closeRefused hu ?_
    rintro ⟨h1, h2⟩
    rcases hn with hn | hn
    · rw [(othersIdle_iff s).2 h1] at hn; cases hn
    · exact hn h2

/-- The operations that need Ready (R189 to R195). -/
theorem lcdAct_effect {x : Ctx} {s t : State} {mk : LcdLabel → Upc} {begin : Ctx → Ctx} {l : LcdLabel}
    (ha : l = .acquire → AcquireMove x (begin x)) (hr : l = .release → ReleaseMove x (mk .ret))
    (he : l = .ret → ReturnMove x none) (h : lcdAct mk begin l x s = .next t) : Effect x s t := by
  cases l with
  | acquire =>
    simp only [lcdAct] at h
    rcases acquireAct_next h with ⟨hl, rfl⟩ | ⟨hl, h⟩
    · cases hc : t.lock with
      | free => exact absurd hc hl
      | held c => exact .waits (.inr ⟨_, ha rfl⟩) hc
    · split at h <;> rename_i hs
      · obtain rfl := next_inj h
        exact .acquired (ha rfl) hl hs
      · obtain rfl := next_inj h
        exact .notReady (ha rfl) hl hs
  | single y =>
    simp only [lcdAct] at h
    split at h
    · exact byteAct_effect ‹_› h
    · cases h
  | text y =>
    simp only [lcdAct] at h
    split at h
    · exact byteAct_effect ‹_› h
    · cases h
  | release =>
    simp only [lcdAct] at h
    have := releaseAct_next h
    obtain rfl := next_inj this.2
    exact .released (hr rfl) this.1
  | ret =>
    simp only [lcdAct, returnAct_eq] at h
    obtain rfl := next_inj h
    exact .returned (he rfl)

/-- A sample (R132, R153). -/
theorem sampleAct_effect {x : Ctx} {s t : State} {u : BitVec 1 → Upc} (hm : ∀ r, SampleMove x r (u r))
    (h : sampleAct x s (fun y s => .next (s.putCtx (y.goto (u y.res)))) = .next t) : Effect x s t := by
  simp only [sampleAct, loadAct_level] at h
  obtain rfl := next_inj h
  exact .sampled _ rfl (hm _)

/-- Every next state of an action is one of these effects. -/
theorem runningAct_effect {x : Ctx} {s t : State} (h : runningAct x s = .next t) : Effect x s t := by
  unfold runningAct at h
  split at h
  case h_1 => cases h
  case h_2 hu =>
    simp only [mapopenAct] at h
    split at h
    · split at h
      · obtain rfl := next_inj h; exact .opened hu ‹_› ‹_›
      · obtain rfl := next_inj h; exact .raised hu ‹_› ‹_›
    · obtain rfl := next_inj h; exact .openRefused hu ‹_›
  case h_3 hu => exact closeAct_effect (.inl hu) h
  case h_4 l hu =>
    cases l <;> simp only [shutdownAct, pinWrite_stored] at h
    · obtain rfl := next_inj h; exact .pin (.green hu)
    · obtain rfl := next_inj h; exact .pin (.red hu)
    · exact closeAct_effect (.inr hu) h
  case h_5 l hu =>
    cases l <;> simp only [setmodeAct] at h
    · rcases loadAct_next h with ⟨hw, h⟩ | ⟨hw, h⟩ <;> obtain rfl := next_inj h
      · exact .fselLoad (.inl ⟨hu, rfl⟩) hw
      · rw [← hw]; exact .strayLoad _ rfl (.inl ⟨hu, rfl⟩) hw
    · rcases storeAct_next h with ⟨hw, h⟩ | ⟨out, hw, h⟩
      · cases hm : x.mode <;> simp only [hm] at h <;> obtain rfl := next_inj h
        · exact .fselStore (l := .a4) (.inl ⟨hu, rfl, by simp [hm]⟩) hw
        · exact .fselStore (l := .a2) (.inl ⟨hu, rfl, by simp [hm]⟩) hw
      · cases hm : x.mode <;> simp only [hm] at h <;> obtain rfl := next_inj h
        · exact .strayStore (.inl ⟨hu, .inr rfl⟩) hw
        · exact .strayStore (.inl ⟨hu, .inl rfl⟩) hw
    · rcases loadAct_next h with ⟨hw, h⟩ | ⟨hw, h⟩ <;> obtain rfl := next_inj h
      · exact .fselLoad (.inr ⟨hu, rfl⟩) hw
      · rw [← hw]; exact .strayLoad _ rfl (.inr ⟨hu, rfl⟩) hw
    · rcases storeAct_next h with ⟨hw, h⟩ | ⟨out, hw, h⟩ <;> obtain rfl := next_inj h
      · exact .fselStore (.inr ⟨hu, rfl, rfl⟩) hw
      · exact .strayStore (.inr ⟨hu, rfl⟩) hw
    · rw [returnAct_eq] at h; obtain rfl := next_inj h; exact .returned (.setmode hu)
  case h_6 l hu =>
    cases l <;> simp only [writeAct, directPinWrite_stored] at h
    · obtain rfl := next_inj h; exact .direct (.write hu)
    · rw [returnAct_eq] at h; obtain rfl := next_inj h; exact .returned (.write hu)
  case h_7 l hu =>
    cases l <;> simp only [readAct] at h
    · exact sampleAct_effect (u := fun _ => .read .a1) (fun _ => .read hu) h
    · rw [returnAct_eq] at h; obtain rfl := next_inj h; exact .returned (.read hu)
  case h_8 l hu =>
    cases l <;> simp only [waitbtnAct] at h
    · exact sampleAct_effect (u := fun r => if r = 1#1 then .waitbtn .r0 else .waitbtn .p1) (fun _ => .press hu) h
    · exact delayAct_effect h rfl (.press hu) fun r => rfl
    · exact sampleAct_effect (u := fun r => if r = 0#1 then .waitbtn .s0 else .waitbtn .r1) (fun _ => .release hu) h
    · exact delayAct_effect h rfl (.release hu) fun r => rfl
    · exact delayAct_effect h rfl (.settle hu) fun r => rfl
    · rw [returnAct_eq] at h; obtain rfl := next_inj h; exact .returned (.waitbtn hu)
  case h_9 l hu =>
    cases l <;> simp only [blinkAct, directPinWrite_stored] at h
    · obtain rfl := next_inj h; exact .direct (.high hu)
    · exact delayAct_effect h rfl (.blinkHigh hu) fun r => rfl
    · obtain rfl := next_inj h; exact .direct (.low hu)
    · exact delayAct_effect h rfl (.blinkLow hu) fun r => rfl
    · rw [returnAct_eq] at h; obtain rfl := next_inj h; exact .returned (.blink hu)
  case h_10 l hu =>
    cases l <;> simp only [lcdinitAct, pinWrite_stored] at h
    · rcases acquireAct_next h with ⟨hl, rfl⟩ | ⟨hl, h⟩
      · cases hc : t.lock with
        | free => exact absurd hc hl
        | held c => exact .waits (.inl hu) hc
      · obtain rfl := next_inj h; exact .initAcquired hu hl
    · obtain rfl := next_inj h; exact .pin (.rsLow hu)
    · obtain rfl := next_inj h; exact .pin (.enLow hu)
    · exact delayAct_effect h rfl (.power hu) fun r => rfl
    · exact initNibbleAct_effect hu h
    · exact delayAct_effect h rfl (.wait hu) fun r => rfl
    · exact byteAct_effect (by simp [Ctx.sendingByte, hu]) h
    · have := releaseAct_next h
      obtain rfl := next_inj this.2
      exact .released (.init hu) this.1
    · rw [returnAct_eq] at h; obtain rfl := next_inj h; exact .returned (.init hu)
  case h_11 l hu =>
    exact lcdAct_effect (fun e => .clear (e ▸ hu)) (fun e => .clear (e ▸ hu)) (fun e => .clear (e ▸ hu)) h
  case h_12 l hu =>
    exact lcdAct_effect (fun e => .cursor (e ▸ hu)) (fun e => .cursor (e ▸ hu)) (fun e => .cursor (e ▸ hu)) h
  case h_13 l hu =>
    exact lcdAct_effect (fun e => .str (e ▸ hu)) (fun e => .str (e ▸ hu)) (fun e => .str (e ▸ hu)) h
  case h_14 l hu =>
    exact lcdAct_effect (fun e => .line (e ▸ hu)) (fun e => .line (e ▸ hu)) (fun e => .line (e ▸ hu)) h
  case h_15 l hu =>
    exact lcdAct_effect (fun e => .byte (e ▸ hu)) (fun e => .byte (e ▸ hu)) (fun e => .byte (e ▸ hu)) h

/-! ### What a step can do -/

theorem takesTurn_iff {s s1 : State} {tn : Turn} : s.TakesTurn tn s1 ↔ s.takeTurn = (tn, s1) := by
  unfold State.TakesTurn State.takeTurn
  cases h : s.agenda <;> simp <;> grind

theorem takesTurn_ctxs {s s1 : State} {tn : Turn} (h : s.TakesTurn tn s1) : s1.ctxs = s.ctxs := by
  rcases h with ⟨ts, h, rfl⟩ | ⟨h, h2, rfl⟩ <;> rfl

theorem whenReservedZero_ok {z : Bool} {o : Option Instr} {rest rest' : List Word} {i : Instr}
    (h : whenReservedZero z o rest = .ok (i, rest')) : z = true ∧ o = some i ∧ rest' = rest := by
  unfold whenReservedZero at h
  split at h
  · cases h; exact ⟨rfl, rfl, rfl⟩
  · cases h

/-- Only requests are taken from the requester's words (R94, R105). -/
theorem decodeRequest_isRequest {ws rest : List Word} {i : Instr} (h : decodeRequest ws = .ok (i, rest)) :
    isRequest i = true := by
  cases ws with
  | nil => cases h
  | cons r ws =>
    simp only [decodeRequest] at h
    split at h
    case h_12 =>
      split at h
      · simp only [withText] at h
        split at h
        · cases h
        · cases h; rfl
      · cases h
    case h_13 =>
      simp only [withText] at h
      split at h
      · cases h
      · cases h; rfl
    case h_15 => cases h
    all_goals
      obtain ⟨_, hi, _⟩ := whenReservedZero_ok h
      simp only [Option.some.injEq, Option.map_eq_some_iff] at hi
      first
        | (subst hi; rfl)
        | (obtain ⟨_, _, rfl⟩ := hi; rfl)

/-- The instruction a context is in the middle of answers what the action the context is at answers (R24). -/
theorem exec_instr_running {s t : State} {x : Ctx} {i : Instr} (hm : s.me = some x) (hr : x.status = .running)
    (h : exec i s = .next t) : Effect x.computed s t :=
  runningAct_effect (exec_running hm hr h)

/-- Everything a step that answers a next state can have done: the clock ticked, nothing was enabled, a request was
refused as illegal, a request was handed over, or a Running context took its action. -/
theorem step_cases {s t : State} (h : step s = .next t) :
    ∃ tn s1, s.TakesTurn tn s1 ∧
      ((∃ e, tn = .clock e ∧ t = s1.tick e) ∨
        ∃ c, tn = .context c ∧
          (t = s1 ∨ t = { s1 with cur := c } ∨
            ∃ x, s1.ctxs[c]? = some x ∧
              ((x.status = .idle ∧ (∃ e, decodeRequest x.todo = .error e ∧ e ≠ .incomplete) ∧
                  t = ({ s1 with cur := c } : State).putCtx (x.refusedFor .illegalRequest)) ∨
                (x.status = .idle ∧ ∃ i rest, decodeRequest x.todo = .ok (i, rest) ∧ isRequest i = true ∧
                  t = ({ s1 with cur := c } : State).putCtx
                    (match s1.refusalOf i with
                    | some r => { x with todo := rest }.refusedFor r
                    | none => { x with todo := rest }.handed i)) ∨
                (x.status = .running ∧ Effect x.computed { s1 with cur := c } t)))) := by
  refine ⟨s.takeTurn.1, s.takeTurn.2, takesTurn_iff.2 rfl, ?_⟩
  have h' : runTurn s.takeTurn.1 s.takeTurn.2 = .next t := h
  generalize s.takeTurn.1 = tn at *
  generalize s.takeTurn.2 = s1 at *
  cases tn with
  | clock e => exact .inl ⟨e, rfl, (next_inj h').symm⟩
  | context c =>
    refine .inr ⟨c, rfl, ?_⟩
    simp only [runTurn] at h'
    split at h'
    · simp only [contextTurn, fetch] at h'
      cases hx : s1.ctxs[c]? with
      | none =>
        simp only [hx] at h'
        exact .inr (.inl (next_inj h').symm)
      | some x =>
        simp only [hx] at h'
        cases hst : x.status with
        | refused r =>
          simp only [hst] at h'
          exact .inr (.inl (next_inj h').symm)
        | running =>
          simp only [hst] at h'
          refine .inr (.inr ⟨x, rfl, .inr (.inr ⟨hst, ?_⟩)⟩)
          cases hi : x.computed.instr with
          | none => simp only [hi] at h'; cases h'
          | some i =>
            simp only [hi] at h'
            exact exec_instr_running hx hst h'
        | idle =>
          simp only [hst] at h'
          cases hd : decodeRequest x.todo with
          | error e =>
            simp only [hd] at h'
            cases e
            case incomplete => exact .inr (.inl (next_inj h').symm)
            all_goals exact .inr (.inr ⟨x, rfl, .inl ⟨hst, ⟨_, hd, by simp⟩, (next_inj h').symm⟩⟩)
          | ok ir =>
            obtain ⟨i, rest⟩ := ir
            simp only [hd] at h'
            have hq := decodeRequest_isRequest hd
            refine .inr (.inr ⟨x, rfl, .inr (.inl ⟨hst, i, rest, hd, hq, ?_⟩)⟩)
            have hlt : c < s1.ctxs.length := (List.getElem?_eq_some_iff.mp hx).1
            have hm : ((({ s1 with cur := c } : State).putCtx { x with todo := rest }).ctxs)[c]? =
                some { x with todo := rest } := by
              simp [State.putCtx, hlt]
            have he := exec_idle (i := i) hm (by exact hst) hq
            have e : ({ x with status := .idle, todo := rest } : Ctx) = { x with todo := rest } := by rw [← hst]
            rw [e, he, handedOver] at h'
            have := (next_inj h').symm
            rw [this]
            have hr : (({ s1 with cur := c } : State).putCtx { x with todo := rest }).refusalOf i = s1.refusalOf i := rfl
            rw [hr]
            cases s1.refusalOf i <;> simp [State.putCtx]
    · exact .inl (next_inj h').symm

end Sys2Proof.Machine
end

