-- ==== Sys2Proof/Laws/Moves.lean ====
section
/-! SUPPORT. How an invariant is shown to be kept by every step, and what each move of Effects.lean does to the lock's
critical region and to delays. -/

namespace Sys2Proof.Machine

/-! ### Updates of Safety.lean, field by field -/

@[simp] theorem State.storedPin_ctxs (s : State) (p : Nat) (l : Level) : (s.storedPin p l).ctxs = s.ctxs := rfl
@[simp] theorem State.storedPin_fsel (s : State) (p : Nat) (l : Level) : (s.storedPin p l).fsel = s.fsel := rfl
@[simp] theorem State.storedPin_mapState (s : State) (p : Nat) (l : Level) : (s.storedPin p l).mapState = s.mapState := rfl
@[simp] theorem State.storedPin_lcdState (s : State) (p : Nat) (l : Level) : (s.storedPin p l).lcdState = s.lcdState := rfl
@[simp] theorem State.storedPin_lock (s : State) (p : Nat) (l : Level) : (s.storedPin p l).lock = s.lock := rfl
@[simp] theorem State.storedPin_lcdCursor (s : State) (p : Nat) (l : Level) : (s.storedPin p l).lcdCursor = s.lcdCursor := rfl
@[simp] theorem State.storedPin_lcdDisplayOn (s : State) (p : Nat) (l : Level) : (s.storedPin p l).lcdDisplayOn = s.lcdDisplayOn := rfl
@[simp] theorem State.storedPin_now (s : State) (p : Nat) (l : Level) : (s.storedPin p l).now = s.now := rfl
@[simp] theorem State.storedPin_lcdCols (s : State) (p : Nat) (l : Level) : (s.storedPin p l).lcdCols = s.lcdCols := rfl
@[simp] theorem State.storedPin_openOutcome (s : State) (p : Nat) (l : Level) : (s.storedPin p l).openOutcome = s.openOutcome := rfl
@[simp] theorem State.storedPin_draws (s : State) (p : Nat) (l : Level) : (s.storedPin p l).draws = s.draws := rfl
@[simp] theorem State.storedPin_drawn (s : State) (p : Nat) (l : Level) : (s.storedPin p l).drawn = s.drawn := rfl
@[simp] theorem State.storedPin_agenda (s : State) (p : Nat) (l : Level) : (s.storedPin p l).agenda = s.agenda := rfl
@[simp] theorem State.storedPin_turns (s : State) (p : Nat) (l : Level) : (s.storedPin p l).turns = s.turns := rfl
@[simp] theorem State.storedPin_cur (s : State) (p : Nat) (l : Level) : (s.storedPin p l).cur = s.cur := rfl
@[simp] theorem State.storedPin_out (s : State) (p : Nat) (l : Level) :
    (s.storedPin p l).out = outAfter s.out p l := rfl
@[simp] theorem State.storedPin_hist (s : State) (p : Nat) (l : Level) :
    (s.storedPin p l).hist = s.hist ++ [pinEvent s.cur s.now p l] := rfl
@[simp] theorem State.storedPin_latches (s : State) (p : Nat) (l : Level) :
    (s.storedPin p l).latches = s.latches ++ latchEvents s.fsel s.out (outAfter s.out p l) := rfl

@[simp] theorem State.shadowLost_ctxs (s : State) (p : Nat) : (s.shadowLost p).ctxs = s.ctxs := by
  unfold State.shadowLost; split <;> rfl
@[simp] theorem State.shadowLost_fsel (s : State) (p : Nat) : (s.shadowLost p).fsel = s.fsel := by
  unfold State.shadowLost; split <;> rfl
@[simp] theorem State.shadowLost_mapState (s : State) (p : Nat) : (s.shadowLost p).mapState = s.mapState := by
  unfold State.shadowLost; split <;> rfl
@[simp] theorem State.shadowLost_lcdState (s : State) (p : Nat) : (s.shadowLost p).lcdState = s.lcdState := by
  unfold State.shadowLost; split <;> rfl
@[simp] theorem State.shadowLost_lock (s : State) (p : Nat) : (s.shadowLost p).lock = s.lock := by
  unfold State.shadowLost; split <;> rfl
@[simp] theorem State.shadowLost_now (s : State) (p : Nat) : (s.shadowLost p).now = s.now := by
  unfold State.shadowLost; split <;> rfl
@[simp] theorem State.shadowLost_lcdCols (s : State) (p : Nat) : (s.shadowLost p).lcdCols = s.lcdCols := by
  unfold State.shadowLost; split <;> rfl
@[simp] theorem State.shadowLost_openOutcome (s : State) (p : Nat) : (s.shadowLost p).openOutcome = s.openOutcome := by
  unfold State.shadowLost; split <;> rfl
@[simp] theorem State.shadowLost_draws (s : State) (p : Nat) : (s.shadowLost p).draws = s.draws := by
  unfold State.shadowLost; split <;> rfl
@[simp] theorem State.shadowLost_drawn (s : State) (p : Nat) : (s.shadowLost p).drawn = s.drawn := by
  unfold State.shadowLost; split <;> rfl
@[simp] theorem State.shadowLost_agenda (s : State) (p : Nat) : (s.shadowLost p).agenda = s.agenda := by
  unfold State.shadowLost; split <;> rfl
@[simp] theorem State.shadowLost_turns (s : State) (p : Nat) : (s.shadowLost p).turns = s.turns := by
  unfold State.shadowLost; split <;> rfl
@[simp] theorem State.shadowLost_cur (s : State) (p : Nat) : (s.shadowLost p).cur = s.cur := by
  unfold State.shadowLost; split <;> rfl
@[simp] theorem State.shadowLost_out (s : State) (p : Nat) : (s.shadowLost p).out = s.out := by
  unfold State.shadowLost; split <;> rfl
@[simp] theorem State.shadowLost_hist (s : State) (p : Nat) : (s.shadowLost p).hist = s.hist := by
  unfold State.shadowLost; split <;> rfl
@[simp] theorem State.shadowLost_latches (s : State) (p : Nat) : (s.shadowLost p).latches = s.latches := by
  unfold State.shadowLost; split <;> rfl

/-! ### Keeping an invariant -/

theorem getElem?_set_cur {s : State} {x y : Ctx} (h : s.ctxs[s.cur]? = some x) (c : Nat) :
    (s.ctxs.set s.cur y)[c]? = if c = s.cur then some y else s.ctxs[c]? := by
  have := (List.getElem?_eq_some_iff.mp h).1
  by_cases hc : c = s.cur
  · subst hc; simp [this]
  · simp [hc, Ne.symm hc]

theorem set_cur_self {s : State} {x : Ctx} (h : s.ctxs[s.cur]? = some x) : s.ctxs.set s.cur x = s.ctxs := by
  apply List.ext_getElem?
  intro c
  rw [getElem?_set_cur h]
  split
  · rename_i hc; rw [hc, h]
  · rfl

/-- Taking a turn touches only the scheduler's two fields. -/
theorem takesTurn_frame {s s1 : State} {t : Turn} (h : s.TakesTurn t s1) :
    ∃ ag n, s1 = { s with agenda := ag, turns := n } := by
  rcases h with ⟨ts, h, rfl⟩ | ⟨h, h2, rfl⟩
  · exact ⟨ts, s.turns, rfl⟩
  · exact ⟨s.agenda, _, rfl⟩

/-- Taking a draw touches only the two fields of the draws. -/
theorem takeDraw_frame (s : State) : ∃ ds n, s.takeDraw.2 = { s with draws := ds, drawn := n } := by
  unfold State.takeDraw
  cases h : s.draws with
  | cons d ds => exact ⟨ds, s.drawn, rfl⟩
  | nil => exact ⟨[], s.drawn + 1, by simp [← h]⟩

/-- An accepted request leaves its context Running at the first action, with no delay and no response (R93). -/
theorem handed_fields (x : Ctx) (i : Instr) (h : isRequest i = true) :
    (x.handed i).status = .running ∧ (x.handed i).upc = firstUpc i ∧ (x.handed i).delayFrom = none ∧
      (x.handed i).response = none ∧ (x.handed i).todo = x.todo := by
  cases i <;> first | exact ⟨rfl, rfl, rfl, rfl, rfl⟩ | simp [isRequest, encode] at h

/-- What every step keeps: it is enough that a turn taken, a tick, a refusal, a hand-over and every action keep it. -/
theorem step_keeps (P : State → Prop)
    (hframe : ∀ s ag n, P s → P { s with agenda := ag, turns := n })
    (hcur : ∀ s c, P s → P { s with cur := c })
    (htick : ∀ s e, P s → P (s.tick e))
    (hillegal : ∀ (s : State) x, s.ctxs[s.cur]? = some x → x.status = .idle → P s →
      P (s.putCtx (x.refusedFor .illegalRequest)))
    (hrefused : ∀ (s : State) x i rest r, s.ctxs[s.cur]? = some x → x.status = .idle → isRequest i = true →
      s.refusalOf i = some r → decodeRequest x.todo = .ok (i, rest) → P s →
      P (s.putCtx ({ x with todo := rest }.refusedFor r)))
    (hhanded : ∀ (s : State) x i rest, s.ctxs[s.cur]? = some x → x.status = .idle → isRequest i = true →
      s.refusalOf i = none → decodeRequest x.todo = .ok (i, rest) → P s →
      P (s.putCtx ({ x with todo := rest }.handed i)))
    (heffect : ∀ (s t : State) x, s.ctxs[s.cur]? = some x → x.status = .running → Effect x.computed s t → P s → P t)
    (s t : State) (hs : P s) (h : step s = .next t) : P t := by
  obtain ⟨tn, s1, htt, hc⟩ := step_cases h
  obtain ⟨ag, n, rfl⟩ := takesTurn_frame htt
  have h1 := hframe s ag n hs
  rcases hc with ⟨e, rfl, rfl⟩ |
    ⟨c, rfl, rfl | rfl | ⟨x, hx, ⟨hi, _, rfl⟩ | ⟨hi, i, rest, hd, hq, rfl⟩ | ⟨hr, he⟩⟩⟩
  · exact htick _ _ h1
  · exact h1
  · exact hcur _ _ h1
  · exact hillegal _ x hx hi (hcur _ _ h1)
  · split
    · rename_i r hr; exact hrefused _ x i rest _ hx hi hq hr hd (hcur _ _ h1)
    · rename_i hr; exact hhanded _ x i rest hx hi hq hr hd (hcur _ _ h1)
  · exact heffect _ _ x hx hr he (hcur _ _ h1)

/-! ### Where a byte transmission stands -/

theorem sendingByte_critical {x : Ctx} {r : Rs × Byte × ByteLabel} (h : x.sendingByte = some r) :
    x.upc.critical = true ∧ x.upc.negotiating = false ∧
      ∀ y, (x.upc.atByte y).critical = true ∧ (x.upc.atByte y).negotiating = false := by
  unfold Ctx.sendingByte at h
  split at h <;> first
    | (cases h; done)
    | (rename_i hu
       simp [hu, Upc.critical, Upc.negotiating, InitLabel.critical, InitLabel.negotiating, LcdLabel.critical,
         Upc.atByte])

theorem sendingByte_atByte {x : Ctx} {rs : Rs} {b : Byte} {y : ByteLabel} (h : x.sendingByte = some (rs, b, y))
    (y' : ByteLabel) : ({ x with upc := x.upc.atByte y' } : Ctx).sendingByte = some (rs, b, y') := by
  unfold Ctx.sendingByte at h
  split at h <;> first
    | (cases h; done)
    | (rename_i hu; cases h; simp [hu, Upc.atByte, Ctx.sendingByte, Ctx.rs, Ctx.char])

theorem sendingByte_delayLength {x : Ctx} {rs : Rs} {b : Byte} {y : ByteLabel}
    (h : x.sendingByte = some (rs, b, y)) : x.delayLength = byteDelay rs b y := by
  have h' := h
  unfold Ctx.sendingByte at h
  split at h <;> first
    | (cases h; done)
    | (rename_i hu; cases h; unfold Ctx.delayLength; simp only [hu, h'])

theorem textLoop_critical (x : Ctx) (k : Between) (mk : LcdLabel → Upc) (h : mk = .lcdstr ∨ mk = .lcdline) :
    (x.thenCompute k (textLoop mk)).upc.critical = true ∧ (x.thenCompute k (textLoop mk)).upc.negotiating = false ∧
      (x.thenCompute k (textLoop mk)).status = x.status := by
  rw [Ctx.thenCompute_upc]
  unfold textLoop
  rcases h with rfl | rfl <;> split <;> exact ⟨rfl, rfl, rfl⟩

theorem afterByte_critical {x : Ctx} {r : Rs × Byte × ByteLabel} (h : x.sendingByte = some r) :
    x.afterByte.upc.critical = true ∧ x.afterByte.upc.negotiating = false ∧ x.afterByte.status = x.status := by
  unfold Ctx.sendingByte at h
  unfold Ctx.afterByte
  split at h <;> first | (cases h; done) | skip
  all_goals (rename_i hu; try simp only [hu])
  · rename_i k y; cases k <;> exact ⟨rfl, rfl, rfl⟩
  · exact ⟨rfl, rfl, rfl⟩
  · exact ⟨rfl, rfl, rfl⟩
  · exact ⟨rfl, rfl, rfl⟩
  · exact textLoop_critical _ _ _ (.inr rfl)
  · exact textLoop_critical _ _ _ (.inr rfl)
  · exact textLoop_critical _ _ _ (.inl rfl)

/-- What the end of a byte leaves alone. -/
theorem afterByte_fields (x : Ctx) :
    x.afterByte.todo = x.todo ∧ x.afterByte.a = x.a ∧ x.afterByte.b = x.b ∧ x.afterByte.c = x.c ∧
      x.afterByte.text = x.text ∧ x.afterByte.delayFrom = x.delayFrom ∧ x.afterByte.status = x.status ∧
      x.afterByte.response = x.response ∧ x.afterByte.cnt = x.cnt ∧ x.afterByte.idx = x.idx := by
  unfold Ctx.afterByte
  split <;> exact ⟨rfl, rfl, rfl, rfl, rfl, rfl, rfl, rfl, rfl, rfl⟩

/-! ### What each move does to the critical region (R190) -/

theorem PinMove.critical {x : Ctx} {p : Nat} {l : Level} {u : Upc} (h : PinMove x p l u) :
    u.critical = x.upc.critical ∧ u.negotiating = x.upc.negotiating := by
  cases h with
  | byte h1 h2 h3 => have := sendingByte_critical h1; simp [this.1, this.2.1, this.2.2 _]
  | nibble hu _ _ => simp [hu, Upc.critical, Upc.negotiating, InitLabel.critical, InitLabel.negotiating]
  | _ hu => simp [hu, Upc.critical, Upc.negotiating, InitLabel.critical, InitLabel.negotiating]

theorem DelayMove.critical {x y : Ctx} {d : Nat} {f : State → State} (h : DelayMove x d y f) :
    y.upc.critical = x.upc.critical ∧ y.status = x.status := by
  cases h with
  | byteHold h1 h2 h3 => have := sendingByte_critical h1; simp [this.1, this.2.2 _]
  | byteEnd h1 =>
    have h2 := afterByte_critical (x := { x with delayFrom := none }) (r := (_, _, .y1)) h1
    exact ⟨by rw [h2.1, (sendingByte_critical h1).1], h2.2.2⟩
  | wait hu =>
    rename_i k
    cases k <;> simp [hu, Upc.critical, InitLabel.critical, InitNibble.after]
  | blinkLow hu => refine ⟨?_, rfl⟩; rw [Ctx.thenCompute_upc]; unfold blinkLoop; rw [hu]; split <;> rfl
  | _ hu => simp [hu, Upc.critical, InitLabel.critical]

theorem AcquireMove.critical {x y : Ctx} (h : AcquireMove x y) :
    x.upc.critical = false ∧ y.upc.critical = true ∧ y.upc.negotiating = false ∧ y.status = x.status := by
  cases h with
  | str hu =>
    have := textLoop_critical x .firstChar .lcdstr (.inl rfl)
    refine ⟨?_, this⟩
    simp [hu, Upc.critical, LcdLabel.critical]
  | _ hu => simp [hu, Upc.critical, Upc.negotiating, LcdLabel.critical, Ctx.goto]

theorem ReleaseMove.critical {x : Ctx} {u : Upc} (h : ReleaseMove x u) :
    x.upc.critical = true ∧ u.critical = false := by
  cases h <;> simp_all [Upc.critical, InitLabel.critical, LcdLabel.critical]

theorem DirectMove.critical {x : Ctx} {l : Level} {u : Upc} (h : DirectMove x l u) :
    x.upc.critical = false ∧ u.critical = false := by
  cases h <;> simp_all [Upc.critical]

theorem SampleMove.critical {x : Ctx} {r : BitVec 1} {u : Upc} (h : SampleMove x r u) :
    x.upc.critical = false ∧ u.critical = false := by
  cases h <;> refine ⟨by simp_all [Upc.critical], ?_⟩ <;>
    first | (split <;> simp [Upc.critical]) | simp [Upc.critical]

theorem ReturnMove.critical {x : Ctx} {v : Option (BitVec 1)} (h : ReturnMove x v) : x.upc.critical = false := by
  cases h <;> simp_all [Upc.critical, InitLabel.critical, LcdLabel.critical]

theorem firstUpc_critical (i : Instr) : (firstUpc i).critical = false := by
  cases i
  case blink p n => exact (show (if n = 0#16 then Upc.blink .b4 else Upc.blink .b0).critical = false by split <;> rfl)
  all_goals rfl

/-! ### Which labels are delays (R290) -/

/-- How long the action of a context takes does not depend on the local computation before it: every character of a text
takes the same wait (R184). -/
@[simp] theorem delayLength_computed (x : Ctx) : x.computed.delayLength = x.delayLength := by
  unfold Ctx.delayLength Ctx.sendingByte
  rw [Ctx.computed_upc]
  cases x.upc with
  | none => rfl
  | mapopen => rfl
  | mapclose => rfl
  | _ l => cases l <;> rfl

theorem DelayMove.length {x y : Ctx} {d : Nat} {f : State → State} (h : DelayMove x d y f) :
    x.delayLength = some d ∧ y.delayFrom = none := by
  cases h with
  | byteHold h1 h2 h3 => exact ⟨by rw [sendingByte_delayLength h1, h2], rfl⟩
  | byteEnd h1 => exact ⟨by rw [sendingByte_delayLength h1]; rfl, (afterByte_fields _).2.2.2.2.2.1⟩
  | _ hu => simp [Ctx.delayLength, hu, nibbleDelay]

theorem PinMove.noDelay {x : Ctx} {p : Nat} {l : Level} {u : Upc} (h : PinMove x p l u) : x.delayLength = none := by
  cases h with
  | byte h1 h2 h3 =>
    rw [sendingByte_delayLength h1]
    rename_i y _
    cases y with
    | y0 => rfl
    | y1 => cases h2
    | high n => cases n <;> first | rfl | cases h2
    | low n => cases n <;> first | rfl | cases h2
  | @nibble k n _ _ _ hu h2 _ =>
    simp only [Ctx.delayLength, hu]
    cases n <;> first | rfl | simp [nibbleStore] at h2
  | _ hu => simp [Ctx.delayLength, hu, Ctx.sendingByte]

theorem AcquireMove.noDelay {x y : Ctx} (h : AcquireMove x y) :
    x.delayLength = none ∧ y.delayFrom = x.delayFrom := by
  cases h with
  | str hu => exact ⟨by simp [Ctx.delayLength, Ctx.sendingByte, hu], rfl⟩
  | _ hu => exact ⟨by simp [Ctx.delayLength, Ctx.sendingByte, hu], rfl⟩

theorem ReleaseMove.noDelay {x : Ctx} {u : Upc} (h : ReleaseMove x u) : x.delayLength = none := by
  cases h <;> simp [Ctx.delayLength, Ctx.sendingByte, *]

theorem ReturnMove.noDelay {x : Ctx} {v : Option (BitVec 1)} (h : ReturnMove x v) : x.delayLength = none := by
  cases h <;> simp [Ctx.delayLength, Ctx.sendingByte, *]

theorem SampleMove.noDelay {x : Ctx} {r : BitVec 1} {u : Upc} (h : SampleMove x r u) : x.delayLength = none := by
  cases h <;> simp [Ctx.delayLength, Ctx.sendingByte, *]

theorem DirectMove.noDelay {x : Ctx} {l : Level} {u : Upc} (h : DirectMove x l u) : x.delayLength = none := by
  cases h <;> simp [Ctx.delayLength, Ctx.sendingByte, *]

/-! ### Frames -/

/-- What the end of a delay does besides recording it: at most `lcd_state` and the shadow change. -/
theorem DelayMove.frame {x y : Ctx} {d : Nat} {f : State → State} (h : DelayMove x d y f) (s : State) :
    f s = { s with
      lcdState := (f s).lcdState
      lcdCursor := (f s).lcdCursor
      lcdDisplayOn := (f s).lcdDisplayOn } := by
  cases h <;> first
    | rfl
    | (simp only [State.shadowUpdate]; split <;> rfl)

/-- What every action leaves alone: unless the context is held, CNT and IDX are as the local computation before the action
left them. -/
theorem effect_frame {x : Ctx} {s t : State} (hx : s.ctxs[s.cur]? = some x) (h : Effect x.computed s t) :
    ∃ y, t.ctxs = s.ctxs.set s.cur y ∧ y.todo = x.todo ∧ t.cur = s.cur ∧ t.now = s.now ∧ t.agenda = s.agenda ∧
      t.turns = s.turns ∧ t.lcdCols = s.lcdCols ∧ t.openOutcome = s.openOutcome ∧ y.a = x.a ∧ y.b = x.b ∧
      y.c = x.c ∧ y.text = x.text ∧ (t = s ∨ (y.cnt = x.computed.cnt ∧ y.idx = x.computed.idx)) := by
  have self := (set_cur_self hx).symm
  have tk := takeDraw_frame s
  cases h with
  | held => exact ⟨x, self, rfl, rfl, rfl, rfl, rfl, rfl, rfl, rfl, rfl, rfl, rfl, .inl rfl⟩
  | waits => exact ⟨x, self, rfl, rfl, rfl, rfl, rfl, rfl, rfl, rfl, rfl, rfl, rfl, .inl rfl⟩
  | delayEnds hm _ _ =>
    refine ⟨_, by rw [hm.frame]; rfl, ?_, by rw [hm.frame]; rfl, by rw [hm.frame]; rfl, by rw [hm.frame]; rfl,
      by rw [hm.frame]; rfl, by rw [hm.frame]; rfl, by rw [hm.frame]; rfl, ?_⟩ <;>
    cases hm <;> simp [afterByte_fields]
  | acquired hm =>
    refine ⟨_, rfl, ?_, rfl, rfl, rfl, rfl, rfl, rfl, ?_⟩ <;>
    cases hm <;> simp
  | sampled =>
    obtain ⟨ds, n, hd⟩ := tk
    rw [hd]
    exact ⟨_, rfl, rfl, rfl, rfl, rfl, rfl, rfl, rfl, rfl, rfl, rfl, rfl, .inr ⟨rfl, rfl⟩⟩
  | strayLoad =>
    obtain ⟨ds, n, hd⟩ := tk
    rw [hd]
    exact ⟨_, rfl, rfl, rfl, rfl, rfl, rfl, rfl, rfl, rfl, rfl, rfl, rfl, .inr ⟨rfl, rfl⟩⟩
  | @direct _ u _ => exact ⟨x.computed.goto u, by simp, rfl, by simp, by simp, by simp, by simp, by simp, by simp, rfl, rfl, rfl, rfl,
      .inr ⟨rfl, rfl⟩⟩
  | _ => exact ⟨_, rfl, rfl, rfl, rfl, rfl, rfl, rfl, rfl, rfl, rfl, rfl, rfl, .inr ⟨rfl, rfl⟩⟩

end Sys2Proof.Machine
end

