-- ==== Sys2Proof/Tests/Slice0.lean ====
section
/-! SUPPORT. The author's own checks: the WellFormed smoke, the words of the spec's encodings, one or two single steps for
each instruction with the values of 95_test_vectors.md, and for each statement with hypotheses a state that meets them. -/

namespace Sys2Proof.Machine

/-! ### WellFormed -/

/-- Whether a text of `n` characters fits. -/
theorem textFits_replicate (n : Nat) (c : Byte) : textFits (List.replicate n c) = decide (n ≤ Config.textLenMax) := by
  rw [textFits, List.length_replicate]

theorem test_wellFormed_lcdstr_max : (Instr.lcdstr (List.replicate 65535 0x41#8)).wellFormed = true :=
  (textFits_replicate _ _).trans rfl

theorem test_wellFormed_lcdstr_refused : (Instr.lcdstr (List.replicate 65536 0x41#8)).wellFormed = false :=
  (textFits_replicate _ _).trans rfl

theorem test_wellFormed_lcdline_max : (Instr.lcdline 1#8 (List.replicate 65535 0x41#8)).wellFormed = true :=
  (textFits_replicate _ _).trans rfl

theorem test_wellFormed_lcdline_refused : (Instr.lcdline 1#8 (List.replicate 65536 0x41#8)).wellFormed = false :=
  (textFits_replicate _ _).trans rfl

/-! ### Decoding: the words of R86, R87, R92, R94 and V18, written out from their encodings -/

theorem test_decode_mapopen :
    decode (.request [0b00000001000000000000000000000000#32]) = .ok .mapopen := by decide

theorem test_decode_mapclose :
    decode (.request [0b00000010000000000000000000000000#32]) = .ok .mapclose := by decide

theorem test_decode_shutdown :
    decode (.request [0b00000011000000000000000000000000#32]) = .ok .shutdown := by decide

theorem test_decode_setmode :
    decode (.request [0b00010000001101010000000100000000#32]) = .ok (.setmode 53#8 .output) ∧
    decode (.request [0b00010000000100110000000000000000#32]) = .ok (.setmode 19#8 .input) := by decide

theorem test_decode_write :
    decode (.request [0b00010001000110100000000100000000#32]) = .ok (.write 26#8 .high) ∧
    decode (.request [0b00010001000001010000000000000000#32]) = .ok (.write 5#8 .low) := by decide

theorem test_decode_read :
    decode (.request [0b00010010000100110000000000000000#32]) = .ok (.read 19#8) := by decide

theorem test_decode_waitbtn :
    decode (.request [0b00100000000100110000000000000000#32]) = .ok (.waitbtn 19#8) := by decide

theorem test_decode_blink :
    decode (.request [0b00110000000001010000000100101100#32]) = .ok (.blink 5#8 300#16) := by decide

theorem test_decode_lcdinit :
    decode (.request [0b01000000000000000000000000000000#32]) = .ok .lcdinit := by decide

theorem test_decode_lcdclear :
    decode (.request [0b01000001000000000000000000000000#32]) = .ok .lcdclear := by decide

theorem test_decode_lcdcursor :
    decode (.request [0b01000010000000010000111100000000#32]) = .ok (.lcdcursor 1#8 15#8) := by decide

/-- `lcdstr "Hello"` (V18). -/
theorem test_decode_lcdstr :
    decode (.request [0b01000011000000000000000000000101#32, 0x48#32, 0x65#32, 0x6C#32, 0x6C#32, 0x6F#32]) =
      .ok (.lcdstr [0x48#8, 0x65#8, 0x6C#8, 0x6C#8, 0x6F#8]) := by decide

/-- `lcdline 1, "OK"` (V16). -/
theorem test_decode_lcdline :
    decode (.request [0b01000100000000010000000000000010#32, 0x4F#32, 0x4B#32]) =
      .ok (.lcdline 1#8 [0x4F#8, 0x4B#8]) := by decide

theorem test_decode_lcdbyte :
    decode (.request [0b01000101000000000000000000001100#32]) = .ok (.lcdbyte .command 0x0C#8) ∧
    decode (.request [0b01000101000000010000000001000001#32]) = .ok (.lcdbyte .data 0x41#8) := by decide

theorem test_decode_payload :
    decode (.payload 0b00000000000000000000000011111111#32) = .ok (.payload 0xFF#8) := by decide

/-- The pseudo-operations assemble to the words of the Pin Driver operations (R111, V18). -/
theorem test_encode_pseudo :
    encode (.setpinmode 19#8 .input) = .request [0b00010000000100110000000000000000#32] ∧
    encode (.writepin 5#8 .high) = .request [0b00010001000001010000000100000000#32] ∧
    encode (.readpin 19#8) = .request [0b00010010000100110000000000000000#32] := by decide

theorem test_decode_init3 : decode (.nibble .command 0b0011#4) = .ok .init3 := by decide

theorem test_decode_init2 : decode (.nibble .command 0b0010#4) = .ok .init2 := by decide

theorem test_decode_funcset : decode (.byte .command 0b00101000#8) = .ok .funcset := by decide

theorem test_decode_dispctl : decode (.byte .command 0b00001100#8) = .ok .dispctl := by decide

theorem test_decode_entrymode : decode (.byte .command 0b00000110#8) = .ok .entrymode := by decide

theorem test_decode_clear : decode (.byte .command 0b00000001#8) = .ok .clear := by decide

/-- `0x80 | a` for the ends of the range of `a` (R87). -/
theorem test_decode_setaddr :
    decode (.byte .command 0b10000000#8) = .ok (.setaddr 0#7) ∧
    decode (.byte .command 0b11111111#8) = .ok (.setaddr 0x7F#7) := by decide

theorem test_decode_data : decode (.byte .data 0b00000001#8) = .ok (.data 1#8) := by decide

/-- The words that V18 lists as matching no row. -/
theorem test_decode_illegal :
    ([0x00000000#32, 0x04000000#32, 0x13000000#32, 0x21000000#32, 0x46000000#32, 0xFF000000#32, 0x01000001#32,
        0x10050200#32, 0x12130001#32, 0x43010000#32].map fun w => (decode (.request [w])).toOption) =
      List.replicate 10 none := by decide

/-- A payload word above 0xFF is illegal, a missing one is waited for (R105, V17). -/
theorem test_decode_payload_illegal :
    decodeRequest [0x43000001#32, 0x00000141#32] = .error .illegalPayload ∧
    decodeRequest [0x43000001#32] = .error .incomplete := by decide

/-! ### A small machine -/

/-- The six pins of the display in Output mode, every other pin in Input mode (P2). -/
def tFsel : Fsel where
  w0 := 0#32
  w1 := 1#32
  w2 := 0x00209240#32
  w3 := 0#32
  w4 := 0#32
  w5 := 0#32

/-- A mapped block whose executing context, number 0, is `x`; context 1 is Idle. -/
def tState (x : Ctx) : State where
  ctxs := [x, Ctx.launch]
  fsel := tFsel
  out := 0#32
  mapState := .mapped
  lcdState := .ready
  lock := .free
  lcdCursor := none
  lcdDisplayOn := none
  now := 100
  hist := []
  latches := []
  lcdCols := 16
  openOutcome := .ok
  draws := []
  drawn := 0
  agenda := []
  turns := 0
  cur := 0

/-- A Running context at `u`, its registers `A`, `B`, `C` as given. -/
def tCtx (u : Upc) (a b c : Byte) : Ctx :=
  { Ctx.launch with status := .running, upc := u, a := a, b := b, c := c }

/-- The state an answer holds, where it is a next state. -/
def tNext (r : Result) : Option State :=
  match r with
  | .next s => some s
  | .fault _ => none
  | .refused _ => none

/-- The events that an instruction adds to the empty history. -/
def tHist (i : Instr) (s : State) : Option (List Event) := (tNext (exec i s)).map State.hist

/-- The status of the executing context after an instruction. -/
def tStatus (i : Instr) (s : State) : Option Status := (tNext (exec i s)).bind fun t => t.me.map Ctx.status

/-- The position of the executing context after an instruction. -/
def tUpc (i : Instr) (s : State) : Option Upc := (tNext (exec i s)).bind fun t => t.me.map Ctx.upc

/-- The response of the executing context after an instruction. -/
def tResponse (i : Instr) (s : State) : Option Word :=
  (tNext (exec i s)).bind fun t => t.me.bind Ctx.response

/-! ### Single steps, with the values of 95_test_vectors.md -/

/-- V10, row 2. -/
theorem test_mapopen_fails :
    tHist .mapopen { tState (tCtx .mapopen 0 0 0) with mapState := .unmapped, openOutcome := .fails .deviceOpenFailed } =
        some [.err 0 100 .deviceOpenFailed] ∧
    tResponse .mapopen { tState (tCtx .mapopen 0 0 0) with mapState := .unmapped, openOutcome := .fails .deviceOpenFailed } =
        some 0x01000000#32 := by decide

/-- V10, row 4: a second open, at its hand-over and, opened meanwhile by another context, at its action. -/
theorem test_mapopen_again :
    tStatus .mapopen (tState Ctx.launch) = some (.refused .alreadyOpened) ∧
    tStatus .mapopen (tState (tCtx .mapopen 0 0 0)) = some (.refused .alreadyOpened) := by decide

/-- V10, row 7: context 1 is Running. -/
theorem test_mapclose_busy :
    tStatus .mapclose { tState (tCtx .mapclose 0 0 0) with ctxs := [tCtx .mapclose 0 0 0, tCtx (.blink .b1) 5 0 1] } =
      some (.refused .closeWhileBusy) := by decide

/-- V10, row 6. -/
theorem test_mapclose :
    (tNext (exec .mapclose (tState (tCtx .mapclose 0 0 0)))).map State.mapState = some .released := by decide

/-- V10, row 10: green, then red. -/
theorem test_shutdown_stores :
    tHist .shutdown (tState (tCtx (.shutdown .a0) 0 0 0)) = some [.st 0 100 10 0x04000000#32] ∧
    tHist .shutdown (tState (tCtx (.shutdown .a1) 0 0 0)) = some [.st 0 100 10 0x00000020#32] := by decide

/-- V11, `setmode 53, out` from 0xFFFFFFFF: the clear step. -/
theorem test_setmode_clears :
    tHist (.setmode 53#8 .output) (tState { tCtx (.setmode .a1) 53 1 0 with tmp := 0xFFFFFFFF#32 }) =
      some [.st 0 100 5 0xFFFFF1FF#32] := by decide

/-- V11: the output step, and the refusal of pin 54. -/
theorem test_setmode_sets :
    tHist (.setmode 53#8 .output) (tState { tCtx (.setmode .a3) 53 1 0 with tmp := 0xFFFFF1FF#32 }) =
      some [.st 0 100 5 0xFFFFF3FF#32] ∧
    tStatus (.setmode 54#8 .output) (tState Ctx.launch) = some (.refused .pinOutOfRange) := by decide

/-- V12: `write 31, lo` from 0xFFFFFFFF. -/
theorem test_write_low :
    (tNext (exec (.write 31#8 .low) { tState (tCtx (.write .a0) 31 0 0) with out := 0xFFFFFFFF#32 })).map State.out =
      some 0x7FFFFFFF#32 := by decide

/-- V12: `write 26, hi`, and the refusal of pin 32. -/
theorem test_write_high :
    tHist (.write 26#8 .high) (tState (tCtx (.write .a0) 26 1 0)) = some [.st 0 100 7 0x04000000#32] ∧
    tStatus (.write 32#8 .high) (tState Ctx.launch) = some (.refused .pinOutOfRange) := by decide

/-- V13, row 6: pin 26 is an output at Low, every other bit is drawn. -/
theorem test_read_output_pin :
    tHist (.read 26#8)
        { tState (tCtx (.read .a0) 26 0 0) with fsel := { tFsel with w1 := 0#32, w2 := 0x00040000#32 }, draws := [0xFFFFFFFF#32] } =
      some [.ld 0 100 13 0xFBFFFFFF#32] := by decide

/-- V13, row 1: the level is handed back in bit 0 of the response word. -/
theorem test_read_returns :
    tResponse (.read 19#8) (tState { tCtx (.read .a1) 19 0 0 with res := 1#1 }) = some 0x00000001#32 := by decide

/-- R150 to R152: the façade adds nothing. -/
theorem test_facade :
    tHist (.setpinmode 53#8 .input) (tState { tCtx (.setmode .a1) 53 0 0 with tmp := 0x00000200#32 }) =
        some [.st 0 100 5 0x00000000#32] ∧
    tHist (.writepin 19#8 .high) (tState (tCtx (.write .a0) 19 1 0)) = some [.st 0 100 7 0x00080000#32] ∧
    tResponse (.readpin 19#8) (tState { tCtx (.read .a1) 19 0 0 with res := 1#1 }) = some 0x00000001#32 := by decide

/-- V6: a High sample ends the first phase, a Low one the second. -/
theorem test_waitbtn_phases :
    tUpc (.waitbtn 19#8) { tState (tCtx (.waitbtn .p0) 19 0 0) with draws := [0x00080000#32] } = some (.waitbtn .r0) ∧
    tUpc (.waitbtn 19#8) { tState (tCtx (.waitbtn .r0) 19 0 0) with draws := [0xFFF7FFFF#32] } = some (.waitbtn .s0) :=
  by decide

/-- V6: 50 000 µs to settle. -/
theorem test_waitbtn_settles :
    tHist (.waitbtn 19#8)
        { tState { tCtx (.waitbtn .s0) 19 0 0 with wake := 60000, delayFrom := some 10000 } with now := 60000 } =
      some [.dly 0 50000 10000 60000] := by decide

/-- CNT of the executing context after an instruction. -/
def tCnt (i : Instr) (s : State) : Option (BitVec 16) := (tNext (exec i s)).bind fun t => t.me.map Ctx.cnt

/-- V14: `blink 26, 0` returns at once. -/
theorem test_blink_zero : tUpc (.blink 26#8 0#16) (tState Ctx.launch) = some (.blink .b4) := by decide

/-- V22: the delay may end later than it must; the count goes down with the action that follows (R10). -/
theorem test_blink_counts :
    tHist (.blink 26#8 1#16)
        { tState { tCtx (.blink .b3) 26 0 1 with cnt := 1#16, wake := 450000, delayFrom := some 250000 } with
          now := 450000 } = some [.dly 0 200000 250000 450000] ∧
    tUpc (.blink 26#8 1#16)
        { tState { tCtx (.blink .b3) 26 0 1 with cnt := 1#16, wake := 450000, delayFrom := some 250000 } with
          now := 450000 } = some (.blink .b4) ∧
    tCnt (.blink 26#8 1#16) (tState { tCtx (.blink .b4) 26 0 1 with cnt := 1#16, between := .countDown }) =
      some 0#16 := by decide

/-- R187 i0, and i7: Ready after the wait of the 0x2 nibble. -/
theorem test_lcdinit_states :
    (tNext (exec .lcdinit (tState (tCtx (.lcdinit .i0) 0 0 0)))).map State.lcdState = some .fourBitModeNegotiating ∧
    (tNext (exec .lcdinit
        { tState { tCtx (.lcdinit (.wait .commit)) 0 0 0 with wake := 100, delayFrom := some 0 } with
          lcdState := .fourBitModeNegotiating })).map State.lcdState = some .ready := by decide

/-- V17: `lcdclear` before Ready takes the lock and is refused with it. -/
theorem test_lcdclear_not_ready :
    tStatus .lcdclear { tState (tCtx (.lcdclear .acquire) 0 0 0) with lcdState := .uninitialized } =
        some (.refused .lcdNotReady) ∧
    tHist .lcdclear { tState (tCtx (.lcdclear .acquire) 0 0 0) with lcdState := .uninitialized } =
        some [.acq 0 100] := by decide

/-- V3: `lcdcursor 1, 15` sends 0xCF, of which the first line is D4 = 0. -/
theorem test_lcdcursor_byte :
    (tCtx (.lcdcursor (.single .y0)) 1 15 0).sendingByte = some (.command, 0xCF#8, .y0) ∧
    tHist (.lcdcursor 1#8 15#8) (tState (tCtx (.lcdcursor (.single (.high .n0))) 1 15 0)) =
      some [.st 0 100 10 0x00800000#32] := by decide

/-- V17: row 2 and column 16 of 16: the row is tested first. -/
theorem test_lcdcursor_refused :
    tStatus (.lcdcursor 2#8 16#8) (tState Ctx.launch) = some (.refused .rowOutOfRange) ∧
    tStatus (.lcdcursor 0#8 16#8) (tState Ctx.launch) = some (.refused .colOutOfRange) := by decide

/-- V16: `lcdstr ""` goes from `Acquire` to `Release`. -/
theorem test_lcdstr_empty : tUpc (.lcdstr []) (tState (tCtx (.lcdstr .acquire) 0 0 0)) = some (.lcdstr .release) := by
  decide

/-- R193: the second character of "OK" is sent with the `IDX <- IDX + 1` before it. -/
theorem test_lcdstr_next :
    (tNext (exec (.data 0x4B#8)
        (tState { tCtx (.lcdstr (.text .y0)) 0 0 2 with text := [0x4F#8, 0x4B#8], between := .nextChar }))).bind
      (fun t => t.me.map Ctx.idx) = some 1#16 := by decide

/-- V16: `lcdline 1, "OK"` sends 0xC0 and then the text. -/
theorem test_lcdline_bytes :
    ({ tCtx (.lcdline (.single .y0)) 1 0 2 with text := [0x4F#8, 0x4B#8] } : Ctx).sendingByte =
        some (.command, 0xC0#8, .y0) ∧
    ({ tCtx (.lcdline (.text .y0)) 1 0 2 with text := [0x4F#8, 0x4B#8], idx := 1#16 } : Ctx).sendingByte =
        some (.data, 0x4B#8, .y0) := by decide

/-- V16: command byte 3 takes the long wait, the data byte 1 the short one. -/
theorem test_lcdbyte_waits :
    tHist (.lcdbyte .command 3#8)
        { tState { tCtx (.lcdbyte (.single .y1)) 0 0 3 with wake := 2000, delayFrom := some 0 } with now := 2000 } =
        some [.dly 0 2000 0 2000] ∧
    tHist (.lcdbyte .data 1#8)
        (tState { tCtx (.lcdbyte (.single .y1)) 1 0 1 with wake := 100, delayFrom := some 0 }) =
        some [.dly 0 100 0 100] := by decide

/-- V9: INIT3 and INIT2 put D4 high and low. -/
theorem test_init_nibbles :
    tHist .init3 (tState (tCtx (.lcdinit (.nibble .first .n0)) 0 0 0)) = some [.st 0 100 7 0x00800000#32] ∧
    tHist .init2 (tState (tCtx (.lcdinit (.nibble .commit .n0)) 0 0 0)) = some [.st 0 100 10 0x00800000#32] := by
  decide

/-- V9: the four configuration bytes, RS low. -/
theorem test_configuration_bytes :
    tHist .funcset (tState (tCtx (.lcdinit (.byte .functionSet (.high .n1))) 0 0 0)) =
        some [.st 0 100 7 0x00000400#32] ∧
    tHist .dispctl (tState (tCtx (.lcdinit (.byte .displayControl (.low .n3))) 0 0 0)) =
        some [.st 0 100 7 0x00400000#32] ∧
    tHist .entrymode (tState (tCtx (.lcdinit (.byte .entryMode (.low .n2))) 0 0 0)) =
        some [.st 0 100 7 0x08000000#32] ∧
    tHist .clear (tState (tCtx (.lcdclear (.single .y0)) 0 0 0)) = some [.st 0 100 10 0x02000000#32] := by decide

/-- SETADDR and DATA are sent by LCDCURSOR and LCDSTR; a context that sends something else has no place for them. -/
theorem test_setaddr_data :
    tHist (.setaddr 0x4F#7) (tState (tCtx (.lcdcursor (.single .y0)) 1 15 0)) = some [.st 0 100 10 0x02000000#32] ∧
    tHist (.data 0x41#8) (tState { tCtx (.lcdstr (.text .y0)) 0 0 1 with text := [0x41#8] }) =
        some [.st 0 100 7 0x02000000#32] ∧
    exec (.data 0x42#8) (tState { tCtx (.lcdstr (.text .y0)) 0 0 1 with text := [0x41#8] }) = .fault .notSending :=
  ⟨by decide, by decide, rfl⟩

theorem test_payload :
    (tNext (exec (.payload 0x41#8) (tState Ctx.launch))).bind (fun t => t.me.map Ctx.text) = some [0x41#8] := by decide

/-- V2: the second store of EN latches the nibble 0x2 with RS = 0. -/
theorem test_latch :
    (tNext (exec (.lcdbyte .command 0x28#8)
      { tState (tCtx (.lcdbyte (.single (.high .n6))) 0 0 0x28) with out := 0x01000400#32 })).map State.latches =
      some [{ rs := 0#1, nibble := 0x2#4 }] := by decide

/-! ### Witnesses: for each statement with hypotheses, a state and operands that meet them -/

/-- The state answered, for the witnesses whose hypotheses name one. -/
def tAfter (r : Result) (s : State) : State := (tNext r).getD s

theorem witness_DecodeOfEncode : (Instr.lcdline 0xFF#8 (List.replicate 65535 0xFF#8)).wellFormed = true :=
  (textFits_replicate _ _).trans rfl

theorem witness_EncodeOfDecode : decode (.request [0x43000001#32, 0xFF#32]) = .ok (.lcdstr [0xFF#8]) := by decide

theorem witness_RequestsAreTakenWhole :
    (Instr.lcdstr [0xFF#8]).wellFormed = true ∧
    encode (.lcdstr [0xFF#8]) = .request [0x43000001#32, 0xFF#32] ∧ 1 < [0x43000001#32, 0xFF#32].length := by
  exact ⟨rfl, by decide, by decide⟩

/-- The next turn is context 0's, from the list. -/
def tTurn (x : Ctx) : State := { tState x with agenda := [.context 0] }

theorem witness_takesTurn (x : Ctx) : (tTurn x).TakesTurn (.context 0) (tState x) := .inl ⟨[], rfl, rfl⟩

theorem witness_StepRunsWhatItFetches_running :
    (tTurn (tCtx (.write .a0) 31 1 0)).TakesTurn (.context 0) (tState (tCtx (.write .a0) 31 1 0)) ∧
    (tTurn (tCtx (.write .a0) 31 1 0)).ctxs[0]? = some (tCtx (.write .a0) 31 1 0) ∧
    (tCtx (.write .a0) 31 1 0).status = .running ∧ (tCtx (.write .a0) 31 1 0).computed.instr = some (.write 31#8 .high) :=
  ⟨witness_takesTurn _, rfl, rfl, by decide⟩

theorem witness_StepRunsWhatItFetches_idle :
    (tTurn { Ctx.launch with todo := [0x12130000#32] }).TakesTurn (.context 0)
        (tState { Ctx.launch with todo := [0x12130000#32] }) ∧
    (tTurn { Ctx.launch with todo := [0x12130000#32] }).ctxs[0]? = some { Ctx.launch with todo := [0x12130000#32] } ∧
    ({ Ctx.launch with todo := [0x12130000#32] } : Ctx).status = .idle ∧
    decodeRequest ({ Ctx.launch with todo := [0x12130000#32] } : Ctx).todo = .ok (.read 19#8, []) :=
  ⟨witness_takesTurn _, rfl, rfl, by decide⟩

theorem witness_TimePassesInTicks :
    ({ tState Ctx.launch with agenda := [.clock 0] } : State).TakesTurn (.clock 0) (tState Ctx.launch) ∧
    exec (.payload 0#8) (tState Ctx.launch) =
      .next (tAfter (exec (.payload 0#8) (tState Ctx.launch)) (tState Ctx.launch)) :=
  ⟨.inl ⟨[], rfl, rfl⟩, rfl⟩

/-- No such context, a Refused context, a request not yet whole. -/
theorem witness_StepWaitsWhereNothingIsEnabled :
    (({ tState Ctx.launch with agenda := [.context 2] } : State).TakesTurn (.context 2) (tState Ctx.launch) ∧
      (tState Ctx.launch).ctxs.length ≤ 2) ∧
    ((tTurn { Ctx.launch with status := .refused .blockNotValid }).TakesTurn (.context 0)
        (tState { Ctx.launch with status := .refused .blockNotValid }) ∧
      (tTurn { Ctx.launch with status := .refused .blockNotValid }).ctxs[0]? =
        some { Ctx.launch with status := .refused .blockNotValid }) ∧
    (tTurn { Ctx.launch with todo := [0x43000002#32, 0x41#32] }).TakesTurn (.context 0)
        (tState { Ctx.launch with todo := [0x43000002#32, 0x41#32] }) ∧
    decodeRequest ({ Ctx.launch with todo := [0x43000002#32, 0x41#32] } : Ctx).todo = .error .incomplete :=
  ⟨⟨.inl ⟨[], rfl, rfl⟩, by decide⟩, ⟨witness_takesTurn _, rfl⟩, witness_takesTurn _, by decide⟩

/-- A word without a row, and the smallest payload word that is illegal. -/
theorem witness_IllegalRequestsAreRefused :
    ((tTurn { Ctx.launch with todo := [0x04000000#32] }).TakesTurn (.context 0)
        (tState { Ctx.launch with todo := [0x04000000#32] }) ∧
      (tTurn { Ctx.launch with todo := [0x04000000#32] }).ctxs[0]? = some { Ctx.launch with todo := [0x04000000#32] } ∧
      IllegalWords [0x04000000#32]) ∧
    IllegalWords [0x43000001#32, 0x100#32] :=
  ⟨⟨witness_takesTurn _, rfl, .inl (by simp [requestRows])⟩, .inr ⟨.inl (by decide), 0, 0x100#32, by decide, rfl, by decide⟩⟩

theorem witness_FselWordsAreStorage : (5 : Nat) < 6 ∧ (0 : Nat) < 6 ∧ (0 : Nat) ≠ 5 ∧ 53 / 10 = 5 := by decide

/-- A draw from the list, and one after it has run out. -/
theorem witness_LevelShowsLatchOrDraw :
    ({ tState Ctx.launch with draws := [1#32] } : State).Draws 1#32 (tState Ctx.launch) ∧
    (tState Ctx.launch).Draws (Config.draw 0) { tState Ctx.launch with drawn := 1 } :=
  ⟨.inl ⟨[], rfl, rfl⟩, .inr ⟨rfl, rfl, rfl⟩⟩

/-- A load of SET, a store to LEVEL, a misaligned offset, the words next to those the block has. -/
theorem witness_OtherAccessesHaveNoMeaning :
    (∀ a ∈ [0x1C, 0x02, 0x18, 0x38], ¬(∃ w, a = 4 * w ∧ (w < 6 ∨ w = 13))) ∧
    (∀ a ∈ [0x34, 0x03, 0x18, 0x24], ¬(∃ w, a = 4 * w ∧ (w < 6 ∨ w = 7 ∨ w = 10))) ∧
    (¬(6 < 6 ∨ 6 = 13)) ∧ ¬(13 < 6 ∨ 13 = 7 ∨ 13 = 10) := by
  refine ⟨?_, ?_, by omega, by omega⟩ <;> intro a ha <;> simp at ha <;> rintro ⟨w, h⟩ <;> omega

theorem witness_LatchAtFallingEnable :
    ((∀ p ∈ lcdPins, tFsel.func p = 0b001#3) ∧ (0x01000000#32).getLsbD 24 = true ∧ (0#32).getLsbD 24 = false) ∧
    ¬((∀ p ∈ lcdPins, tFsel.func p = 0b001#3) ∧ (0#32).getLsbD 24 = true ∧ (0#32).getLsbD 24 = false) := by decide

/-- At the ends of the ranges: pin 53 for SETMODE, 31 for WRITE, column 15 of 16. -/
theorem witness_HandOverLoadsOperands :
    (tState Ctx.launch).me = some Ctx.launch ∧
    (∀ i ∈ [Instr.setmode 53#8 .output, .write 31#8 .low, .blink 31#8 0#16, .lcdcursor 1#8 15#8, .lcdline 1#8 []],
      isRequest i = true ∧ (tState Ctx.launch).refusalOf i = none) ∧
    ({ tState Ctx.launch with mapState := .unmapped } : State).refusalOf .mapopen = none := by decide

/-- Each reason of R227 and R228 at the first value outside its range. -/
theorem witness_HandOverRefusesInOrder :
    (tState Ctx.launch).refusalOf .mapopen = some .alreadyOpened ∧
    ({ tState Ctx.launch with mapState := .released } : State).refusalOf .lcdinit = some .blockNotValid ∧
    (tState Ctx.launch).refusalOf (.setpinmode 54#8 .input) = some .pinOutOfRange ∧
    (tState Ctx.launch).refusalOf (.waitbtn 32#8) = some .pinOutOfRange ∧
    (tState Ctx.launch).refusalOf (.lcdline 2#8 []) = some .rowOutOfRange ∧
    (tState Ctx.launch).refusalOf (.lcdcursor 1#8 16#8) = some .colOutOfRange := by decide

theorem witness_PayloadAppendsCharacter :
    (tState Ctx.launch).me = some Ctx.launch ∧ Ctx.launch.status = .idle ∧
    (tState Ctx.launch).refusalOf (.lcdstr [0xFF#8]) = none ∧
    (tState Ctx.launch).refusalOf (.lcdline 1#8 []) = none := by decide

/-- The executing context of `tState x` is `x`. -/
theorem witness_runs (x : Ctx) (h : x.status = .running) (hb : x.between = .nothing) : (tState x).Runs x :=
  ⟨x, rfl, h, (Ctx.computed_of_nothing hb).symm⟩

/-- Each outcome of opening, in Unmapped; a block that is Mapped already. -/
theorem witness_MapopenActs :
    (∀ o : OpenOutcome,
      ({ tState (tCtx .mapopen 0 0 0) with mapState := .unmapped, openOutcome := o } : State).Runs
        (tCtx .mapopen 0 0 0)) ∧
    (tState (tCtx .mapopen 0 0 0)).Runs (tCtx .mapopen 0 0 0) ∧ (tState (tCtx .mapopen 0 0 0)).mapState ≠ .unmapped :=
  ⟨fun _ => ⟨_, rfl, rfl, rfl⟩, ⟨_, rfl, rfl, rfl⟩, by decide⟩

theorem witness_othersIdle (x : Ctx) : (tState x).OthersIdle := by
  intro c y hc hy
  match c, hc, hy with
  | 0, hc, _ => exact absurd rfl hc
  | 1, _, hy => cases hy; rfl
  | _ + 2, _, hy => cases hy

/-- Everything Idle and the lock Free; the lock taken. -/
theorem witness_ClosingActs :
    (tState (tCtx .mapclose 0 0 0)).Runs (tCtx .mapclose 0 0 0) ∧ (tState (tCtx .mapclose 0 0 0)).OthersIdle ∧
    (tState (tCtx (.shutdown .a2) 0 0 0)).Runs (tCtx (.shutdown .a2) 0 0 0) ∧
    ({ tState (tCtx .mapclose 0 0 0) with lock := .held 1 } : State).Runs (tCtx .mapclose 0 0 0) ∧
    ¬(({ tState (tCtx .mapclose 0 0 0) with lock := .held 1 } : State).OthersIdle ∧ Lock.held 1 = .free) :=
  ⟨⟨_, rfl, rfl, rfl⟩, witness_othersIdle _, ⟨_, rfl, rfl, rfl⟩, ⟨_, rfl, rfl, rfl⟩, fun h => by cases h.2⟩

theorem witness_ShutdownStores :
    ∀ l ∈ [ShutdownLabel.a0, .a1], (tState (tCtx (.shutdown l) 0 0 0)).Runs (tCtx (.shutdown l) 0 0 0) :=
  fun _ _ => ⟨_, rfl, rfl, rfl⟩

/-- Every label, for the largest pin and both modes. -/
theorem witness_SetmodeActs (l : SetmodeLabel) (m : Mode) :
    (tState (tCtx (.setmode l) 53 m.toByte 0)).Runs (tCtx (.setmode l) 53 m.toByte 0) ∧
    (tCtx (.setmode l) 53 m.toByte 0).a = 53#8 ∧ (tCtx (.setmode l) 53 m.toByte 0).b = m.toByte ∧
    (53#8).toNat ≤ 53 := ⟨⟨_, rfl, rfl, rfl⟩, rfl, rfl, by decide⟩

theorem witness_WriteActs (k : PinLabel) (l : Level) :
    (tState (tCtx (.write k) 31 l.toByte 0)).Runs (tCtx (.write k) 31 l.toByte 0) ∧
    (tCtx (.write k) 31 l.toByte 0).a = 31#8 ∧ (tCtx (.write k) 31 l.toByte 0).b = l.toByte ∧
    (31#8).toNat ≤ 31 := ⟨⟨_, rfl, rfl, rfl⟩, rfl, rfl, by decide⟩

/-- The word a load of LEVEL returns, for some draw. -/
theorem witness_isLevel (s : State) (d : Word) : s.IsLevel d (levelWord s.fsel s.out d) := by
  intro i hi
  rw [getLsbD_levelWord _ _ _ _ hi]

theorem witness_ReadActs (k : PinLabel) :
    ({ tState (tCtx (.read k) 31 0 0) with draws := [7#32] } : State).Runs (tCtx (.read k) 31 0 0) ∧
    (tCtx (.read k) 31 0 0).a = 31#8 ∧ (31#8).toNat ≤ 31 ∧
    ({ tState (tCtx (.read k) 31 0 0) with draws := [7#32] } : State).Draws 7#32 (tState (tCtx (.read k) 31 0 0)) :=
  ⟨⟨_, rfl, rfl, rfl⟩, rfl, by decide, .inl ⟨[], rfl, rfl⟩⟩

theorem witness_WaitbtnActs (k : WaitLabel) :
    ({ tState (tCtx (.waitbtn k) 31 0 0) with draws := [7#32] } : State).Runs (tCtx (.waitbtn k) 31 0 0) ∧
    (tCtx (.waitbtn k) 31 0 0).a = 31#8 ∧ (31#8).toNat ≤ 31 ∧
    ({ tState (tCtx (.waitbtn k) 31 0 0) with draws := [7#32] } : State).Draws 7#32
      (tState (tCtx (.waitbtn k) 31 0 0)) := ⟨⟨_, rfl, rfl, rfl⟩, rfl, by decide, .inl ⟨[], rfl, rfl⟩⟩

/-- For DelayIsTwoHalves and every DelayRule, the three cases of a delay: not begun, one microsecond short, at its least end. -/
theorem witness_DelayRule :
    (tCtx (.waitbtn .s0) 31 0 0).delayFrom = none ∧
    (∀ t ∈ [100, 99], ({ tCtx (.waitbtn .s0) 31 0 0 with wake := 100, delayFrom := some 0 } : Ctx).delayFrom = some 0 ∧
      (t < 100 ∨ 100 ≤ t)) := by decide

theorem witness_BlinkActs (k : BlinkLabel) :
    (tState (tCtx (.blink k) 31 0xFF 0xFF)).Runs (tCtx (.blink k) 31 0xFF 0xFF) ∧
    (tCtx (.blink k) 31 0xFF 0xFF).a = 31#8 ∧ (tCtx (.blink k) 31 0xFF 0xFF).times = 65535#16 ∧
    (31#8).toNat ≤ 31 := ⟨⟨_, rfl, rfl, rfl⟩, rfl, (by decide : joinBytes 0xFF#8 0xFF#8 = 65535#16), by decide⟩

/-- For AcquireTakesTheLock and LcdAcquires, the five operations at `Acquire`: the lock taken, Free and Ready, Free and not Ready. -/
theorem witness_LcdAcquires :
    ∀ p ∈ [(Instr.lcdclear, Upc.lcdclear .acquire), (.lcdcursor 1#8 15#8, .lcdcursor .acquire),
        (.lcdstr [], .lcdstr .acquire), (.lcdline 1#8 [], .lcdline .acquire),
        (.lcdbyte .data 1#8, .lcdbyte .acquire)],
      lcdAt p.1 .acquire = some (tCtx p.2 1 15 0).upc ∧ (tState (tCtx p.2 1 15 0)).Runs (tCtx p.2 1 15 0) ∧
      ({ tState (tCtx p.2 1 15 0) with lock := .held 1 } : State).Runs (tCtx p.2 1 15 0) ∧
      ({ tState (tCtx p.2 1 15 0) with lcdState := .uninitialized } : State).Runs (tCtx p.2 1 15 0) := by
  intro p hp
  refine ⟨?_, ⟨_, rfl, rfl, rfl⟩, ⟨_, rfl, rfl, rfl⟩, ⟨_, rfl, rfl, rfl⟩⟩
  revert p
  decide

theorem witness_LcdReleases :
    ∀ p ∈ [(Instr.lcdclear, LcdLabel.release), (.lcdcursor 1#8 15#8, .release), (.lcdstr [], .release),
        (.lcdline 1#8 [], .release), (.lcdbyte .data 1#8, .release), (.lcdbyte .data 1#8, .ret)],
      (lcdAt p.1 p.2).isSome = true ∧ (lcdAt p.1 .ret).isSome = true ∧
      (∀ u, lcdAt p.1 p.2 = some u →
        ({ tState (tCtx u 1 15 0) with lock := .held 0 } : State).Runs (tCtx u 1 15 0)) := by
  intro p hp
  refine ⟨?_, ?_, fun u _ => ⟨_, rfl, rfl, rfl⟩⟩ <;> (revert p; decide)

/-- A store of a byte, as LCDBYTE and as the row DATA. -/
theorem witness_ByteStores :
    (tState (tCtx (.lcdbyte (.single .y0)) 1 0 0x41)).Runs (tCtx (.lcdbyte (.single .y0)) 1 0 0x41) ∧
    (tCtx (.lcdbyte (.single .y0)) 1 0 0x41).sendingByte = some (.data, 0x41#8, .y0) ∧
    (tCtx (.lcdbyte (.single .y0)) 1 0 0x41).SendsBy (.lcdbyte .data 0x41#8) .data 0x41#8 ∧
    (tCtx (.lcdbyte (.single .y0)) 1 0 0x41).SendsBy (.data 0x41#8) .data 0x41#8 ∧
    byteStore .data 0x41#8 .y0 = some (25, .high) ∧ ByteLabel.y0.next = some (.high .n0) :=
  ⟨⟨_, rfl, rfl, rfl⟩, by decide, .inl (by decide), .inr (by decide), by decide, by decide⟩

theorem witness_ByteHolds :
    (tState (tCtx (.lcdclear (.single (.low .n7))) 0 0 0)).Runs (tCtx (.lcdclear (.single (.low .n7))) 0 0 0) ∧
    (tCtx (.lcdclear (.single (.low .n7))) 0 0 0).sendingByte = some (.command, 1#8, .low .n7) ∧
    (tCtx (.lcdclear (.single (.low .n7))) 0 0 0).SendsBy .clear .command 1#8 ∧
    (ByteLabel.low .n7).next = some .y1 := ⟨⟨_, rfl, rfl, rfl⟩, by decide, .inr (by decide), by decide⟩

theorem witness_ByteEnds :
    (tState (tCtx (.lcdclear (.single .y1)) 0 0 0)).Runs (tCtx (.lcdclear (.single .y1)) 0 0 0) ∧
    (tCtx (.lcdclear (.single .y1)) 0 0 0).sendingByte = some (.command, 1#8, .y1) ∧
    (tCtx (.lcdclear (.single .y1)) 0 0 0).SendsBy .lcdclear .command 1#8 :=
  ⟨⟨_, rfl, rfl, rfl⟩, by decide, .inl (by decide)⟩

theorem witness_InitNibbleActs (k : InitNibble) (l : NibbleLabel) :
    (tState (tCtx (.lcdinit (.nibble k l)) 0 0 0)).Runs (tCtx (.lcdinit (.nibble k l)) 0 0 0) ∧
    encode .init3 = .nibble .command 0x3#4 ∧ encode .init2 = .nibble .command 0x2#4 ∧
    nibbleStore 0x2#4 .n6 = some (24, .low) ∧ NibbleLabel.n6.next = some .n7 :=
  ⟨⟨_, rfl, rfl, rfl⟩, by decide, by decide, by decide, by decide⟩

theorem witness_LcdinitActs (l : InitLabel) :
    (tState (tCtx (.lcdinit l) 0 0 0)).Runs (tCtx (.lcdinit l) 0 0 0) ∧
    ({ tState (tCtx (.lcdinit l) 0 0 0) with lock := .held 0 } : State).Runs (tCtx (.lcdinit l) 0 0 0) :=
  ⟨⟨_, rfl, rfl, rfl⟩, ⟨_, rfl, rfl, rfl⟩⟩

/-- The ends of the ranges of R199's rows, and the last column. -/
theorem witness_ShadowFollowsBytes :
    (tState Ctx.launch).lcdState = .ready ∧
    ({ tState Ctx.launch with lcdState := .uninitialized } : State).lcdState ≠ .ready ∧
    0x80 ≤ (0x80#8).toNat ∧ 0x08 ≤ (0x08#8).toNat ∧ (0x0F#8).toNat ≤ 0x0F ∧ (0x7F#8).toNat < 0x80 ∧
    (0x4E#7).toNat % 0x40 + 1 < (tState Ctx.launch).lcdCols ∧
    (tState Ctx.launch).lcdCols ≤ (0x4F#7).toNat % 0x40 + 1 ∧ (tState Ctx.launch).lcdCursor = none := by decide

/-- The whole operations start from an Idle context of a mapped block. -/
theorem witness_starts : (tState Ctx.launch).Starts Ctx.launch := ⟨rfl, rfl, rfl, rfl⟩

theorem witness_SetmodeRun : (tState Ctx.launch).Starts Ctx.launch ∧ (53#8).toNat ≤ 53 := ⟨witness_starts, by decide⟩

theorem witness_ShutdownRun :
    (tState Ctx.launch).Starts Ctx.launch ∧ (tState Ctx.launch).OthersIdle ∧ (tState Ctx.launch).lock = .free :=
  ⟨witness_starts, witness_othersIdle _, rfl⟩

/-- V6, row 2, on pin 19. -/
theorem witness_WaitbtnRun :
    ({ tState Ctx.launch with
        draws := [0#32, 0#32] ++ 0x80000#32 :: ([0x80000#32, 0x80000#32] ++ 0#32 :: [5#32]) } : State).Starts
      Ctx.launch ∧
    (19#8).toNat ≤ 31 ∧ tFsel.func 19 ≠ 0b001#3 ∧ (∀ d ∈ [0#32, 0#32], d.getLsbD 19 = false) ∧
    (0x80000#32).getLsbD 19 = true ∧ (∀ d ∈ [0x80000#32, 0x80000#32], d.getLsbD 19 = true) ∧
    (0#32).getLsbD 19 = false := ⟨⟨rfl, rfl, rfl, rfl⟩, by decide, by decide, by simp, by decide, by simp, by decide⟩

theorem witness_BlinkRun : (tState Ctx.launch).Starts Ctx.launch ∧ (31#8).toNat ≤ 31 := ⟨witness_starts, by decide⟩

theorem witness_lcdDriven : (tState Ctx.launch).LcdDriven := by
  unfold State.LcdDriven
  decide

theorem witness_LcdinitRun :
    (tState Ctx.launch).Starts Ctx.launch ∧ (tState Ctx.launch).lock = .free ∧ (tState Ctx.launch).LcdDriven ∧
    (tState Ctx.launch).out.getLsbD 24 = false := ⟨witness_starts, rfl, witness_lcdDriven, by decide⟩

theorem witness_LcdbyteRun :
    (tState Ctx.launch).Starts Ctx.launch ∧ (tState Ctx.launch).lock = .free ∧
    (tState Ctx.launch).lcdState = .ready ∧ (tState Ctx.launch).LcdDriven := ⟨witness_starts, rfl, rfl, witness_lcdDriven⟩

/-- The last column of both rows. -/
theorem witness_LcdCommandRuns :
    (tState Ctx.launch).Starts Ctx.launch ∧ (tState Ctx.launch).lock = .free ∧
    (tState Ctx.launch).lcdState = .ready ∧ (15#8).toNat < (tState Ctx.launch).lcdCols ∧
    (tState Ctx.launch).lcdCols ≤ 64 ∧ (0x8F#8).toNat = 0x80 + (15#8).toNat ∧
    (0xCF#8).toNat = 0xC0 + (15#8).toNat := ⟨witness_starts, by decide⟩

theorem witness_LcdstrRun :
    (tState Ctx.launch).Starts Ctx.launch ∧ (tState Ctx.launch).lock = .free ∧
    (tState Ctx.launch).lcdState = .ready ∧ (List.replicate 65535 0x41#8).length ≤ 65535 := by
  refine ⟨witness_starts, rfl, rfl, by rw [List.length_replicate]⟩

theorem witness_LcdlineRun :
    (tState Ctx.launch).Starts Ctx.launch ∧ (tState Ctx.launch).lock = .free ∧
    (tState Ctx.launch).lcdState = .ready ∧ [0x4F#8, 0x4B#8].length ≤ 65535 ∧
    (1#8 = 0#8 ∧ 0xC0#8 = 0x80#8 ∨ 1#8 = 1#8 ∧ 0xC0#8 = 0xC0#8) := ⟨witness_starts, rfl, rfl, by decide, by decide⟩

/-- Two Running contexts. -/
def tPair (x y : Ctx) : State := { tState x with ctxs := [x, y] }

/-- V5: pins 26 and 5. -/
theorem witness_WritesToDifferentPinsCommute :
    (tPair (tCtx (.write .a0) 26 1 0) (tCtx (.write .a0) 5 0 0)).ctxs[0]? = some (tCtx (.write .a0) 26 1 0) ∧
    (tPair (tCtx (.write .a0) 26 1 0) (tCtx (.write .a0) 5 0 0)).ctxs[1]? = some (tCtx (.write .a0) 5 0 0) ∧
    (tCtx (.write .a0) 26 1 0).status = .running ∧ (tCtx (.write .a0) 5 0 0).status = .running ∧
    (tCtx (.write .a0) 26 1 0).b = Level.high.toByte ∧ (tCtx (.write .a0) 5 0 0).b = Level.low.toByte ∧
    (tCtx (.write .a0) 26 1 0).pin ≤ 31 ∧ (tCtx (.write .a0) 5 0 0).pin ≤ 31 ∧
    (tCtx (.write .a0) 26 1 0).pin ≠ (tCtx (.write .a0) 5 0 0).pin := by decide

/-- A context of V19 at `a3`, its TMP the word of `tFsel`. -/
def tThird (p : Byte) : Ctx := { tCtx (.setmode .a3) p 1 0 with tmp := 0x00209240#32 }

/-- V19: pins 26 and 25. -/
theorem witness_SetmodesOfOneWordLoseAnUpdate :
    (tPair (tThird 26) (tThird 25)).ctxs[0]? = some (tThird 26) ∧
    (tPair (tThird 26) (tThird 25)).ctxs[1]? = some (tThird 25) ∧
    (tThird 26).status = .running ∧ (tThird 25).status = .running ∧
    (tThird 26).pin ≤ 53 ∧ (tThird 25).pin ≤ 53 ∧ (tThird 26).pin ≠ (tThird 25).pin ∧
    (tThird 26).pin / 10 = (tThird 25).pin / 10 ∧
    (tThird 26).tmp = (tPair (tThird 26) (tThird 25)).fsel.get ((tThird 26).pin / 10) ∧
    (tThird 25).tmp = (tPair (tThird 26) (tThird 25)).fsel.get ((tThird 25).pin / 10) := by decide

/-- A state in the middle of LCDCLEAR, with the lock, that the next step leaves. -/
def tBusy : State :=
  { tTurn (tCtx (.lcdclear (.single .y0)) 0 0 0) with lock := .held 0 }

theorem witness_tBusy_ctxs (c : Nat) (x : Ctx) (h : tBusy.ctxs[c]? = some x) :
    (c = 0 ∧ x = tCtx (.lcdclear (.single .y0)) 0 0 0) ∨ (c = 1 ∧ x = Ctx.launch) := by
  match c, h with
  | 0, h => cases h; exact .inl ⟨rfl, rfl⟩
  | 1, h => cases h; exact .inr ⟨rfl, rfl⟩
  | _ + 2, h => cases h

theorem witness_MappingOk : tBusy.MappingOk :=
  ⟨fun _ _ _ _ => .inl rfl, fun _ h => (by cases h), fun _ => rfl⟩

theorem witness_LockOk : tBusy.LockOk := by
  refine ⟨fun c x h hr _ => ?_, fun c h => ?_⟩
  · rcases witness_tBusy_ctxs c x h with ⟨rfl, rfl⟩ | ⟨rfl, rfl⟩
    · rfl
    · cases hr
  · cases h
    exact ⟨_, rfl, .inl ⟨rfl, rfl⟩⟩

/-- A context inside before and after its own step; another context's turn while it is inside. -/
theorem witness_LcdOperationsExcludeEachOther :
    tBusy.LockOk ∧ step tBusy = .next (tAfter (step tBusy) tBusy) ∧
    tBusy.ctxs[0]? = some (tCtx (.lcdclear (.single .y0)) 0 0 0) ∧
    (tCtx (.lcdclear (.single .y0)) 0 0 0).status = .running ∧
    (tCtx (.lcdclear (.single .y0)) 0 0 0).upc.critical = true ∧
    (tAfter (step tBusy) tBusy).ctxs[0]? = some (tCtx (.lcdclear (.single (.high .n0))) 0 0 0) ∧
    (tCtx (.lcdclear (.single (.high .n0))) 0 0 0).upc.critical = true ∧
    (tAfter (step { tBusy with agenda := [.context 1] }) tBusy).cur ≠ 0 :=
  ⟨witness_LockOk, rfl, rfl, rfl, rfl, rfl, rfl, by decide⟩

theorem witness_DelaysOk : tBusy.DelaysOk := by
  refine ⟨fun c x h => ?_, fun e h => by cases h⟩
  rcases witness_tBusy_ctxs c x h with ⟨rfl, rfl⟩ | ⟨rfl, rfl⟩ <;> intro t0 h0 <;> cases h0

theorem witness_PlacedOk : tBusy.PlacedOk := by
  refine ⟨fun c x h hr => ?_, by decide⟩
  rcases witness_tBusy_ctxs c x h with ⟨rfl, rfl⟩ | ⟨rfl, rfl⟩
  · intro y hy
    cases hy
  · cases hr

theorem witness_Inv : tBusy.Inv := by
  refine ⟨witness_MappingOk, witness_LockOk, fun c x h hr _ => ?_, witness_DelaysOk, witness_PlacedOk⟩
  rcases witness_tBusy_ctxs c x h with ⟨rfl, rfl⟩ | ⟨rfl, rfl⟩
  · rfl
  · cases hr

theorem witness_AccessesOk : tBusy.AccessesOk := ⟨witness_PlacedOk, fun e h => by cases h⟩

theorem witness_ResponsesOk : tBusy.ResponsesOk := by
  intro c x w h hw
  rcases witness_tBusy_ctxs c x h with ⟨rfl, rfl⟩ | ⟨rfl, rfl⟩ <;> cases hw

theorem witness_DebounceOk : tBusy.DebounceOk := by
  refine ⟨witness_PlacedOk, witness_DelaysOk, fun c x h => ?_⟩
  rcases witness_tBusy_ctxs c x h with ⟨rfl, rfl⟩ | ⟨rfl, rfl⟩
  · exact ⟨fun h => (by cases h), fun _ => trivial⟩
  · exact ⟨fun _ => rfl, fun h => (by cases h)⟩

/-- An Idle context with a response: a turn of the clock, and its own with a request not yet whole. -/
theorem witness_ResponsesAreKept :
    (∀ tn ∈ [Turn.clock 0, .context 0],
      ({ tState { Ctx.launch with response := some 1#32, todo := [0x43000001#32] } with agenda := [tn] } : State).TakesTurn
        tn (tState { Ctx.launch with response := some 1#32, todo := [0x43000001#32] })) ∧
    Turn.clock 0 ≠ .context 0 ∧ decodeRequest [0x43000001#32] = .error .incomplete :=
  ⟨fun _ _ => .inl ⟨[], rfl, rfl⟩, by decide, by decide⟩

/-- The state and the step of every statement about what each step keeps: MappingIsKept, LockIsKept, DelaysAreKept,
PlacementIsKept, AccessesAreKept, ResponsesAreKept, DebounceHolds, InvariantStepsOn and StepFrame. -/
theorem witness_kept :
    tBusy.MappingOk ∧ tBusy.LockOk ∧ tBusy.DelaysOk ∧ tBusy.PlacedOk ∧ tBusy.AccessesOk ∧ tBusy.ResponsesOk ∧
    tBusy.DebounceOk ∧ tBusy.Inv ∧ step tBusy = .next (tAfter (step tBusy) tBusy) ∧
    (tAfter (step tBusy) tBusy).hist = [.st 0 100 10 0x02000000#32] :=
  ⟨witness_MappingOk, witness_LockOk, witness_DelaysOk, witness_PlacedOk, witness_AccessesOk, witness_ResponsesOk,
    witness_DebounceOk, witness_Inv, rfl, rfl⟩

/-- A context at the `Return` of WAITBTN, with the history of V6's first row. -/
def tSettled : State :=
  { tState (tCtx (.waitbtn .s1) 19 0 0) with
    now := 50000
    hist := [.ld 0 0 13 0x00080000#32, .ld 0 0 13 0#32, .dly 0 50000 0 50000] }

theorem witness_DebounceHolds :
    tSettled.DebounceOk ∧ tSettled.Runs (tCtx (.waitbtn .s1) 19 0 0) ∧
    (tCtx (.waitbtn .s1) 19 0 0).operation = some (.waitbtn 19#8) ∧
    exec (.waitbtn 19#8) tSettled = .next (tAfter (exec (.waitbtn 19#8) tSettled) tSettled) ∧
    (tAfter (exec (.waitbtn 19#8) tSettled) tSettled).hist = tSettled.hist ++ [.ret 0 50000 none] := by
  have hc : ∀ (c : Nat) (x : Ctx), tSettled.ctxs[c]? = some x →
      (c = 0 ∧ x = tCtx (.waitbtn .s1) 19 0 0) ∨ (c = 1 ∧ x = Ctx.launch) := by
    intro c x h
    match c, h with
    | 0, h => cases h; exact .inl ⟨rfl, rfl⟩
    | 1, h => cases h; exact .inr ⟨rfl, rfl⟩
    | _ + 2, h => cases h
  refine ⟨⟨⟨fun c x h hr => ?_, by decide⟩, ⟨fun c x h => ?_, ?_⟩, fun c x h => ?_⟩, ⟨_, rfl, rfl, rfl⟩, by decide, rfl, rfl⟩
  · rcases hc c x h with ⟨rfl, rfl⟩ | ⟨rfl, rfl⟩
    · exact (by decide : 19 ≤ 31)
    · cases hr
  · rcases hc c x h with ⟨rfl, rfl⟩ | ⟨rfl, rfl⟩ <;> intro t0 h0 <;> cases h0
  · intro e h
    simp [tSettled] at h
    rcases h with rfl | rfl | rfl
    · trivial
    · trivial
    · exact Nat.le_refl 50000
  · rcases hc c x h with ⟨rfl, rfl⟩ | ⟨rfl, rfl⟩
    · refine ⟨fun h => (by cases h), fun _ => ?_⟩
      refine ⟨[.ld 0 0 13 0x00080000#32, .ld 0 0 13 0#32], 0, 50000, rfl, ?_, Nat.le_refl _⟩
      exact ⟨[], [], _, _, rfl, ⟨0, 0x00080000#32, rfl, by decide⟩, ⟨0, 0#32, rfl, by decide⟩⟩
    · exact ⟨fun _ => rfl, fun h => by cases h⟩

/-- A MAPOPEN that another context's failed one has come before: the block is Failed, one error is recorded. -/
def tLate : State :=
  { tTurn (tCtx .mapopen 0 0 0) with
    mapState := .failed .mapFailed
    openOutcome := .fails .mapFailed
    hist := [.err 1 50 .mapFailed] }

theorem witness_ErrorsOk : tLate.ErrorsOk ∧ step tLate = .next (tAfter (step tLate) tLate) ∧
    (tAfter (step tLate) tLate).hist = [.err 1 50 .mapFailed] := by
  refine ⟨⟨⟨fun c x h hr => .inr ?_, fun e h => ?_, fun h => ?_⟩, fun e h => ?_, fun h => ?_⟩, rfl, rfl⟩
  · match c, h with
    | 0, h => cases h; exact ⟨rfl, by decide⟩
    | 1, h => cases h; cases hr
    | _ + 2, h => cases h
  · cases h; rfl
  · rcases h with h | h <;> cases h
  · cases h; exact ⟨1, 50, rfl⟩
  · exact absurd rfl (h .mapFailed)

/-- A context about to close a Mapped block. -/
theorem witness_ReleasedAndFailedAreFinal :
    (tTurn (tCtx .mapclose 0 0 0)).MappingOk ∧
    step (tTurn (tCtx .mapclose 0 0 0)) =
      .next (tAfter (step (tTurn (tCtx .mapclose 0 0 0))) (tTurn (tCtx .mapclose 0 0 0))) ∧
    (tAfter (step (tTurn (tCtx .mapclose 0 0 0))) (tTurn (tCtx .mapclose 0 0 0))).mapState ≠ .mapped :=
  ⟨⟨fun _ _ _ _ => .inl rfl, fun _ h => (by cases h), fun _ => rfl⟩, rfl, by decide⟩

theorem witness_RefusedForGood :
    step (tTurn { Ctx.launch with status := .refused .blockNotValid }) =
      .next (tAfter (step (tTurn { Ctx.launch with status := .refused .blockNotValid }))
        (tTurn { Ctx.launch with status := .refused .blockNotValid })) ∧
    ((tTurn { Ctx.launch with status := .refused .blockNotValid }).ctxs[0]?).map Ctx.status =
      some (.refused .blockNotValid) := ⟨rfl, rfl⟩

theorem witness_ActionFrame :
    (tState (tCtx (.write .a0) 31 1 0)).Runs (tCtx (.write .a0) 31 1 0) ∧
    (tCtx (.write .a0) 31 1 0).Placed 16 ∧
    exec (.write 31#8 .high) (tState (tCtx (.write .a0) 31 1 0)) =
      .next (tAfter (exec (.write 31#8 .high) (tState (tCtx (.write .a0) 31 1 0))) (tState Ctx.launch)) ∧
    (tAfter (exec (.write 31#8 .high) (tState (tCtx (.write .a0) 31 1 0))) (tState Ctx.launch)).out ≠ 0#32 :=
  ⟨⟨_, rfl, rfl, rfl⟩, (by decide : 31 ≤ 31), rfl, by decide⟩

end Sys2Proof.Machine
end

/-! SUPPORT. What `exec` is on a Running context, as equations: the instruction that names the operation or the byte the
context is in the middle of is the action the context is at. -/

namespace Sys2Proof.Machine

/-! ### The action of a Running context, as an equation -/

/-- The instruction of the operation a context runs is the action the context is at (R24). -/
theorem exec_of_operation {i : Instr} {s : State} {x : Ctx} (hx : s.Runs x) (hi : x.operation = some i) :
    exec i s = runningAct x s := by
  unfold Ctx.operation at hi
  split at hi
  case h_1 => cases hi
  all_goals
    rename_i hu
    cases hi
    simp only [exec, execMapopen, execMapclose, execShutdown, execSetmode, setmodeOn, execWrite, writeOn, execRead,
      readOn, execWaitbtn, execBlink, execLcdinit, execLcdclear, execLcdcursor, execLcdstr, execLcdline, execLcdbyte,
      onContext_runs hx, hu, runningAct]

/-- The five operations that need Ready, and where they are at a label of theirs (R189, R191 to R195). -/
theorem lcdAt_cases {i : Instr} {l : LcdLabel} {u : Upc} (h : lcdAt i l = some u) :
    (i = .lcdclear ∧ u = .lcdclear l) ∨ (∃ r c, i = .lcdcursor r c ∧ u = .lcdcursor l) ∨
      (∃ t, i = .lcdstr t ∧ u = .lcdstr l) ∨ (∃ n t, i = .lcdline n t ∧ u = .lcdline l) ∨
      ∃ rs b, i = .lcdbyte rs b ∧ u = .lcdbyte l := by
  unfold lcdAt at h
  split at h <;> cases h
  · exact .inl ⟨rfl, rfl⟩
  · exact .inr (.inl ⟨_, _, rfl, rfl⟩)
  · exact .inr (.inr (.inl ⟨_, rfl, rfl⟩))
  · exact .inr (.inr (.inr (.inl ⟨_, _, rfl, rfl⟩)))
  · exact .inr (.inr (.inr (.inr ⟨_, _, rfl, rfl⟩)))

/-- An LCD operation that needs Ready is, whatever its operands, the action of a context that runs it: the registers hold
the operands (R21, R189). -/
theorem exec_of_lcdAt {i : Instr} {s : State} {x : Ctx} {l : LcdLabel} (hx : s.Runs x)
    (hu : lcdAt i l = some x.upc) : exec i s = runningAct x s := by
  rcases lcdAt_cases hu with
    ⟨rfl, hupc⟩ | ⟨_, _, rfl, hupc⟩ | ⟨_, rfl, hupc⟩ | ⟨_, _, rfl, hupc⟩ | ⟨_, _, rfl, hupc⟩
  all_goals
    simp only [exec, execLcdclear, execLcdcursor, execLcdstr, execLcdline, execLcdbyte, onContext_runs hx, hupc,
      runningAct]

/-- Sending a byte, in a context that is sending it, is the action of LcdByte (R183). -/
theorem sendByte_of_sending {rs : Rs} {b : Byte} {y : ByteLabel} {s : State} {x : Ctx} (hx : s.Runs x)
    (hs : x.sendingByte = some (rs, b, y)) : sendByte rs b s = byteAct rs b y x s := by
  simp [sendByte, insideOperation, onContext_runs hx, hs]

/-- A row of the LCD bus that is a byte sends that byte (R86, R87). -/
theorem exec_of_byteRow {i : Instr} {rs : Rs} {b : Byte} (hi : encode i = .byte rs b) (s : State) :
    exec i s = sendByte rs b s := by
  cases i <;> cases hi <;> rfl

/-- A byte's next action, through the operation or through the row of the LCD bus, is that of LcdByte (R183). -/
theorem exec_of_sendsBy {i : Instr} {s : State} {x : Ctx} {rs : Rs} {b : Byte} {y : ByteLabel} (hx : s.Runs x)
    (hs : x.sendingByte = some (rs, b, y)) (hi : x.SendsBy i rs b) : exec i s = byteAct rs b y x s := by
  rcases hi with hop | hrow
  · rw [exec_of_operation hx hop, runningAct_sendingByte hs]
  · rw [exec_of_byteRow hrow, sendByte_of_sending hx hs]

/-- An action that is a `Delay(d)` obeys the rule of delays, if it goes on to `fin` once the delay is over (R270). -/
theorem delayRule_of_delayAct {i : Instr} {x : Ctx} {s : State} {d : Nat} {k : Ctx → State → Result}
    {fin : State → State} (he : exec i s = delayAct d x s k)
    (hk : ∀ r, k { x with delayFrom := none } r = .next (fin r)) : DelayRule i x s d fin := by
  refine ⟨fun h0 => ?starts, fun t0 h0 hlt => ?holds, fun t0 h0 hle => ?ends⟩
  case starts => simp only [he, delayAct, h0]
  case holds => simp only [he, delayAct, h0, Nat.not_le.2 hlt, if_false]
  case ends =>
    simp only [he, delayAct, h0, hle, if_true, hk]
    rfl

/-- `Return()` of an operation without a value, in the words of Safety.lean (R9, R91). -/
theorem returnAct_none (x : Ctx) (s : State) : returnAct none x s = .next (s.returned x) := rfl

end Sys2Proof.Machine

/-! SUPPORT. What an action changes, register by register of the block: for each field, the actions that touch it (R10,
R58), and the one event and the one latch event that it can add (R14, R186). -/

namespace Sys2Proof.Machine

/-! ### What the end of a delay changes -/

/-- A delay's end changes `lcd_state` only where it makes the display Ready (R31, R187). -/
theorem DelayMove.lcdState {x y : Ctx} {d : Nat} {f : State → State} (h : DelayMove x d y f) (s : State) :
    (f s).lcdState = s.lcdState ∨ x.upc = .lcdinit (.wait .commit) := by
  cases h with
  | @wait k hu =>
    cases k with
    | commit => exact .inr hu
    | _ => exact .inl rfl
  | byteEnd _ => exact .inl (by simp)
  | _ => exact .inl rfl

/-- A delay's end changes the shadow only where it ends a byte (R199). -/
theorem DelayMove.shadow {x y : Ctx} {d : Nat} {f : State → State} (h : DelayMove x d y f) (s : State) :
    ((f s).lcdCursor = s.lcdCursor ∧ (f s).lcdDisplayOn = s.lcdDisplayOn) ∨
      ∃ rs b, x.sendingByte = some (rs, b, .y1) := by
  cases h with
  | byteEnd hs => exact .inr ⟨_, _, hs⟩
  | _ => exact .inl ⟨rfl, rfl⟩

/-! ### Where a pin store goes -/

theorem mem_lcdPins_of_nibbleStore {n : Nibble} {l : NibbleLabel} {p : Nat} {v : Level}
    (h : nibbleStore n l = some (p, v)) : p ∈ lcdPins := by
  cases l <;> cases h <;> simp [lcdPins]

theorem mem_lcdPins_of_byteStore {rs : Rs} {b : Byte} {y : ByteLabel} {p : Nat} {v : Level}
    (h : byteStore rs b y = some (p, v)) : p ∈ lcdPins := by
  cases y with
  | y0 => cases h; simp [lcdPins]
  | high l => exact mem_lcdPins_of_nibbleStore h
  | low l => exact mem_lcdPins_of_nibbleStore h
  | y1 => cases h

/-- A context that is sending a byte runs an LCD operation, which drives the pins of the display (R182). -/
theorem drives_of_sendingByte {x : Ctx} {r : Rs × Byte × ByteLabel} (h : x.sendingByte = some r) :
    x.drives = lcdPins := by
  unfold Ctx.sendingByte at h
  split at h
  case h_8 => cases h
  all_goals
    rename_i hu
    simp only [Ctx.drives, hu]

/-- A pin store is to a pin that the operation drives (R58). -/
theorem PinMove.mem_drives {x : Ctx} {p : Nat} {l : Level} {u : Upc} (h : PinMove x p l u) : p ∈ x.drives := by
  cases h with
  | nibble hu hp _ => simpa only [Ctx.drives, hu] using mem_lcdPins_of_nibbleStore hp
  | byte hs hp _ => rw [drives_of_sendingByte hs]; exact mem_lcdPins_of_byteStore hp
  | _ hu => simp [Ctx.drives, hu, lcdPins]

theorem DirectMove.mem_drives {x : Ctx} {l : Level} {u : Upc} (h : DirectMove x l u) : x.pin ∈ x.drives := by
  cases h <;> simp_all [Ctx.drives]

theorem DirectMove.upc {x : Ctx} {l : Level} {u : Upc} (h : DirectMove x l u) :
    x.upc = .write .a0 ∨ x.upc = .blink .b0 ∨ x.upc = .blink .b2 := by
  cases h with
  | write hu => exact .inl hu
  | high hu => exact .inr (.inl hu)
  | low hu => exact .inr (.inr hu)

theorem SampleMove.upc {x : Ctx} {r : BitVec 1} {u : Upc} (h : SampleMove x r u) :
    x.upc = .read .a0 ∨ x.upc = .waitbtn .p0 ∨ x.upc = .waitbtn .r0 := by
  cases h with
  | read hu => exact .inl hu
  | press hu => exact .inr (.inl hu)
  | release hu => exact .inr (.inr hu)

/-! ### What an action changes -/

/-- A placed SETMODE accesses a function-select word, no other word (R58, R82, R228). -/
theorem fselWordOf_lt_of_placed {x : Ctx} {l : SetmodeLabel} {cols : Nat} (hu : x.upc = .setmode l)
    (hp : x.Placed cols) : fselWordOf x.pin < 6 := by
  have hpin : x.pin ≤ 53 := by simpa only [Ctx.Placed, hu] using hp
  exact fselWordOf_lt (by omega)

/-- FSEL changes only in the stores of SETMODE, and there in the word of its pin (R26, R130). -/
theorem Effect.fsel {x : Ctx} {s t : State} (h : Effect x s t) :
    t.fsel = s.fsel ∨
      (x.upc = .setmode .a1 ∨ x.upc = .setmode .a3) ∧ ∀ w, w < 6 → w ≠ x.pin / 10 → t.fsel.get w = s.fsel.get w := by
  cases h with
  | fselStore hu hlt =>
    refine .inr ⟨hu.imp (·.1) (·.1), fun w hw hne => ?_⟩
    have hne' : w ≠ fselWordOf x.pin := hne
    simp [Fsel.get_set _ _ _ _ hlt hw, hne']
  | delayEnds hm _ _ => exact .inl (by rw [hm.frame]; rfl)
  | _ => exact .inl (by simp)

/-- OUT changes only by one pin store of the operation (R28, R58). -/
theorem Effect.out {x : Ctx} {s t : State} {cols : Nat} (hp : x.Placed cols) (h : Effect x s t) :
    t.out = s.out ∨ ∃ p l, p ∈ x.drives ∧ t.out = outAfter s.out p l := by
  cases h with
  | pin hm => exact .inr ⟨_, _, hm.mem_drives, rfl⟩
  | @direct l _ hm => exact .inr ⟨_, l, hm.mem_drives, by simp⟩
  | strayStore hu hw =>
    have h6 : fselWordOf x.pin < 6 := hu.elim (fselWordOf_lt_of_placed ·.1 hp) (fselWordOf_lt_of_placed ·.1 hp)
    omega
  | delayEnds hm _ _ => exact .inl (by rw [hm.frame]; rfl)
  | _ => exact .inl (by simp)

/-- `map_state` changes only in the action of MAPOPEN and in the closing action (R30). -/
theorem Effect.mapState {x : Ctx} {s t : State} (h : Effect x s t) :
    t.mapState = s.mapState ∨ x.upc = .mapopen ∨ x.upc = .mapclose ∨ x.upc = .shutdown .a2 := by
  cases h with
  | opened hu _ _ => exact .inr (.inl hu)
  | raised hu _ _ => exact .inr (.inl hu)
  | closed hu _ _ => exact .inr (.inr hu)
  | delayEnds hm _ _ => exact .inl (by rw [hm.frame]; rfl)
  | _ => exact .inl (by simp)

/-- `lcd_state` changes only in LCDINIT, at its `Acquire` and after its 0x2 nibble (R31). -/
theorem Effect.lcdState {x : Ctx} {s t : State} (h : Effect x s t) :
    t.lcdState = s.lcdState ∨ x.upc = .lcdinit .i0 ∨ x.upc = .lcdinit (.wait .commit) := by
  cases h with
  | initAcquired hu _ => exact .inr (.inl hu)
  | delayEnds hm _ _ => exact (hm.lcdState _).imp (fun he => he) .inr
  | _ => exact .inl (by simp)

/-- The lock changes only by being taken when Free and by being given back by its holder (R32, R180, R181). -/
theorem Effect.lock {x : Ctx} {s t : State} (h : Effect x s t) :
    t.lock = s.lock ∨ (s.lock = .free ∧ t.lock = .held s.cur) ∨ (s.lock = .held s.cur ∧ t.lock = .free) := by
  cases h with
  | initAcquired _ hl => exact .inr (.inl ⟨hl, rfl⟩)
  | acquired _ hl _ => exact .inr (.inl ⟨hl, rfl⟩)
  | notReady _ hl _ => exact .inr (.inl ⟨hl, rfl⟩)
  | released _ hl => exact .inr (.inr ⟨hl, rfl⟩)
  | delayEnds hm _ _ => exact .inl (by rw [hm.frame]; rfl)
  | _ => exact .inl (by simp)

/-- A draw is taken only by a sample (R56). -/
theorem Effect.draws {x : Ctx} {s t : State} {cols : Nat} (hp : x.Placed cols) (h : Effect x s t) :
    (t.draws = s.draws ∧ t.drawn = s.drawn) ∨
      x.upc = .read .a0 ∨ x.upc = .waitbtn .p0 ∨ x.upc = .waitbtn .r0 := by
  cases h with
  | sampled v _ hm => exact .inr hm.upc
  | strayLoad v _ hu hw =>
    have h6 : fselWordOf x.pin < 6 := hu.elim (fselWordOf_lt_of_placed ·.1 hp) (fselWordOf_lt_of_placed ·.1 hp)
    omega
  | delayEnds hm _ _ => exact .inl (by rw [hm.frame]; exact ⟨rfl, rfl⟩)
  | _ => exact .inl (by simp)

/-- The shadow changes only at the end of a byte and where a direct write reaches a pin of the display (R33, R199). -/
theorem Effect.shadow {x : Ctx} {s t : State} (h : Effect x s t) :
    (t.lcdCursor = s.lcdCursor ∧ t.lcdDisplayOn = s.lcdDisplayOn) ∨
      (∃ rs b, x.sendingByte = some (rs, b, .y1)) ∨
      (x.pin ∈ lcdPins ∧ (x.upc = .write .a0 ∨ x.upc = .blink .b0 ∨ x.upc = .blink .b2)) := by
  cases h with
  | direct hm =>
    by_cases hp : x.pin ∈ lcdPins
    · exact .inr (.inr ⟨hp, hm.upc⟩)
    · exact .inl (by simp [State.shadowLost, hp])
  | delayEnds hm _ _ => exact (hm.shadow _).imp (fun he => he) .inl
  | _ => exact .inl (by simp)

/-- An action adds at most one event, its own and of this moment (R10, R14). -/
theorem Effect.hist {x : Ctx} {s t : State} (h : Effect x s t) :
    t.hist = s.hist ∨ ∃ e, t.hist = s.hist ++ [e] ∧ e.ctx = s.cur ∧ e.time = s.now := by
  cases h with
  | openRefused => exact .inl rfl
  | closeRefused => exact .inl rfl
  | delayStarts => exact .inl rfl
  | held => exact .inl rfl
  | waits => exact .inl rfl
  | @pin p l u => exact .inr ⟨pinEvent s.cur s.now p l, rfl, by cases l <;> exact ⟨rfl, rfl⟩⟩
  | @direct l u => exact .inr ⟨pinEvent s.cur s.now x.pin l, by simp, by cases l <;> exact ⟨rfl, rfl⟩⟩
  | delayEnds hm _ _ => exact .inr ⟨_, by rw [hm.frame]; rfl, rfl, rfl⟩
  | sampled => exact .inr ⟨_, by simp; rfl, rfl, rfl⟩
  | strayLoad => exact .inr ⟨_, by simp; rfl, rfl, rfl⟩
  | _ => exact .inr ⟨_, rfl, rfl, rfl⟩

/-- A change of OUT makes at most one latch event (R186). -/
theorem length_latchEvents_le (f : Fsel) (old new : Word) : (latchEvents f old new).length ≤ 1 := by
  unfold latchEvents
  split <;> simp

/-- An action adds at most one latch event (R186). -/
theorem Effect.latches {x : Ctx} {s t : State} (h : Effect x s t) :
    ∃ ls, t.latches = s.latches ++ ls ∧ ls.length ≤ 1 := by
  cases h with
  | pin => exact ⟨_, rfl, length_latchEvents_le _ _ _⟩
  | direct => exact ⟨_, by simp; rfl, length_latchEvents_le _ _ _⟩
  | strayStore => exact ⟨_, rfl, length_latchEvents_le _ _ _⟩
  | delayEnds hm _ _ => exact ⟨[], by rw [hm.frame]; simp, by simp⟩
  | _ => exact ⟨[], by simp, by simp⟩

end Sys2Proof.Machine

/-! PROOFS. The statements about what a step runs and what an accepted request loads. -/

namespace Sys2Proof.Machine

/-- The turn of a context that there is runs what the context fetches (R12, R60). -/
theorem step_of_contextTurn {s s1 : State} {c : Nat} {x : Ctx} (ht : s.TakesTurn (.context c) s1)
    (hx : s.ctxs[c]? = some x) :
    step s = contextTurn { s1 with cur := c } ∧ s1.ctxs[c]? = some x := by
  have hx1 : s1.ctxs[c]? = some x := by rw [takesTurn_ctxs ht, hx]
  have hc : c < s1.ctxs.length := (List.getElem?_eq_some_iff.mp hx1).1
  exact ⟨by simp [step, takesTurn_iff.1 ht, runTurn, hc], hx1⟩

/-- The turn of a Running context is the instruction it is in the middle of (R24). -/
theorem contextTurn_running {s : State} {x : Ctx} {i : Instr} (hx : s.ctxs[s.cur]? = some x)
    (hr : x.status = .running) (hi : x.computed.instr = some i) : contextTurn s = exec i s := by
  simp [contextTurn, fetch, hx, hr, hi]

/-- The turn of an Idle context is the request its requester's words begin with (R93). -/
theorem contextTurn_request {s : State} {x : Ctx} {i : Instr} {rest : List Word} (hx : s.ctxs[s.cur]? = some x)
    (hidle : x.status = .idle) (hd : decodeRequest x.todo = .ok (i, rest)) :
    contextTurn s = exec i (s.putCtx { x with todo := rest }) := by
  simp only [contextTurn, fetch, hx, hidle, hd]

/-- Settles O5: a turn is `exec` of what its context fetches. -/
theorem stepRunsWhatItFetches : Obligations.StepRunsWhatItFetches := by
  intro s s1 c x ht hx
  obtain ⟨hstep, hx1⟩ := step_of_contextTurn ht hx
  refine ⟨fun i hr hi => ?running, fun i rest hidle hd => ?idle⟩
  case running => rw [hstep, contextTurn_running hx1 hr hi]
  case idle => rw [hstep, contextTurn_request hx1 hidle hd, State.putCtx]

/-- Settles O17: the hand-over of a request that nothing refuses loads the context. -/
theorem handOverLoadsOperands : Obligations.HandOverLoadsOperands := by
  intro i s x hx hidle hreq hok
  rw [exec_idle hx hidle hreq, handedOver, hok]

end Sys2Proof.Machine

/-! PROOFS. The statements about single actions: BLINK, the `Acquire` of the LCD operations, the end of a byte. -/

namespace Sys2Proof.Machine

/-! ### BLINK (R170) -/

/-- A Running context at a label of BLINK takes BLINK's action there. -/
theorem exec_blink {p : Byte} {n : BitVec 16} {s : State} {x : Ctx} {l : BlinkLabel} (hx : s.Runs x)
    (hu : x.upc = .blink l) : exec (.blink p n) s = blinkAct l x s := by
  simp only [exec, execBlink, onContext_runs hx, hu]

/-- Settles O27: each label of BLINK by its own action. -/
theorem blinkActs : Obligations.BlinkActs := by
  rintro _ n s x hx rfl - -
  refine ⟨fun hu => ?b0, fun hu => ?b1, fun hu => ?b2, fun hu => ?b3, fun hu => ?b4⟩
  case b0 => rw [exec_blink hx hu, blinkAct, directPinWrite_stored]; rfl
  case b1 => exact delayRule_of_delayAct (by rw [exec_blink hx hu, blinkAct]; rfl) fun r => rfl
  case b2 => rw [exec_blink hx hu, blinkAct, directPinWrite_stored]; rfl
  case b3 => exact delayRule_of_delayAct (by rw [exec_blink hx hu, blinkAct]; rfl) fun r => rfl
  case b4 => rw [exec_blink hx hu, blinkAct, returnAct_none]

/-! ### The `Acquire` of the LCD operations (R180, R189) -/

/-- Where an operation that needs Ready goes once it has the lock: LCDSTR to the loop test with IDX at 0, every other one to
its byte (R191 to R195). -/
theorem runningAct_acquire {i : Instr} {x : Ctx} (hu : lcdAt i .acquire = some x.upc) (s : State) :
    ∃ mk begin, runningAct x s = lcdAct mk begin .acquire x s ∧ begin x = x.afterAcquire i := by
  rcases lcdAt_cases hu with
    ⟨rfl, hupc⟩ | ⟨_, _, rfl, hupc⟩ | ⟨_, rfl, hupc⟩ | ⟨_, _, rfl, hupc⟩ | ⟨_, _, rfl, hupc⟩
  all_goals
    simp only [runningAct, hupc]
    exact ⟨_, _, rfl, rfl⟩

/-- Settles O29: `Acquire` by the lock, and once it is taken by `lcd_state`. -/
theorem lcdAcquires : Obligations.LcdAcquires := by
  intro i s x hx hu
  obtain ⟨mk, begin, hact, hbegin⟩ := runningAct_acquire hu s
  have he : exec i s = lcdAct mk begin .acquire x s := (exec_of_lcdAt hx hu).trans hact
  refine ⟨fun c hheld => ?held, fun hfree hready => ?taken, fun hfree hready => ?refused⟩
  case held => simp only [he, lcdAct, acquireAct, hheld]
  case taken =>
    simp only [he, lcdAct, acquireAct, hfree, State.record_lcdState, hready, if_true, hbegin]
    rfl
  case refused =>
    simp only [he, lcdAct, acquireAct, hfree, State.record_lcdState, hready, if_false]
    rfl

/-! ### The end of a byte (R183, R184, R199) -/

theorem byteWait_eq_execWait (rs : Rs) (b : Byte) : byteWait rs b = execWait rs b := by
  cases rs <;> simp [byteWait, execWait, Config.tExec, Config.tExecLong]

/-- Where a context goes after its byte, in the words of Safety.lean. -/
theorem afterByte_eq_byteDone {x : Ctx} {r : Rs × Byte × ByteLabel} (h : x.sendingByte = some r) :
    x.afterByte = x.byteDone := by
  unfold Ctx.sendingByte at h
  unfold Ctx.afterByte Ctx.byteDone
  split at h <;> cases h <;> rename_i hu <;> simp only [hu]
  case h_1 k y => cases k <;> rfl
  all_goals rfl

/-- Settles O33: the last action of LcdByte is the execution wait. -/
theorem byteEnds : Obligations.ByteEnds := by
  intro i s x rs b hx hs hi
  rw [byteWait_eq_execWait]
  have hdone : ({ x with delayFrom := none } : Ctx).afterByte = ({ x with delayFrom := none } : Ctx).byteDone :=
    afterByte_eq_byteDone (r := (rs, b, .y1)) hs
  refine delayRule_of_delayAct (by rw [exec_of_sendsBy hx hs hi, byteAct]) fun r => ?_
  rw [hdone]
  rfl

end Sys2Proof.Machine

/-! PROOFS. The two frame statements: what a step can change, and what an action leaves unchanged. -/

namespace Sys2Proof.Machine

/-- What StepFrame says of one step, from `s` to `t` (R10, R14, R21, R34). -/
def State.FramesTo (s t : State) : Prop :=
  s.now ≤ t.now ∧
  (∃ es, t.hist = s.hist ++ es ∧ es.length ≤ 1 ∧ ∀ e ∈ es, e.ctx = t.cur ∧ e.time = s.now) ∧
  (∃ ls, t.latches = s.latches ++ ls ∧ ls.length ≤ 1) ∧
  t.ctxs.length = s.ctxs.length ∧ t.lcdCols = s.lcdCols ∧ t.openOutcome = s.openOutcome ∧
  (∀ c, c ≠ t.cur → t.ctxs[c]? = s.ctxs[c]?) ∧
  (t.now ≠ s.now → t = { s with now := t.now, agenda := t.agenda, turns := t.turns })

/-- A tick of the clock is within the frame of a step (R271). -/
theorem framesTo_tick (s : State) (ag : List Turn) (n e : Nat) :
    s.FramesTo (({ s with agenda := ag, turns := n } : State).tick e) :=
  ⟨by simp, ⟨[], by simp⟩, ⟨[], by simp⟩, rfl, rfl, rfl, fun _ _ => rfl, fun _ => rfl⟩

/-- A turn for which nothing is enabled is within the frame of a step (R23). -/
theorem framesTo_turn (s : State) (ag : List Turn) (n c : Nat) :
    s.FramesTo { s with agenda := ag, turns := n, cur := c } :=
  ⟨Nat.le_refl _, ⟨[], by simp⟩, ⟨[], by simp⟩, rfl, rfl, rfl, fun _ _ => rfl, fun h => absurd rfl h⟩

/-- A hand-over, accepted or refused, is within the frame of a step: it writes its own context (R93). -/
theorem framesTo_putCtx (s : State) (ag : List Turn) (n c : Nat) (x : Ctx) :
    s.FramesTo (({ s with agenda := ag, turns := n, cur := c } : State).putCtx x) :=
  ⟨Nat.le_refl _, ⟨[], by simp⟩, ⟨[], by simp⟩, by simp, rfl, rfl,
    fun d hd => by simp [Ne.symm (show d ≠ c from hd)], fun h => absurd rfl h⟩

/-- An action of a Running context is within the frame of a step. -/
theorem framesTo_of_effect {s t : State} {x : Ctx} {ag : List Turn} {n c : Nat} (hx : s.ctxs[c]? = some x)
    (h : Effect x.computed { s with agenda := ag, turns := n, cur := c } t) : s.FramesTo t := by
  obtain ⟨y, hctxs, _, hcur, hnow, _, _, hcols, hopen, _⟩ :=
    effect_frame (s := { s with agenda := ag, turns := n, cur := c }) hx h
  refine ⟨hnow.ge, ?hist, h.latches, by simp [hctxs], hcols, hopen, fun d hd => ?others, fun hne => absurd hnow hne⟩
  case hist =>
    rcases h.hist with he | ⟨e, he, hec, het⟩
    · exact ⟨[], by simp [he], by simp, by simp⟩
    · exact ⟨[e], he, by simp, by simp [hec, het, hcur]⟩
  case others =>
    have hdc : c ≠ d := fun hcd => hd (hcd ▸ hcur.symm)
    simp [hctxs, hdc]

/-- Settles O59: every case of a step is within its frame. -/
theorem stepFrame : Obligations.StepFrame := by
  intro s t h
  change s.FramesTo t
  obtain ⟨tn, s1, htt, hcase⟩ := step_cases h
  obtain ⟨ag, n, rfl⟩ := takesTurn_frame htt
  rcases hcase with ⟨e, rfl, rfl⟩ |
    ⟨c, rfl, rfl | rfl | ⟨x, hx, ⟨_, _, rfl⟩ | ⟨_, i, rest, _, _, rfl⟩ | ⟨_, he⟩⟩⟩
  · exact framesTo_tick s ag n e
  · exact framesTo_turn s ag n s.cur
  · exact framesTo_turn s ag n c
  · exact framesTo_putCtx s ag n c _
  · exact framesTo_putCtx s ag n c _
  · exact framesTo_of_effect hx he

/-- Settles O60: an action's frame, field by field. -/
theorem actionFrame : Obligations.ActionFrame := by
  rintro i s t _ ⟨y, hme, hr, rfl⟩ hplaced h
  have heff : Effect y.computed s t := exec_instr_running hme hr h
  obtain ⟨z, hctxs, htodo, hcur, hnow, hagenda, hturns, hcols, hopen, ha, hb, hc, htext, hcount⟩ :=
    effect_frame hme heff
  have hmez : t.me = some z := by
    rw [State.me, hctxs, hcur, getElem?_set_cur hme, if_pos rfl]
  refine ⟨heff.fsel.resolve_left, (heff.out hplaced).resolve_left, heff.mapState.resolve_left,
    heff.lcdState.resolve_left, heff.lock.resolve_left, fun hd => ?draws, fun hsh => ?shadow,
    ⟨z, hmez, ha, hb, hc, htext, htodo, hcount⟩, fun c hne => ?others, hnow, hcur, hagenda, hturns, hcols, hopen⟩
  case draws => exact (heff.draws hplaced).resolve_left fun ⟨h1, h2⟩ => hd.elim (· h1) (· h2)
  case shadow => exact heff.shadow.resolve_left fun ⟨h1, h2⟩ => hsh.elim (· h1) (· h2)
  case others => rw [hctxs, getElem?_set_cur hme, if_neg hne]

end Sys2Proof.Machine

/-! SUPPORT. How an invariant that speaks of every context is kept, and the lock and `lcd_state`: what each action
does to them, and that every step keeps what is said of them (R31, R180, R181, R190). -/

namespace Sys2Proof.Machine

/-- What holds of every context holds after the executing one was written, if it holds of what was written. -/
theorem forall_ctxs_of_set {s t : State} {x y : Ctx} {P : Nat → Ctx → Prop} (hx : s.ctxs[s.cur]? = some x)
    (ht : t.ctxs = s.ctxs.set s.cur y) (hy : P s.cur y)
    (hothers : ∀ c z, c ≠ s.cur → s.ctxs[c]? = some z → P c z) : ∀ c z, t.ctxs[c]? = some z → P c z := by
  intro c z hz
  rw [ht, getElem?_set_cur hx] at hz
  split at hz
  · rename_i hc
    cases hz
    exact hc ▸ hy
  · exact hothers c z ‹_› hz

/-! ### The lock (R180, R181, R190) -/

/-- The context is Running between its `Acquire` and its `Release` (R190). -/
def Ctx.Inside (x : Ctx) : Prop := x.status = .running ∧ x.upc.critical = true

theorem not_inside_of_status {x : Ctx} (h : x.status ≠ .running) : ¬ x.Inside := fun hi => h hi.1

theorem not_inside_of_upc {x : Ctx} (h : x.upc.critical = false) : ¬ x.Inside := fun hi => by simp [hi.2] at h

theorem inside_congr {x y : Ctx} (hs : y.status = x.status) (hc : y.upc.critical = x.upc.critical) :
    y.Inside ↔ x.Inside := by
  rw [Ctx.Inside, Ctx.Inside, hs, hc]

/-- An operation that ends, or is refused, outside the critical region stays outside. -/
theorem inside_iff_of_ends {x y : Ctx} (hc : x.upc.critical = false) (hy : y.status ≠ .running) :
    y.Inside ↔ x.Inside :=
  iff_of_false (not_inside_of_status hy) (not_inside_of_upc hc)

/-- The labels whose action may change `map_state`, and is the last one of its operation (R30, R120 to R122). -/
def Upc.setsMap : Upc → Bool
  | .mapopen => true
  | .mapclose => true
  | .shutdown .a2 => true
  | _ => false

theorem setsMap_iff (u : Upc) : u.setsMap = true ↔ u = .mapopen ∨ u = .mapclose ∨ u = .shutdown .a2 := by
  unfold Upc.setsMap
  split <;> simp_all

/-- The labels whose action may change `map_state` are outside the critical region and no delays. -/
theorem setsMap_label {x : Ctx} (h : x.upc.setsMap = true) : x.upc.critical = false ∧ x.delayLength = none := by
  rcases (setsMap_iff _).1 h with hu | hu | hu <;> simp [Ctx.delayLength, Ctx.sendingByte, Upc.critical, hu]

theorem setsMap_of_mapopen {x : Ctx} (h : x.upc = .mapopen) : x.upc.setsMap = true :=
  (setsMap_iff _).2 (.inl h)

theorem setsMap_of_closing {x : Ctx} (h : x.upc = .mapclose ∨ x.upc = .shutdown .a2) : x.upc.setsMap = true :=
  (setsMap_iff _).2 (.inr h)

/-- The labels of SETMODE are outside the critical region, no delays, and leave `map_state` alone (R130). -/
theorem setmode_label {x : Ctx} {l l' : SetmodeLabel} {p q : Prop}
    (h : x.upc = .setmode l ∧ p ∨ x.upc = .setmode l' ∧ q) :
    x.upc.critical = false ∧ x.delayLength = none ∧ x.upc.setsMap = false := by
  rcases h with ⟨hu, _⟩ | ⟨hu, _⟩ <;>
    simp [Ctx.delayLength, Ctx.sendingByte, Upc.critical, Upc.setsMap, hu]

/-- What an action does to the lock and to its context's place in the critical region: neither changes, or the Free lock
is taken, or its holder gives it back and leaves (R180, R181, R242). -/
theorem Effect.inside {x : Ctx} {s t : State} (hx : s.ctxs[s.cur]? = some x) (h : Effect x.computed s t) :
    ∃ y, t.ctxs = s.ctxs.set s.cur y ∧
      ((t.lock = s.lock ∧ (y.Inside ↔ x.Inside)) ∨
        (s.lock = .free ∧ t.lock = .held s.cur ∧
          ((x.status = .running → y.Inside) ∨ y.status = .refused .lcdNotReady)) ∨
        (s.lock = .held s.cur ∧ t.lock = .free ∧ ¬ y.Inside)) := by
  have self := (set_cur_self hx).symm
  have ends {y : Ctx} (hc : x.computed.upc.critical = false) (hy : y.status ≠ .running) : y.Inside ↔ x.Inside :=
    inside_iff_of_ends hc hy
  have moves {y : Ctx} {u : Upc} (hs : y.status = x.status) (hu : y.upc = u)
      (hc : x.computed.upc.critical = false ∧ u.critical = false) : y.Inside ↔ x.Inside :=
    inside_congr hs (by rw [hu, hc.2, ← hc.1]; rfl)
  cases h with
  | opened hu => exact ⟨_, rfl, .inl ⟨rfl, ends (setsMap_label (setsMap_of_mapopen hu)).1 nofun⟩⟩
  | openRefused hu => exact ⟨_, rfl, .inl ⟨rfl, ends (setsMap_label (setsMap_of_mapopen hu)).1 nofun⟩⟩
  | raised hu => exact ⟨_, rfl, .inl ⟨rfl, ends (setsMap_label (setsMap_of_mapopen hu)).1 nofun⟩⟩
  | closed hu => exact ⟨_, rfl, .inl ⟨rfl, ends (setsMap_label (setsMap_of_closing hu)).1 nofun⟩⟩
  | closeRefused hu => exact ⟨_, rfl, .inl ⟨rfl, ends (setsMap_label (setsMap_of_closing hu)).1 nofun⟩⟩
  | returned hm => exact ⟨_, rfl, .inl ⟨rfl, ends hm.critical nofun⟩⟩
  | pin hm => exact ⟨_, rfl, .inl ⟨rfl, inside_congr rfl hm.critical.1⟩⟩
  | @direct _ u hm => exact ⟨x.computed.goto u, by simp, .inl ⟨by simp, moves rfl rfl hm.critical⟩⟩
  | fselLoad hu => exact ⟨_, rfl, .inl ⟨rfl, moves rfl rfl ⟨(setmode_label hu).1, rfl⟩⟩⟩
  | fselStore hu => exact ⟨_, rfl, .inl ⟨rfl, moves rfl rfl ⟨(setmode_label hu).1, rfl⟩⟩⟩
  | strayLoad _ _ hu =>
    obtain ⟨ds, n, hd⟩ := takeDraw_frame s
    rw [hd]
    exact ⟨_, rfl, .inl ⟨rfl, moves rfl rfl ⟨(setmode_label hu).1, rfl⟩⟩⟩
  | strayStore hu => exact ⟨_, rfl, .inl ⟨rfl, moves rfl rfl ⟨(setmode_label hu).1, rfl⟩⟩⟩
  | sampled _ _ hm =>
    obtain ⟨ds, n, hd⟩ := takeDraw_frame s
    rw [hd]
    exact ⟨_, rfl, .inl ⟨rfl, moves rfl rfl hm.critical⟩⟩
  | delayStarts => exact ⟨_, rfl, .inl ⟨rfl, inside_congr rfl rfl⟩⟩
  | held => exact ⟨x, self, .inl ⟨rfl, .rfl⟩⟩
  | waits => exact ⟨x, self, .inl ⟨rfl, .rfl⟩⟩
  | delayEnds hm =>
    exact ⟨_, by rw [hm.frame]; rfl, .inl ⟨by rw [hm.frame]; rfl, inside_congr hm.critical.2 hm.critical.1⟩⟩
  | initAcquired _ hl => exact ⟨_, rfl, .inr (.inl ⟨hl, rfl, .inl fun hr => ⟨hr, rfl⟩⟩)⟩
  | acquired hm hl =>
    exact ⟨_, rfl, .inr (.inl ⟨hl, rfl, .inl fun hr => ⟨hm.critical.2.2.2.trans hr, hm.critical.2.1⟩⟩)⟩
  | notReady _ hl => exact ⟨_, rfl, .inr (.inl ⟨hl, rfl, .inr rfl⟩)⟩
  | released hm hl => exact ⟨_, rfl, .inr (.inr ⟨hl, rfl, not_inside_of_upc hm.critical.2⟩)⟩

/-- The lock stands and its context's place in the critical region too: the lock invariant is kept. -/
theorem State.LockOk.of_inside_iff {s t : State} {x y : Ctx} (hs : s.LockOk) (hx : s.ctxs[s.cur]? = some x)
    (hne : x.status ≠ .refused .lcdNotReady) (ht : t.ctxs = s.ctxs.set s.cur y) (hl : t.lock = s.lock)
    (hi : y.Inside ↔ x.Inside) : t.LockOk := by
  obtain ⟨hholds, hholder⟩ := hs
  rw [State.LockOk, hl]
  refine ⟨forall_ctxs_of_set hx ht (fun hr hc => ?_) fun c z _ => hholds c z, fun c hc => ?_⟩
  · obtain ⟨hr, hc⟩ := hi.1 ⟨hr, hc⟩
    exact hholds _ x hx hr hc
  · obtain ⟨z, hz, hin⟩ := hholder c hc
    rw [ht, getElem?_set_cur hx]
    split
    · rename_i hcur
      obtain rfl : z = x := by rw [hcur, hx] at hz; exact (Option.some.inj hz).symm
      exact ⟨y, rfl, .inl (hi.2 (hin.resolve_right hne))⟩
    · exact ⟨z, hz, hin⟩

/-- While the lock is Free no context is inside. -/
theorem State.LockOk.not_inside_of_free {s : State} (hs : s.LockOk) (hl : s.lock = .free) {c : Nat} {x : Ctx}
    (hx : s.ctxs[c]? = some x) : ¬ x.Inside := by
  rintro ⟨hr, hc⟩
  have := hs.1 c x hx hr hc
  simp [hl] at this

/-- The Free lock is taken by a context that goes inside, or is refused there (R180, R242). -/
theorem State.LockOk.of_acquire {s t : State} {x y : Ctx} (hs : s.LockOk) (hx : s.ctxs[s.cur]? = some x)
    (hfree : s.lock = .free) (ht : t.ctxs = s.ctxs.set s.cur y) (hl : t.lock = .held s.cur)
    (hy : y.Inside ∨ y.status = .refused .lcdNotReady) : t.LockOk := by
  rw [State.LockOk, hl]
  refine ⟨forall_ctxs_of_set hx ht (fun _ _ => rfl) fun c z _ hz hr hc => ?_, fun c hc => ?_⟩
  · exact absurd ⟨hr, hc⟩ (hs.not_inside_of_free hfree hz)
  · cases hc
    exact ⟨y, by rw [ht, getElem?_set_cur hx, if_pos rfl], hy⟩

/-- The lock is given back by its holder, which leaves (R181). -/
theorem State.LockOk.of_release {s t : State} {x y : Ctx} (hs : s.LockOk) (hx : s.ctxs[s.cur]? = some x)
    (hheld : s.lock = .held s.cur) (ht : t.ctxs = s.ctxs.set s.cur y) (hl : t.lock = .free) (hy : ¬ y.Inside) :
    t.LockOk := by
  rw [State.LockOk, hl]
  refine ⟨forall_ctxs_of_set hx ht (fun hr hc => absurd ⟨hr, hc⟩ hy) fun c z hne hz hr hc => ?_, nofun⟩
  have := hs.1 c z hz hr hc
  rw [hheld] at this
  exact absurd (Lock.held.inj this).symm hne

/-- An Idle context is refused, or handed a request, outside the critical region: the lock invariant is kept. -/
theorem State.LockOk.of_idle {s : State} {x y : Ctx} (hs : s.LockOk) (hx : s.ctxs[s.cur]? = some x)
    (hidle : x.status = .idle) (hy : ¬ y.Inside) : (s.putCtx y).LockOk :=
  hs.of_inside_iff hx (by simp [hidle]) rfl rfl (iff_of_false hy (not_inside_of_status (by simp [hidle])))

theorem not_inside_handed {x : Ctx} {i : Instr} (hq : isRequest i = true) : ¬ (x.handed i).Inside :=
  not_inside_of_upc (by rw [(handed_fields x i hq).2.1, firstUpc_critical])

/-- Every action keeps the lock invariant. -/
theorem State.LockOk.of_effect {s t : State} {x : Ctx} (hs : s.LockOk) (hx : s.ctxs[s.cur]? = some x)
    (hr : x.status = .running) (h : Effect x.computed s t) : t.LockOk := by
  obtain ⟨y, ht, ⟨hl, hi⟩ | ⟨hfree, hl, hy⟩ | ⟨hheld, hl, hy⟩⟩ := h.inside hx
  · exact hs.of_inside_iff hx (by simp [hr]) ht hl hi
  · exact hs.of_acquire hx hfree ht hl (hy.imp_left (· hr))
  · exact hs.of_release hx hheld ht hl hy

/-- Every step keeps the lock invariant (R181, R190, R242). -/
theorem State.LockOk.of_step {s t : State} (hs : s.LockOk) (h : step s = .next t) : t.LockOk :=
  step_keeps State.LockOk (fun _ _ _ hs => hs) (fun _ _ hs => hs) (fun _ _ hs => hs)
    (fun _ _ hx hi hs => hs.of_idle hx hi (not_inside_of_status nofun))
    (fun _ _ _ _ _ hx hi _ _ _ hs => hs.of_idle hx hi (not_inside_of_status nofun))
    (fun _ _ _ _ hx hi hq _ _ hs => hs.of_idle hx hi (not_inside_handed hq))
    (fun _ _ _ hx hr he hs => hs.of_effect hx hr he) s t hs h

/-! ### `lcd_state` inside the critical region (R31, R188, R189) -/

/-- What `lcd_state` is while a context inside the critical region is at the label `u` (R31). -/
def Upc.display (u : Upc) : LcdState := if u.negotiating then .fourBitModeNegotiating else .ready

theorem display_congr {u v : Upc} (h : u.negotiating = v.negotiating) : u.display = v.display := by
  rw [Upc.display, Upc.display, h]

/-- The end of a delay inside the critical region leaves `lcd_state` as the next label has it: the wait of the 0x2
nibble makes it Ready (R31, R187). -/
theorem DelayMove.display {x y : Ctx} {d : Nat} {f : State → State} (h : DelayMove x d y f) {s : State}
    (hc : y.upc.critical = true) (hs : s.lcdState = x.upc.display) : (f s).lcdState = y.upc.display := by
  have hsame {r : Rs × Byte × ByteLabel} (hb : x.sendingByte = some r) : x.upc.display = .ready := by
    rw [Upc.display, (sendingByte_critical hb).2.1]
    rfl
  cases h with
  | @wait k hu =>
    rw [hu] at hs
    cases k with
    | commit => rfl
    | _ => exact hs
  | byteHold hb hd hn =>
    rw [id, hs, hsame hb, Upc.display, ((sendingByte_critical hb).2.2 _).2]
    rfl
  | byteEnd hb =>
    have hafter := afterByte_critical (x := { x with delayFrom := none }) hb
    rw [State.shadowUpdate_lcdState, hs, hsame hb, Upc.display, hafter.2.1]
    rfl
  | blinkLow hu =>
    rw [Ctx.thenCompute_upc, blinkLoop] at hc
    split at hc <;> cases hc
  | press => cases hc
  | release => cases hc
  | settle => cases hc
  | blinkHigh => cases hc
  | power hu => rw [id, hs, hu]; rfl
  | nibbleHigh hu => rw [id, hs, hu]; rfl
  | nibbleLow hu => rw [id, hs, hu]; rfl

/-- An action leaves `lcd_state` as its context's next label has it, if that is inside the critical region. -/
theorem Effect.display {x : Ctx} {s t : State} (hx : s.ctxs[s.cur]? = some x)
    (hs : x.Inside → s.lcdState = x.upc.display) (h : Effect x.computed s t) :
    ∃ y, t.ctxs = s.ctxs.set s.cur y ∧ (y.Inside → t.lcdState = y.upc.display) := by
  have self := (set_cur_self hx).symm
  have ends {y : Ctx} {st : LcdState} (hy : y.status ≠ .running) : y.Inside → st = y.upc.display :=
    fun hi => absurd hi (not_inside_of_status hy)
  have outside {y : Ctx} {st : LcdState} (hy : y.upc.critical = false) : y.Inside → st = y.upc.display :=
    fun hi => absurd hi (not_inside_of_upc hy)
  cases h with
  | opened => exact ⟨_, rfl, ends nofun⟩
  | openRefused => exact ⟨_, rfl, ends nofun⟩
  | raised => exact ⟨_, rfl, ends nofun⟩
  | closed => exact ⟨_, rfl, ends nofun⟩
  | closeRefused => exact ⟨_, rfl, ends nofun⟩
  | notReady => exact ⟨_, rfl, ends nofun⟩
  | returned => exact ⟨_, rfl, ends nofun⟩
  | fselLoad => exact ⟨_, rfl, outside rfl⟩
  | fselStore => exact ⟨_, rfl, outside rfl⟩
  | strayStore => exact ⟨_, rfl, outside rfl⟩
  | released hm => exact ⟨_, rfl, outside hm.critical.2⟩
  | @direct _ u hm => exact ⟨x.computed.goto u, by simp, outside hm.critical.2⟩
  | strayLoad =>
    obtain ⟨ds, n, hd⟩ := takeDraw_frame s
    rw [hd]
    exact ⟨_, rfl, outside rfl⟩
  | sampled _ _ hm =>
    obtain ⟨ds, n, hd⟩ := takeDraw_frame s
    rw [hd]
    exact ⟨_, rfl, outside hm.critical.2⟩
  | pin hm =>
    refine ⟨_, rfl, fun hi => ?_⟩
    have hxi : x.Inside := ⟨hi.1, hm.critical.1.symm.trans hi.2⟩
    exact (hs hxi).trans (display_congr hm.critical.2).symm
  | delayStarts => exact ⟨_, rfl, fun hi => hs hi⟩
  | held => exact ⟨x, self, hs⟩
  | waits => exact ⟨x, self, hs⟩
  | @delayEnds d y f t0 hm =>
    refine ⟨y, by rw [hm.frame]; rfl, fun hi => ?_⟩
    have hxi : x.Inside := (inside_congr (x := x) hm.critical.2 hm.critical.1).1 hi
    exact hm.display hi.2 (hs hxi)
  | initAcquired => exact ⟨_, rfl, fun _ => rfl⟩
  | acquired hm _ hready =>
    refine ⟨_, rfl, fun _ => ?_⟩
    rw [Upc.display, hm.critical.2.2.1]
    exact hready

/-- `lcd_state` changes only with the lock: taken by LCDINIT, or held by it (R31). -/
theorem Effect.lcdState_of_lock {x : Ctx} {s t : State} (h : Effect x s t) :
    t.lcdState = s.lcdState ∨ s.lock = .free ∨ x.upc.critical = true := by
  cases h with
  | initAcquired _ hl => exact .inr (.inl hl)
  | delayEnds hm => exact (hm.lcdState _).imp (fun he => he) fun hu => .inr (by rw [hu]; rfl)
  | _ => exact .inl (by simp)

/-- An Idle context that stays outside leaves `lcd_state` as it must be. -/
theorem State.ReadyOk.of_idle {s : State} {x y : Ctx} (hs : s.ReadyOk) (hx : s.ctxs[s.cur]? = some x)
    (hy : ¬ y.Inside) : (s.putCtx y).ReadyOk :=
  forall_ctxs_of_set hx rfl (fun hr hc => absurd ⟨hr, hc⟩ hy) fun c z _ => hs c z

/-- Every action keeps `lcd_state` as it must be, if the lock is held as it must be. -/
theorem State.ReadyOk.of_effect {s t : State} {x : Ctx} (hs : s.ReadyOk) (hlock : s.LockOk)
    (hx : s.ctxs[s.cur]? = some x) (hr : x.status = .running) (h : Effect x.computed s t) : t.ReadyOk := by
  obtain ⟨y, ht, hy⟩ := h.display hx fun hi => hs _ x hx hi.1 hi.2
  refine forall_ctxs_of_set hx ht (fun hr hc => hy ⟨hr, hc⟩) fun c z hne hz hzr hzc => ?_
  have hheld : s.lock = .held c := hlock.1 c z hz hzr hzc
  rcases h.lcdState_of_lock with he | hfree | hxc
  · rw [he, hs c z hz hzr hzc]
  · simp [hheld] at hfree
  · have := hlock.1 _ x hx hr hxc
    rw [hheld] at this
    exact absurd (Lock.held.inj this) hne

/-- Every step keeps the lock and `lcd_state` inside it as they must be (R31, R181, R190). -/
theorem State.ReadyOk.of_step {s t : State} (hs : s.ReadyOk) (hlock : s.LockOk) (h : step s = .next t) :
    t.ReadyOk :=
  (step_keeps (fun s => s.LockOk ∧ s.ReadyOk) (fun _ _ _ hs => hs) (fun _ _ hs => hs) (fun _ _ hs => hs)
    (fun _ _ hx hi hs =>
      ⟨hs.1.of_idle hx hi (not_inside_of_status nofun), hs.2.of_idle hx (not_inside_of_status nofun)⟩)
    (fun _ _ _ _ _ hx hi _ _ _ hs =>
      ⟨hs.1.of_idle hx hi (not_inside_of_status nofun), hs.2.of_idle hx (not_inside_of_status nofun)⟩)
    (fun _ _ _ _ hx hi hq _ _ hs =>
      ⟨hs.1.of_idle hx hi (not_inside_handed hq), hs.2.of_idle hx (not_inside_handed hq)⟩)
    (fun _ _ _ hx hr he hs => ⟨hs.1.of_effect hx hr he, hs.2.of_effect hs.1 hx hr he⟩) s t ⟨hlock, hs⟩ h).2

end Sys2Proof.Machine

/-! SUPPORT. Delays: what each action does to them, and that every step keeps what is said of them (R270). -/

namespace Sys2Proof.Machine

theorem Ctx.DelayOk.computed {x : Ctx} (h : x.DelayOk) : x.computed.DelayOk := by
  intro t0 h0
  rw [delayLength_computed]
  exact h t0 h0

/-- A context that is not at a `Delay` has none in progress. -/
theorem Ctx.DelayOk.none_of_noDelay {x : Ctx} (h : x.DelayOk) (hn : x.delayLength = none) : x.delayFrom = none := by
  cases h0 : x.delayFrom with
  | none => rfl
  | some t0 =>
    obtain ⟨_, d, hd, _⟩ := h t0 h0
    rw [hn] at hd
    cases hd

/-- An Idle context has no delay in progress. -/
theorem Ctx.DelayOk.none_of_idle {x : Ctx} (h : x.DelayOk) (hi : x.status = .idle) : x.delayFrom = none := by
  cases h0 : x.delayFrom with
  | none => rfl
  | some t0 => simpa [hi] using (h t0 h0).1

theorem delayOk_of_none {x : Ctx} (h : x.delayFrom = none) : x.DelayOk := by
  intro t0 h0
  simp [h] at h0

theorem noDelay_of_initAcquire {x : Ctx} (h : x.upc = .lcdinit .i0) : x.delayLength = none := by
  simp [Ctx.delayLength, Ctx.sendingByte, h]

/-- An action leaves its context with a delay only where it starts one (R270). -/
theorem Effect.delayOk {x : Ctx} {s t : State} (hx : s.ctxs[s.cur]? = some x) (hr : x.status = .running)
    (hs : x.DelayOk) (h : Effect x.computed s t) : ∃ y, t.ctxs = s.ctxs.set s.cur y ∧ y.DelayOk := by
  have self := (set_cur_self hx).symm
  have stays {y : Ctx} (hn : x.computed.delayLength = none) (hy : y.delayFrom = x.delayFrom) : y.DelayOk :=
    delayOk_of_none (hy.trans (hs.computed.none_of_noDelay hn))
  cases h with
  | opened hu => exact ⟨_, rfl, stays (setsMap_label (setsMap_of_mapopen hu)).2 rfl⟩
  | openRefused hu => exact ⟨_, rfl, stays (setsMap_label (setsMap_of_mapopen hu)).2 rfl⟩
  | raised hu => exact ⟨_, rfl, stays (setsMap_label (setsMap_of_mapopen hu)).2 rfl⟩
  | closed hu => exact ⟨_, rfl, stays (setsMap_label (setsMap_of_closing hu)).2 rfl⟩
  | closeRefused hu => exact ⟨_, rfl, stays (setsMap_label (setsMap_of_closing hu)).2 rfl⟩
  | pin hm => exact ⟨_, rfl, stays hm.noDelay rfl⟩
  | @direct _ u hm => exact ⟨x.computed.goto u, by simp, stays hm.noDelay rfl⟩
  | fselLoad hu => exact ⟨_, rfl, stays (setmode_label hu).2.1 rfl⟩
  | fselStore hu => exact ⟨_, rfl, stays (setmode_label hu).2.1 rfl⟩
  | strayStore hu => exact ⟨_, rfl, stays (setmode_label hu).2.1 rfl⟩
  | strayLoad _ _ hu =>
    obtain ⟨ds, n, hd⟩ := takeDraw_frame s
    rw [hd]
    exact ⟨_, rfl, stays (setmode_label hu).2.1 rfl⟩
  | sampled _ _ hm =>
    obtain ⟨ds, n, hd⟩ := takeDraw_frame s
    rw [hd]
    exact ⟨_, rfl, stays hm.noDelay rfl⟩
  | @delayStarts d _ _ hm =>
    refine ⟨_, rfl, fun t0 h0 => ⟨hr, d, hm.length.1, ?_⟩⟩
    cases h0
    rfl
  | held => exact ⟨x, self, hs⟩
  | waits => exact ⟨x, self, hs⟩
  | delayEnds hm => exact ⟨_, by rw [hm.frame]; rfl, delayOk_of_none hm.length.2⟩
  | initAcquired hu => exact ⟨_, rfl, stays (noDelay_of_initAcquire hu) rfl⟩
  | acquired hm => exact ⟨_, rfl, stays hm.noDelay.1 hm.noDelay.2⟩
  | notReady hm => exact ⟨_, rfl, stays hm.noDelay.1 rfl⟩
  | released hm => exact ⟨_, rfl, stays hm.noDelay rfl⟩
  | returned hm => exact ⟨_, rfl, stays hm.noDelay rfl⟩

theorem longEnough_pinEvent (c t p : Nat) (l : Level) : (pinEvent c t p l).LongEnough := by
  cases l <;> trivial

/-- A delay is recorded only once it has lasted long enough (R270). -/
theorem Effect.longEnough {x : Ctx} {s t : State} (hs : x.DelayOk) (h : Effect x s t) :
    t.hist = s.hist ∨ ∃ e, t.hist = s.hist ++ [e] ∧ e.LongEnough := by
  cases h with
  | openRefused => exact .inl rfl
  | closeRefused => exact .inl rfl
  | delayStarts => exact .inl rfl
  | held => exact .inl rfl
  | waits => exact .inl rfl
  | pin => exact .inr ⟨_, rfl, longEnough_pinEvent _ _ _ _⟩
  | direct => exact .inr ⟨_, by simp; rfl, longEnough_pinEvent _ _ _ _⟩
  | delayEnds hm h0 hle =>
    refine .inr ⟨_, by rw [hm.frame]; rfl, ?_⟩
    obtain ⟨_, d, hd, hwake⟩ := hs _ h0
    rw [hm.length.1] at hd
    cases hd
    exact hwake.symm.trans_le hle
  | sampled => exact .inr ⟨_, by simp; rfl, by exact trivial⟩
  | strayLoad => exact .inr ⟨_, by simp; rfl, by exact trivial⟩
  | _ => exact .inr ⟨_, rfl, trivial⟩

/-- An Idle context that starts nothing leaves the delays as they must be. -/
theorem State.DelaysOk.of_idle {s : State} {x y : Ctx} (hs : s.DelaysOk) (hx : s.ctxs[s.cur]? = some x)
    (hy : y.delayFrom = none) : (s.putCtx y).DelaysOk :=
  ⟨forall_ctxs_of_set hx rfl (delayOk_of_none hy) fun c z _ => hs.1 c z, hs.2⟩

/-- Every action keeps the delays as they must be. -/
theorem State.DelaysOk.of_effect {s t : State} {x : Ctx} (hs : s.DelaysOk) (hx : s.ctxs[s.cur]? = some x)
    (hr : x.status = .running) (h : Effect x.computed s t) : t.DelaysOk := by
  have hxd : x.DelayOk := hs.1 _ x hx
  obtain ⟨y, ht, hy⟩ := h.delayOk hx hr hxd
  refine ⟨forall_ctxs_of_set hx ht hy fun c z _ => hs.1 c z, ?_⟩
  rcases h.longEnough hxd.computed with he | ⟨e, he, hlong⟩
  · rw [he]
    exact hs.2
  · rw [he]
    simpa [or_imp, forall_and] using ⟨hs.2, hlong⟩

/-- Every step keeps the delays as they must be (R270). -/
theorem State.DelaysOk.of_step {s t : State} (hs : s.DelaysOk) (h : step s = .next t) : t.DelaysOk :=
  step_keeps State.DelaysOk (fun _ _ _ hs => hs) (fun _ _ hs => hs) (fun _ _ hs => hs)
    (fun _ x hx hi hs => hs.of_idle hx ((hs.1 _ x hx).none_of_idle hi))
    (fun _ x _ _ _ hx hi _ _ _ hs => hs.of_idle hx ((hs.1 _ x hx).none_of_idle hi))
    (fun _ _ i _ hx _ hq _ _ hs => hs.of_idle hx (handed_fields _ i hq).2.2.1)
    (fun _ _ _ hx hr he hs => hs.of_effect hx hr he) s t hs h

end Sys2Proof.Machine

/-! SUPPORT. Placement: every move and every accepted request leaves a context at a label of its operation, with its
operands in their ranges (R24, R93, R228). -/

namespace Sys2Proof.Machine

/-! ### What moves do to placement (R24, R228) -/

/-- A byte transmission stays in its operation, at a label of it (R183). -/
theorem placed_atByte {x : Ctx} {cols : Nat} {r : Rs × Byte × ByteLabel} (h : x.sendingByte = some r)
    (hp : x.Placed cols) (y : ByteLabel) : (x.goto (x.upc.atByte y)).Placed cols := by
  unfold Ctx.sendingByte at h
  split at h
  case h_8 => cases h
  all_goals
    rename_i hu
    simp_all [Ctx.Placed, Upc.atByte]

/-- The loop test of a text leads to a character that there is, or to `Release` (R193, R194). -/
theorem placed_textLoop_str {x : Ctx} {k : Between} {cols : Nat} (ht : x.text.length ≤ 65535) :
    (x.thenCompute k (textLoop .lcdstr)).computed.Placed cols := by
  rw [Ctx.thenCompute_computed, textLoop]
  split
  · exact ⟨ht, nofun, fun _ _ => ‹_›⟩
  · exact ⟨ht, nofun, nofun⟩

theorem placed_textLoop_line {x : Ctx} {k : Between} {cols : Nat} (ha : x.a.toNat ≤ 1) (ht : x.text.length ≤ 65535) :
    (x.thenCompute k (textLoop .lcdline)).computed.Placed cols := by
  rw [Ctx.thenCompute_computed, textLoop]
  split
  · exact ⟨ha, ht, fun _ _ => ‹_›⟩
  · exact ⟨ha, ht, nofun⟩

/-- After its byte a context is at a label of its operation (R187, R191 to R195). -/
theorem placed_afterByte {x : Ctx} {cols : Nat} {r : Rs × Byte × ByteLabel} (h : x.sendingByte = some r)
    (hb : x.between = .nothing) (hp : x.Placed cols) : x.afterByte.computed.Placed cols := by
  have hgoto (u : Upc) : (x.goto u).computed = x.goto u := Ctx.computed_of_nothing hb
  unfold Ctx.sendingByte at h
  unfold Ctx.afterByte
  split at h
  case h_8 => cases h
  all_goals
    rename_i hu
    simp only [Ctx.Placed, hu] at hp
  case h_1 => rw [hgoto]; trivial
  case h_2 => rw [hgoto]; exact nofun
  case h_3 => rw [hgoto]; exact ⟨hp.1, hp.2.1, nofun⟩
  case h_4 => rw [hgoto]; exact nofun
  case h_5 => exact placed_textLoop_line hp.1 hp.2.1
  case h_6 => exact placed_textLoop_line hp.1 hp.2.1
  case h_7 => exact placed_textLoop_str hp.1

theorem PinMove.placed {x : Ctx} {p : Nat} {l : Level} {u : Upc} {cols : Nat} (h : PinMove x p l u)
    (hp : x.Placed cols) : (x.goto u).Placed cols := by
  cases h with
  | byte hs _ _ => exact placed_atByte hs hp _
  | _ => trivial

theorem DirectMove.placed {x : Ctx} {l : Level} {u : Upc} {cols : Nat} (h : DirectMove x l u)
    (hp : x.Placed cols) : (x.goto u).Placed cols := by
  cases h with
  | _ hu =>
    simp only [Ctx.Placed, hu] at hp
    exact hp

theorem SampleMove.placed {x : Ctx} {r : BitVec 1} {u : Upc} {cols : Nat} (h : SampleMove x r u)
    (hp : x.Placed cols) : (x.goto u).Placed cols := by
  cases h with
  | read hu =>
    simp only [Ctx.Placed, hu] at hp
    exact hp
  | _ hu =>
    have hpin : x.pin ≤ 31 := by simpa only [Ctx.Placed, hu] using hp
    split <;> exact hpin

theorem ReleaseMove.placed {x : Ctx} {u : Upc} {cols : Nat} (h : ReleaseMove x u)
    (hp : x.Placed cols) : (x.goto u).Placed cols := by
  cases h with
  | init hu => trivial
  | _ hu => simp_all [Ctx.Placed]

theorem AcquireMove.placed {x y : Ctx} {cols : Nat} (h : AcquireMove x y) (hb : x.between = .nothing)
    (hp : x.Placed cols) : y.computed.Placed cols := by
  have hgoto (u : Upc) : (x.goto u).computed = x.goto u := Ctx.computed_of_nothing hb
  cases h with
  | str hu =>
    simp only [Ctx.Placed, hu] at hp
    exact placed_textLoop_str hp.1
  | _ hu =>
    rw [hgoto]
    simp_all [Ctx.Placed]

theorem placed_setmode {x : Ctx} {l l' : SetmodeLabel} {p q : Prop} {cols : Nat}
    (h : x.upc = .setmode l ∧ p ∨ x.upc = .setmode l' ∧ q) (hp : x.Placed cols) (m : SetmodeLabel) :
    (x.goto (.setmode m)).Placed cols := by
  rcases h with ⟨h, _⟩ | ⟨h, _⟩ <;> simp only [Ctx.Placed, h] at hp <;> exact hp

theorem DelayMove.placed {x y : Ctx} {d : Nat} {f : State → State} {cols : Nat} (h : DelayMove x d y f)
    (hb : x.between = .nothing) (hp : x.Placed cols) : y.computed.Placed cols := by
  have hsame {u : Upc} :
      ({ x with delayFrom := none, upc := u } : Ctx).computed = { x with delayFrom := none, upc := u } :=
    Ctx.computed_of_nothing hb
  cases h with
  | byteHold hs _ _ => rw [hsame]; exact placed_atByte hs hp _
  | byteEnd hs => exact placed_afterByte (x := { x with delayFrom := none }) hs hb hp
  | blinkLow hu =>
    have hpin : x.pin ≤ 31 := by simpa only [Ctx.Placed, hu] using hp
    rw [Ctx.thenCompute_computed, blinkLoop]
    split <;> exact hpin
  | power => trivial
  | wait => trivial
  | nibbleHigh => trivial
  | nibbleLow => trivial
  | _ hu =>
    simp only [Ctx.Placed, hu] at hp
    exact hp

/-- An action leaves its context placed, if it leaves it Running (R24). -/
theorem Effect.placed {x : Ctx} {s t : State} {cols : Nat} (hx : s.ctxs[s.cur]? = some x)
    (hp : x.computed.Placed cols) (h : Effect x.computed s t) :
    ∃ y, t.ctxs = s.ctxs.set s.cur y ∧ (y.status = .running → y.computed.Placed cols) := by
  have self := (set_cur_self hx).symm
  cases h with
  | opened => exact ⟨_, rfl, nofun⟩
  | openRefused => exact ⟨_, rfl, nofun⟩
  | raised => exact ⟨_, rfl, nofun⟩
  | closed => exact ⟨_, rfl, nofun⟩
  | closeRefused => exact ⟨_, rfl, nofun⟩
  | notReady => exact ⟨_, rfl, nofun⟩
  | returned => exact ⟨_, rfl, nofun⟩
  | @fselLoad l hu => exact ⟨_, rfl, fun _ => placed_setmode hu hp l⟩
  | @fselStore _ l hu => exact ⟨_, rfl, fun _ => placed_setmode hu hp l⟩
  | @strayStore _ _ l hu => exact ⟨_, rfl, fun _ => placed_setmode hu hp l⟩
  | @strayLoad l _ _ hu =>
    obtain ⟨ds, n, hd⟩ := takeDraw_frame s
    rw [hd]
    exact ⟨_, rfl, fun _ => placed_setmode hu hp l⟩
  | sampled _ _ hm =>
    obtain ⟨ds, n, hd⟩ := takeDraw_frame s
    rw [hd]
    exact ⟨_, rfl, fun _ => hm.placed hp⟩
  | pin hm => exact ⟨_, rfl, fun _ => hm.placed hp⟩
  | @direct _ u hm => exact ⟨x.computed.goto u, by simp, fun _ => hm.placed hp⟩
  | delayStarts => exact ⟨_, rfl, fun _ => hp⟩
  | held => exact ⟨x, self, fun _ => hp⟩
  | waits => exact ⟨x, self, fun _ => hp⟩
  | delayEnds hm => exact ⟨_, by rw [hm.frame]; rfl, fun _ => hm.placed rfl hp⟩
  | initAcquired => exact ⟨_, rfl, fun _ => trivial⟩
  | acquired hm => exact ⟨_, rfl, fun _ => hm.placed rfl hp⟩
  | released hm => exact ⟨_, rfl, fun _ => hm.placed hp⟩

/-! ### What an accepted request is (R93, R227, R228) -/

/-- The tests that an accepted request has passed (R227 to R229). -/
theorem refusalOf_none {s : State} {i : Instr} (h : s.refusalOf i = none) :
    (i = .mapopen ∧ s.mapState = .unmapped) ∨
      (i ≠ .mapopen ∧ s.mapState = .mapped ∧ (∀ p m, pinRange i = some (p, m) → p.toNat ≤ m) ∧
        (∀ r, rowOperand i = some r → r.toNat ≤ 1) ∧ ∀ c, colOperand i = some c → c.toNat < s.lcdCols) := by
  unfold State.refusalOf at h
  by_cases hi : i = .mapopen
  · rw [if_pos hi] at h
    split at h
    · exact .inl ⟨hi, ‹_›⟩
    · cases h
  · rw [if_neg hi] at h
    repeat' split at h
    case isFalse.isFalse.isFalse.isFalse hm hp hr hc =>
      refine .inr ⟨hi, by simpa using hm, fun p m e => ?_, fun r e => ?_, fun c e => ?_⟩
      · simpa [e] using hp
      · simpa [e] using hr
      · simpa [e] using hc
    all_goals cases h

/-- A text that was handed over is no longer than LEN can say (R22, R92). -/
theorem decodeRequest_textLength {ws rest : List Word} {i : Instr} (h : decodeRequest ws = .ok (i, rest))
    {t : List Byte} (ht : textOperand i = some t) : t.length ≤ 65535 := by
  have hlen {n : BitVec 16} {mk : List Byte → Instr} (hw : withText n.toNat mk ws.tail = .ok (i, rest))
      (hmk : ∀ t', textOperand (mk t') = some t') : t.length ≤ 65535 := by
    unfold withText at hw
    split at hw
    · cases hw
    · rename_i t' rest' htake
      cases hw
      obtain rfl : t' = t := Option.some.inj ((hmk t').symm.trans ht)
      have := (takeText_ok htake).1
      omega
  cases ws with
  | nil => cases h
  | cons r ws =>
    simp only [decodeRequest] at h
    split at h
    case h_12 =>
      split at h
      · exact hlen h fun _ => rfl
      · cases h
    case h_13 => exact hlen h fun _ => rfl
    case h_15 => cases h
    all_goals
      obtain ⟨_, hi, _⟩ := whenReservedZero_ok h
      simp only [Option.some.injEq, Option.map_eq_some_iff] at hi
      first
        | (subst hi; cases ht)
        | (obtain ⟨_, _, rfl⟩ := hi; cases ht)

/-- BLINK starts at a label of its own (R170). -/
theorem firstUpc_blink (p : Byte) (n : BitVec 16) : ∃ l, firstUpc (.blink p n) = .blink l := by
  change ∃ l, (if n = 0#16 then Upc.blink .b4 else .blink .b0) = .blink l
  split
  · exact ⟨.b4, rfl⟩
  · exact ⟨.b0, rfl⟩

/-- A context that was handed a request is at the first label of its operation, its operands in their ranges (R93,
R228). -/
theorem placed_handed {s : State} {i : Instr} (x : Ctx) (hq : isRequest i = true) (hok : s.refusalOf i = none)
    (htext : ∀ t, textOperand i = some t → t.length ≤ 65535) : (x.handed i).computed.Placed s.lcdCols := by
  rcases refusalOf_none hok with ⟨rfl, _⟩ | ⟨_, _, hpin, hrow, hcol⟩
  · trivial
  · cases i with
    | setmode p m => rw [Ctx.handed_pack x rfl]; exact hpin p 53 rfl
    | setpinmode p m => rw [Ctx.handed_pack x rfl]; exact hpin p 53 rfl
    | write p l => rw [Ctx.handed_pack x rfl]; exact hpin p 31 rfl
    | writepin p l => rw [Ctx.handed_pack x rfl]; exact hpin p 31 rfl
    | read p => rw [Ctx.handed_pack x rfl]; exact hpin p 31 rfl
    | readpin p => rw [Ctx.handed_pack x rfl]; exact hpin p 31 rfl
    | waitbtn p => rw [Ctx.handed_pack x rfl]; exact hpin p 31 rfl
    | blink p n =>
      obtain ⟨l, hl⟩ := firstUpc_blink p n
      have hp : (x.handed (.blink p n)).pin ≤ 31 := by
        rw [Ctx.handed_pack x rfl]
        exact hpin p 31 rfl
      simp only [Ctx.Placed, Ctx.computed_upc, (handed_fields x _ hq).2.1, hl]
      exact hp
    | lcdcursor r c => rw [Ctx.handed_pack x rfl]; exact ⟨hrow r rfl, hcol c rfl, nofun⟩
    | lcdstr t => rw [Ctx.handed_pack x rfl]; exact ⟨htext t rfl, nofun, nofun⟩
    | lcdline l t => rw [Ctx.handed_pack x rfl]; exact ⟨hrow l rfl, htext t rfl, nofun⟩
    | lcdclear => rw [Ctx.handed_pack x rfl]; exact (nofun : ∀ y, LcdLabel.acquire ≠ .text y)
    | lcdbyte rs b => rw [Ctx.handed_pack x rfl]; exact (nofun : ∀ y, LcdLabel.acquire ≠ .text y)
    | mapopen => trivial
    | mapclose => trivial
    | shutdown => trivial
    | lcdinit => trivial
    | _ => simp [isRequest, encode] at hq

end Sys2Proof.Machine

/-! PROOFS. The placement of Running contexts is kept. -/

namespace Sys2Proof.Machine

/-- A context that is written, placed if it runs, keeps the placement invariant. -/
theorem State.PlacedOk.of_set {s t : State} {x y : Ctx} (hs : s.PlacedOk) (hx : s.ctxs[s.cur]? = some x)
    (ht : t.ctxs = s.ctxs.set s.cur y) (hcols : t.lcdCols = s.lcdCols)
    (hy : y.status = .running → y.computed.Placed s.lcdCols) : t.PlacedOk := by
  obtain ⟨hplaced, hpos, hrange⟩ := hs
  rw [State.PlacedOk, hcols]
  exact ⟨forall_ctxs_of_set hx ht hy fun c z _ => hplaced c z, by simpa [ht] using hpos, hrange⟩

/-- Every action keeps the placement invariant. -/
theorem State.PlacedOk.of_effect {s t : State} {x : Ctx} (hs : s.PlacedOk) (hx : s.ctxs[s.cur]? = some x)
    (hr : x.status = .running) (h : Effect x.computed s t) : t.PlacedOk := by
  obtain ⟨y, ht, hy⟩ := h.placed hx (hs.1 _ x hx hr)
  obtain ⟨_, _, _, _, _, _, _, hcols, _⟩ := effect_frame hx h
  exact hs.of_set hx ht hcols hy

/-- Settles O52: the placement invariant, by what each kind of turn writes. -/
theorem placementIsKept : Obligations.PlacementIsKept :=
  step_keeps State.PlacedOk (fun _ _ _ hs => hs) (fun _ _ hs => hs) (fun _ _ hs => hs)
    (fun _ _ hx _ hs => hs.of_set hx rfl rfl nofun)
    (fun _ _ _ _ _ hx _ _ _ _ hs => hs.of_set hx rfl rfl nofun)
    (fun _ _ _ _ hx _ hq hok hd hs =>
      hs.of_set hx rfl rfl fun _ => placed_handed _ hq hok fun _ => decodeRequest_textLength hd)
    (fun _ _ _ hx hr he hs => hs.of_effect hx hr he)

end Sys2Proof.Machine

/-! PROOFS. The statements about `map_state` and the recorded errors (R30, R224, R225, R227). -/

namespace Sys2Proof.Machine

/-- The errors recorded so far (R224). -/
def State.errors (s : State) : List Event := s.hist.filter Event.isErr

/-- How an action may change `map_state` and the recorded errors: neither changes, or MAPOPEN opens the block or fails
to with one error, or the closing action releases it (R30, R120, R121, R224). -/
inductive MapChange (s t : State) : Prop where
  | same : t.mapState = s.mapState → t.errors = s.errors → MapChange s t
  | opened : s.mapState = .unmapped → s.openOutcome = .ok → t.mapState = .mapped → t.errors = s.errors → MapChange s t
  | failed (e : InitError) : s.mapState = .unmapped → s.openOutcome = .fails e → t.mapState = .failed e →
      t.errors = s.errors ++ [.err s.cur s.now e] → MapChange s t
  | released : s.mapState = .mapped → s.OthersIdle → t.mapState = .released → t.errors = s.errors → MapChange s t

theorem errors_append {s t : State} {e : Event} (h : t.hist = s.hist ++ [e]) (he : e.isErr = false) :
    t.errors = s.errors := by
  simp [State.errors, h, he]

theorem isErr_pinEvent (c t p : Nat) (l : Level) : (pinEvent c t p l).isErr = false := by
  cases l <;> rfl

theorem closing_ne_mapopen {x : Ctx} (h : x.upc = .mapclose ∨ x.upc = .shutdown .a2) : x.upc ≠ .mapopen := by
  rcases h with h | h <;> rw [h] <;> nofun

/-- What runs and is no MAPOPEN runs in a Mapped block (R30, R227). -/
theorem State.MappingOk.mapped {s : State} (hs : s.MappingOk) {c : Nat} {x : Ctx} (hx : s.ctxs[c]? = some x)
    (hr : x.status = .running) (hne : x.upc ≠ .mapopen) : s.mapState = .mapped :=
  (hs.1 c x hx hr).resolve_right fun h => hne h.1

/-- What an action does to `map_state` and to the recorded errors; only a Mapped block is closed (R30). -/
theorem State.MappingOk.mapChange {s t : State} {x : Ctx} (hs : s.MappingOk) (hx : s.ctxs[s.cur]? = some x)
    (hr : x.status = .running) (h : Effect x.computed s t) : MapChange s t := by
  cases h with
  | opened _ hum ho => exact .opened hum ho rfl (errors_append rfl rfl)
  | raised _ hum ho => exact .failed _ hum ho rfl (by simp [State.errors, Event.isErr])
  | closed hu hothers => exact .released (hs.mapped hx hr (closing_ne_mapopen hu)) hothers rfl (errors_append rfl rfl)
  | openRefused => exact .same rfl rfl
  | closeRefused => exact .same rfl rfl
  | delayStarts => exact .same rfl rfl
  | held => exact .same rfl rfl
  | waits => exact .same rfl rfl
  | pin => exact .same rfl (errors_append rfl (isErr_pinEvent _ _ _ _))
  | @direct l _ =>
    exact .same (by simp) (errors_append (e := pinEvent s.cur s.now x.pin l) (by simp) (isErr_pinEvent _ _ _ _))
  | delayEnds hd => exact .same (by rw [hd.frame]; rfl) (by rw [hd.frame]; exact errors_append rfl rfl)
  | sampled v _ _ =>
    exact .same (by simp) (errors_append (e := .ld s.cur s.now Config.levelWord v) (by simp) rfl)
  | strayLoad v _ _ _ =>
    exact .same (by simp) (errors_append (e := .ld s.cur s.now (fselWordOf x.pin) v) (by simp) rfl)
  | _ => exact .same rfl (errors_append rfl rfl)

theorem setsMap_of_critical {x : Ctx} (h : x.upc.critical = true) : x.upc.setsMap = false := by
  by_contra hc
  simp [(setsMap_label (by simpa using hc)).1] at h

theorem setsMap_of_delay {x : Ctx} {d : Nat} (h : x.delayLength = some d) : x.upc.setsMap = false := by
  by_contra hc
  simp [(setsMap_label (by simpa using hc)).2] at h

theorem PinMove.setsMap {x : Ctx} {p : Nat} {l : Level} {u : Upc} (h : PinMove x p l u) : x.upc.setsMap = false := by
  cases h with
  | byte hs _ _ => exact setsMap_of_critical (sendingByte_critical hs).1
  | _ hu => rw [hu]; rfl

theorem AcquireMove.setsMap {x y : Ctx} (h : AcquireMove x y) : x.upc.setsMap = false := by
  cases h with
  | _ hu => rw [hu]; rfl

theorem DirectMove.setsMap {x : Ctx} {l : Level} {u : Upc} (h : DirectMove x l u) : x.upc.setsMap = false := by
  cases h with
  | _ hu => rw [hu]; rfl

theorem SampleMove.setsMap {x : Ctx} {r : BitVec 1} {u : Upc} (h : SampleMove x r u) : x.upc.setsMap = false := by
  cases h with
  | _ hu => rw [hu]; rfl

/-- An action that opens or closes the block ends its operation: a context that runs on was at another one (R120 to
R122). -/
theorem Effect.setsMap {x : Ctx} {s t : State} (hx : s.ctxs[s.cur]? = some x) (h : Effect x.computed s t) :
    ∃ y, t.ctxs = s.ctxs.set s.cur y ∧ (y.status = .running → x.upc.setsMap = false) := by
  have other (hu : x.computed.upc.setsMap = false) :
      ∃ y, t.ctxs = s.ctxs.set s.cur y ∧ (y.status = .running → x.upc.setsMap = false) := by
    obtain ⟨y, ht, _⟩ := effect_frame hx h
    exact ⟨y, ht, fun _ => hu⟩
  cases h with
  | opened => exact ⟨_, rfl, nofun⟩
  | openRefused => exact ⟨_, rfl, nofun⟩
  | raised => exact ⟨_, rfl, nofun⟩
  | closed => exact ⟨_, rfl, nofun⟩
  | closeRefused => exact ⟨_, rfl, nofun⟩
  | notReady => exact ⟨_, rfl, nofun⟩
  | returned => exact ⟨_, rfl, nofun⟩
  | pin hm => exact other hm.setsMap
  | direct hm => exact other hm.setsMap
  | fselLoad hu => exact other (setmode_label hu).2.2
  | fselStore hu => exact other (setmode_label hu).2.2
  | strayLoad _ _ hu => exact other (setmode_label hu).2.2
  | strayStore hu => exact other (setmode_label hu).2.2
  | sampled _ _ hm => exact other hm.setsMap
  | delayStarts hm => exact other (setsMap_of_delay hm.length.1)
  | held hm => exact other (setsMap_of_delay hm.length.1)
  | delayEnds hm => exact other (setsMap_of_delay hm.length.1)
  | waits hu =>
    rcases hu with hu | ⟨y, hm⟩
    · exact other (by rw [hu]; rfl)
    · exact other hm.setsMap
  | initAcquired hu => exact other (by rw [hu]; rfl)
  | acquired hm => exact other hm.setsMap
  | released hm => exact other (setsMap_of_critical hm.critical.1)

/-- A change of `map_state` keeps what is said of it, if the context that made it runs on only in a Mapped block (R30,
R225). -/
theorem State.MappingOk.of_change {s t : State} {x y : Ctx} (hs : s.MappingOk) (hx : s.ctxs[s.cur]? = some x)
    (ht : t.ctxs = s.ctxs.set s.cur y) (ho : t.openOutcome = s.openOutcome)
    (hy : y.status = .running → t.mapState = .mapped) (h : MapChange s t) : t.MappingOk := by
  obtain ⟨hrun, hfailed, hok⟩ := hs
  have hall (hothers : ∀ c z, c ≠ s.cur → s.ctxs[c]? = some z → z.status = .running →
      t.mapState = .mapped ∨ (z.upc = .mapopen ∧ t.mapState ≠ .released)) :=
    forall_ctxs_of_set hx ht (fun h => .inl (hy h)) hothers
  rw [State.MappingOk, ho]
  cases h with
  | same hm _ =>
    rw [hm] at hall ⊢
    exact ⟨hall fun c z _ => hrun c z, hfailed, hok⟩
  | opened _ hopen hm =>
    rw [hm] at hall ⊢
    exact ⟨hall fun _ _ _ _ _ => .inl rfl, nofun, fun _ => hopen⟩
  | failed e hum hopen hm =>
    rw [hm] at hall ⊢
    refine ⟨hall fun c z _ hz hzr => .inr ⟨?_, nofun⟩, fun e' he => ?_, nofun⟩
    · have := hrun c z hz hzr
      simp_all
    · cases he
      exact hopen
  | released hmapped hidle hm =>
    rw [hm] at hall ⊢
    refine ⟨hall fun c z hne hz hzr => ?_, nofun, fun _ => hok (.inl hmapped)⟩
    simp [hidle c z hne hz] at hzr

/-- Every action keeps what is said of `map_state`. -/
theorem State.MappingOk.of_effect {s t : State} {x : Ctx} (hs : s.MappingOk) (hx : s.ctxs[s.cur]? = some x)
    (hr : x.status = .running) (h : Effect x.computed s t) : t.MappingOk := by
  obtain ⟨y, ht, hy⟩ := h.setsMap hx
  obtain ⟨_, _, _, _, _, _, _, _, hopen, _⟩ := effect_frame hx h
  refine hs.of_change hx ht hopen (fun hyr => ?_) (hs.mapChange hx hr h)
  have hnot : ¬(x.upc = .mapopen ∨ x.upc = .mapclose ∨ x.upc = .shutdown .a2) := by
    rw [← setsMap_iff, hy hyr]
    nofun
  rw [h.mapState.resolve_right hnot]
  exact hs.mapped hx hr fun hu => hnot (.inl hu)

/-- An Idle context that is refused leaves what is said of `map_state` as it is. -/
theorem State.MappingOk.of_refused {s : State} {x y : Ctx} (hs : s.MappingOk) (hx : s.ctxs[s.cur]? = some x)
    (hy : y.status ≠ .running) : (s.putCtx y).MappingOk :=
  ⟨forall_ctxs_of_set hx rfl (fun hr => absurd hr hy) fun c z _ => hs.1 c z, hs.2⟩

/-- A request is accepted in a Mapped block, MAPOPEN in an Unmapped one (R227, R229). -/
theorem State.MappingOk.of_handed {s : State} {x y : Ctx} {i : Instr} (hs : s.MappingOk)
    (hx : s.ctxs[s.cur]? = some x) (hq : isRequest i = true) (hok : s.refusalOf i = none) :
    (s.putCtx (y.handed i)).MappingOk := by
  refine ⟨forall_ctxs_of_set hx rfl (fun _ => ?_) fun c z _ => hs.1 c z, hs.2⟩
  rcases refusalOf_none hok with ⟨rfl, hm⟩ | ⟨_, hm, _⟩
  · exact .inr ⟨(handed_fields y _ hq).2.1, by simp [hm]⟩
  · exact .inl hm

/-- Settles O49: what is said of `map_state`, by what each kind of turn writes. -/
theorem mappingIsKept : Obligations.MappingIsKept :=
  step_keeps State.MappingOk (fun _ _ _ hs => hs) (fun _ _ hs => hs) (fun _ _ hs => hs)
    (fun _ _ hx _ hs => hs.of_refused hx nofun)
    (fun _ _ _ _ _ hx _ _ _ _ hs => hs.of_refused hx nofun)
    (fun _ _ _ _ hx _ hq hok _ hs => hs.of_handed hx hq hok)
    (fun _ _ _ hx hr he hs => hs.of_effect hx hr he)

/-- A change of `map_state` is one of R30. -/
theorem MapChange.moves {s t : State} (h : MapChange s t) (hne : t.mapState ≠ s.mapState) :
    (s.mapState = .unmapped ∧ (t.mapState = .mapped ∨ ∃ e, t.mapState = .failed e)) ∨
      (s.mapState = .mapped ∧ t.mapState = .released) := by
  cases h with
  | same hm _ => exact absurd hm hne
  | opened hu _ hm _ => exact .inl ⟨hu, .inl hm⟩
  | failed e hu _ hm _ => exact .inl ⟨hu, .inr ⟨e, hm⟩⟩
  | released hmapped _ hm _ => exact .inr ⟨hmapped, hm⟩

/-- Every action keeps what is said of the recorded errors: only the failure of MAPOPEN records one, and no error was
recorded while the block was Unmapped (R224, R225). -/
theorem State.ErrorsOk.of_effect {s t : State} {x : Ctx} (hs : s.ErrorsOk) (hx : s.ctxs[s.cur]? = some x)
    (hr : x.status = .running) (h : Effect x.computed s t) : t.ErrorsOk := by
  obtain ⟨hmap, hfailed, hnone⟩ := hs
  refine ⟨hmap.of_effect hx hr h, ?_⟩
  change (∀ e, t.mapState = .failed e → ∃ c n, t.errors = [.err c n e]) ∧
    ((∀ e, t.mapState ≠ .failed e) → t.errors = [])
  have hnone' (hne : ∀ e, s.mapState ≠ .failed e) : s.errors = [] := hnone hne
  cases hmap.mapChange hx hr h with
  | same hm herr =>
    rw [hm, herr]
    exact ⟨hfailed, hnone⟩
  | opened hu _ hm herr =>
    rw [hm, herr]
    exact ⟨nofun, fun _ => hnone' (by simp [hu])⟩
  | failed e hu _ hm herr =>
    rw [hm, herr, hnone' (by simp [hu])]
    refine ⟨fun e' he => ?_, fun hne => absurd rfl (hne e)⟩
    cases he
    exact ⟨_, _, rfl⟩
  | released hmapped _ hm herr =>
    rw [hm, herr]
    exact ⟨nofun, fun _ => hnone' (by simp [hmapped])⟩

/-- Settles O57: `map_state` and the errors change only by the action of a Running context. -/
theorem releasedAndFailedAreFinal : Obligations.ReleasedAndFailedAreFinal := by
  constructor
  case left =>
    intro s t hs h hne
    obtain ⟨tn, s1, htt, hcase⟩ := step_cases h
    obtain ⟨ag, n, rfl⟩ := takesTurn_frame htt
    rcases hcase with ⟨e, rfl, rfl⟩ |
      ⟨c, rfl, rfl | rfl | ⟨x, hx, ⟨_, _, rfl⟩ | ⟨_, i, rest, _, _, rfl⟩ | ⟨hr, he⟩⟩⟩
    case inr.inr.inr.inr.inr =>
      have hchange : MapChange { s with agenda := ag, turns := n, cur := c } t :=
        State.MappingOk.mapChange (s := { s with agenda := ag, turns := n, cur := c }) hs hx hr he
      exact hchange.moves hne
    all_goals exact absurd rfl hne
  case right =>
    exact step_keeps State.ErrorsOk (fun _ _ _ hs => hs) (fun _ _ hs => hs) (fun _ _ hs => hs)
      (fun _ _ hx _ hs => ⟨hs.1.of_refused hx nofun, hs.2⟩)
      (fun _ _ _ _ _ hx _ _ _ _ hs => ⟨hs.1.of_refused hx nofun, hs.2⟩)
      (fun _ _ _ _ hx _ hq hok _ hs => ⟨hs.1.of_handed hx hq hok, hs.2⟩)
      (fun _ _ _ hx hr he hs => hs.of_effect hx hr he)

end Sys2Proof.Machine

/-! SUPPORT. Progress: the action of a placed context that holds the lock where it must has a next state, and the
instruction that a context fetches is that action (entry 20). -/

namespace Sys2Proof.Machine

/-! ### Progress: from the invariant every action has a next state (entry 20) -/

/-- The result is a next state, neither a fault nor a refusal. -/
def Answers (r : Result) : Prop := ∃ t, r = .next t

theorem answers_next (t : State) : Answers (.next t) := ⟨t, rfl⟩

theorem answers_delayAct {d : Nat} {x : Ctx} {s : State} {k : Ctx → State → Result} (hk : ∀ y r, Answers (k y r)) :
    Answers (delayAct d x s k) := by
  unfold delayAct
  split
  · exact answers_next _
  · split
    · exact hk _ _
    · exact answers_next _

theorem answers_acquireAct {s : State} {k : State → Result} (hk : ∀ r, Answers (k r)) : Answers (acquireAct s k) := by
  unfold acquireAct
  split
  · exact hk _
  · exact answers_next _

/-- `Release` by the holder of the lock (R181). -/
theorem answers_releaseAct {s : State} {k : State → Result} (hl : s.lock = .held s.cur) (hk : ∀ r, Answers (k r)) :
    Answers (releaseAct s k) := by
  rw [releaseAct, if_pos hl]
  exact hk _

theorem answers_closeAct (x : Ctx) (s : State) : Answers (closeAct x s) := by
  unfold closeAct
  split <;> exact answers_next _

theorem answers_mapopenAct (x : Ctx) (s : State) : Answers (mapopenAct x s) := by
  unfold mapopenAct
  split
  · split <;> exact answers_next _
  · exact answers_next _

theorem answers_nibbleAct (n : Nibble) (l : NibbleLabel) (here : NibbleLabel → Upc) (after : Upc) (x : Ctx)
    (s : State) : Answers (nibbleAct n l here after x s) := by
  cases l <;> simp only [nibbleAct, pinWrite_stored]
  case n5 => exact answers_delayAct fun _ _ => answers_next _
  case n7 => exact answers_delayAct fun _ _ => answers_next _
  all_goals exact answers_next _

theorem answers_byteAct (rs : Rs) (b : Byte) (y : ByteLabel) (x : Ctx) (s : State) :
    Answers (byteAct rs b y x s) := by
  cases y <;> simp only [byteAct, pinWrite_stored]
  case y0 => exact answers_next _
  case high l => exact answers_nibbleAct ..
  case low l => exact answers_nibbleAct ..
  case y1 => exact answers_delayAct fun _ _ => answers_next _

/-- SETMODE of a pin that a hand-over accepts accesses only function-select words (R58, R228). -/
theorem answers_setmodeAct {l : SetmodeLabel} {x : Ctx} {s : State} (hw : fselWordOf x.pin < 6) :
    Answers (setmodeAct l x s) := by
  cases l <;> simp only [setmodeAct, loadAct_fsel hw, storeAct_fsel hw]
  case a1 => split <;> exact answers_next _
  all_goals exact answers_next _

theorem answers_sampleAct {x : Ctx} {s : State} {k : Ctx → State → Result} (hk : ∀ y r, Answers (k y r)) :
    Answers (sampleAct x s k) := by
  rw [sampleAct, loadAct_level]
  exact hk _ _

theorem answers_waitbtnAct (l : WaitLabel) (x : Ctx) (s : State) : Answers (waitbtnAct l x s) := by
  cases l <;> simp only [waitbtnAct]
  case p0 => exact answers_sampleAct fun _ _ => answers_next _
  case r0 => exact answers_sampleAct fun _ _ => answers_next _
  case s1 => exact answers_next _
  all_goals exact answers_delayAct fun _ _ => answers_next _

theorem answers_blinkAct (l : BlinkLabel) (x : Ctx) (s : State) : Answers (blinkAct l x s) := by
  cases l <;> simp only [blinkAct, directPinWrite_stored]
  case b1 => exact answers_delayAct fun _ _ => answers_next _
  case b3 => exact answers_delayAct fun _ _ => answers_next _
  all_goals exact answers_next _

/-- LCDINIT, by a context that holds the lock where it gives it back (R181, R187). -/
theorem answers_lcdinitAct {l : InitLabel} {x : Ctx} {s : State} (hl : l.critical = true → s.lock = .held s.cur) :
    Answers (lcdinitAct l x s) := by
  cases l <;> simp only [lcdinitAct, pinWrite_stored]
  case i0 => exact answers_acquireAct fun _ => answers_next _
  case i3 => exact answers_delayAct fun _ _ => answers_next _
  case nibble k n => exact answers_nibbleAct ..
  case wait k => exact answers_delayAct fun _ _ => answers_next _
  case byte k y => exact answers_byteAct ..
  case i8 => exact answers_releaseAct (hl rfl) fun _ => answers_next _
  all_goals exact answers_next _

/-- The other LCD operations, by a context that is sending a byte where its label says so and holds the lock where it
gives it back (R181, R189). -/
theorem answers_lcdAct {mk : LcdLabel → Upc} {begin : Ctx → Ctx} {l : LcdLabel} {x : Ctx} {s : State}
    (hsend : (∃ y, l = .single y ∨ l = .text y) → x.sendingByte ≠ none)
    (hl : l.critical = true → s.lock = .held s.cur) : Answers (lcdAct mk begin l x s) := by
  cases l with
  | acquire =>
    refine answers_acquireAct (k := fun r => if r.lcdState = .ready then _ else _) fun r => ?_
    split <;> exact answers_next _
  | single y =>
    obtain ⟨⟨rs, b, y'⟩, hs⟩ := Option.ne_none_iff_exists'.1 (hsend ⟨y, .inl rfl⟩)
    simp only [lcdAct, hs]
    exact answers_byteAct ..
  | text y =>
    obtain ⟨⟨rs, b, y'⟩, hs⟩ := Option.ne_none_iff_exists'.1 (hsend ⟨y, .inr rfl⟩)
    simp only [lcdAct, hs]
    exact answers_byteAct ..
  | release => exact answers_releaseAct (hl rfl) fun _ => answers_next _
  | ret => exact answers_next _

/-- A placed context that is at a byte of its operation is sending it: placement excludes the labels of bytes that its
operation does not send. -/
theorem sendingByte_ne_none {x : Ctx} {cols : Nat} {l : LcdLabel} (hp : x.Placed cols)
    (hu : x.upc = .lcdclear l ∨ x.upc = .lcdcursor l ∨ x.upc = .lcdstr l ∨ x.upc = .lcdline l ∨ x.upc = .lcdbyte l)
    (hl : ∃ y, l = .single y ∨ l = .text y) : x.sendingByte ≠ none := by
  obtain ⟨y, rfl | rfl⟩ := hl <;> rcases hu with hu | hu | hu | hu | hu <;>
    simp [Ctx.Placed, Ctx.sendingByte, hu] at hp ⊢

/-- A placed context that holds the lock inside the critical region has a next state at every label (entry 20). -/
theorem answers_runningAct {x : Ctx} {s : State} {cols : Nat} (hp : x.Placed cols)
    (hl : x.upc.critical = true → s.lock = .held s.cur) : Answers (runningAct x s) := by
  have hsend {l : LcdLabel} := sendingByte_ne_none (l := l) hp
  cases hu : x.upc <;> simp only [runningAct, hu]
  case none => simp only [Ctx.Placed, hu] at hp
  case mapopen => exact answers_mapopenAct x s
  case mapclose => exact answers_closeAct x s
  case shutdown l =>
    cases l <;> simp only [shutdownAct, pinWrite_stored]
    case a2 => exact answers_closeAct x s
    all_goals exact answers_next _
  case setmode l => exact answers_setmodeAct (fselWordOf_lt_of_placed hu hp)
  case write l => cases l <;> simp only [writeAct, directPinWrite_stored] <;> exact answers_next _
  case read l =>
    cases l <;> simp only [readAct]
    case a0 => exact answers_sampleAct fun _ _ => answers_next _
    case a1 => exact answers_next _
  case waitbtn l => exact answers_waitbtnAct l x s
  case blink l => exact answers_blinkAct l x s
  case lcdinit l => exact answers_lcdinitAct fun h => hl (by rw [hu]; exact h)
  case lcdclear l => exact answers_lcdAct (hsend (.inl hu)) fun h => hl (by rw [hu]; exact h)
  case lcdcursor l => exact answers_lcdAct (hsend (.inr (.inl hu))) fun h => hl (by rw [hu]; exact h)
  case lcdstr l => exact answers_lcdAct (hsend (.inr (.inr (.inl hu)))) fun h => hl (by rw [hu]; exact h)
  case lcdline l => exact answers_lcdAct (hsend (.inr (.inr (.inr (.inl hu))))) fun h => hl (by rw [hu]; exact h)
  case lcdbyte l => exact answers_lcdAct (hsend (.inr (.inr (.inr (.inr hu))))) fun h => hl (by rw [hu]; exact h)

/-! ### The instruction of a Running context is the action it is at (R24, R86) -/

/-- A command byte of at least 0x80 is the cursor command of its low seven bits (R87). -/
theorem addressByte_extract {b : Byte} (h : b.extractLsb' 7 1 = 1#1) : addressByte (b.extractLsb' 0 7) = b := by
  apply BitVec.eq_of_getLsbD_eq
  intro i hi
  by_cases h7 : i = 7
  · subst h7
    have := congrArg (BitVec.getLsbD · 0) h
    simpa [addressByte] using this.symm
  · have hlt : i < 7 := by omega
    have h0 : (0x80#8).getLsbD i = false := by interval_cases i <;> rfl
    simp only [addressByte, BitVec.getLsbD_or, h0, Bool.false_or, BitVec.getLsbD_setWidth, BitVec.getLsbD_extractLsb',
      hi, hlt, decide_true, Bool.true_and, Nat.zero_add]

/-- A byte that is a row of the LCD bus is the byte of that row (R86, R87). -/
theorem encode_of_decodeByte {rs : Rs} {b : Byte} {i : Instr} (h : decodeByte rs b = .ok i) :
    encode i = .byte rs b := by
  unfold decodeByte at h
  split at h
  · cases h
    rfl
  · repeat' split at h
    case isFalse.isFalse.isFalse.isFalse.isTrue haddr =>
      cases h
      rw [encode, addressByte_extract haddr]
    case isFalse.isFalse.isFalse.isFalse.isFalse => cases h
    all_goals
      subst b
      cases h
      rfl

/-- The nibbles of the initialization are rows of the LCD bus (R86, R187). -/
theorem exec_of_decodeNibble {k : InitNibble} {l : NibbleLabel} {i : Instr} {s : State} {x : Ctx} (hx : s.Runs x)
    (hs : x.sendingNibble = some (k, l)) (hi : decodeNibble .command (initNibbleValue k) = .ok i) :
    exec i s = initNibbleAct k l x s := by
  have hsend : sendNibble (initNibbleValue k) s = initNibbleAct k l x s := by
    simp [sendNibble, insideOperation, onContext_runs hx, hs]
  rw [← hsend]
  cases k <;> cases hi <;> rfl

theorem ok_of_toOption {i : Instr} {r : Except DecodeError Instr} (h : r.toOption = some i) : r = .ok i := by
  cases r <;> cases h
  rfl

/-- What a Running context fetches runs the action it is at: as the row of the LCD bus that it is sending, or as its
operation (R24, R86). -/
theorem exec_of_instr {s : State} {x : Ctx} {i : Instr} (hx : s.Runs x) (hi : x.instr = some i) :
    exec i s = runningAct x s := by
  cases hb : x.busWord with
  | none =>
    rw [Ctx.instr, hb] at hi
    exact exec_of_operation hx hi
  | some j =>
    obtain rfl : j = i := by simpa [Ctx.instr, hb] using hi
    unfold Ctx.busWord at hb
    split at hb
    · rename_i k l hs
      rw [runningAct_sendingNibble hs]
      exact exec_of_decodeNibble hx hs (ok_of_toOption hb)
    · rename_i rs b y _ hs
      rw [runningAct_sendingByte hs]
      exact exec_of_sendsBy hx hs (.inr (encode_of_decodeByte (ok_of_toOption hb)))
    · cases hb

/-- A placed context has an instruction to run (R24). -/
theorem instr_of_placed {x : Ctx} {cols : Nat} (hp : x.Placed cols) : ∃ i, x.instr = some i := by
  unfold Ctx.instr
  split
  · exact ⟨_, rfl⟩
  · unfold Ctx.operation
    split
    case h_1 hu => simp only [Ctx.Placed, hu] at hp
    all_goals exact ⟨_, rfl⟩

end Sys2Proof.Machine

/-! PROOFS. From the invariant every step has a next state, which meets it (entry 20). -/

namespace Sys2Proof.Machine

/-- From the invariant the turn of every context has a next state (entry 20). -/
theorem answers_contextTurn {s : State} (hplaced : s.PlacedOk) (hlock : s.LockOk) : Answers (contextTurn s) := by
  cases hx : s.ctxs[s.cur]? with
  | none => exact ⟨s, by simp only [contextTurn, fetch, hx]⟩
  | some x =>
    cases hst : x.status with
    | refused r => exact ⟨s, by simp only [contextTurn, fetch, hx, hst]⟩
    | running =>
      have hp : x.computed.Placed s.lcdCols := hplaced.1 _ x hx hst
      obtain ⟨i, hi⟩ := instr_of_placed hp
      rw [contextTurn_running hx hst hi, exec_of_instr ⟨x, hx, hst, rfl⟩ hi]
      exact answers_runningAct hp fun hc => hlock.1 _ x hx hst hc
    | idle =>
      cases hd : decodeRequest x.todo with
      | ok p =>
        obtain ⟨i, rest⟩ := p
        have hput : (s.putCtx { x with todo := rest }).ctxs[s.cur]? = some { x with todo := rest } := by
          rw [State.putCtx_ctxs, getElem?_set_cur hx, if_pos rfl]
        rw [contextTurn_request hx hst hd, exec_idle hput hst (decodeRequest_isRequest hd)]
        exact answers_next _
      | error e =>
        cases e <;> simp only [contextTurn, fetch, hx, hst, hd] <;> exact answers_next _

/-- From the invariant every step has a next state (entry 20). -/
theorem answers_step {s : State} (hplaced : s.PlacedOk) (hlock : s.LockOk) : Answers (step s) := by
  have hturn : s.TakesTurn s.takeTurn.1 s.takeTurn.2 := takesTurn_iff.2 rfl
  obtain ⟨ag, n, hframe⟩ := takesTurn_frame hturn
  rw [step, hframe]
  cases s.takeTurn.1 with
  | clock e => exact answers_next _
  | context c =>
    rw [runTurn]
    split
    · exact answers_contextTurn (s := { s with agenda := ag, turns := n, cur := c }) hplaced hlock
    · exact answers_next _

/-- Settles O56: the invariant gives a next state, and each of its parts is kept. -/
theorem invariantStepsOn : Obligations.InvariantStepsOn := by
  rintro s ⟨hmap, hlock, hready, hdelays, hplaced⟩
  obtain ⟨t, ht⟩ := answers_step hplaced hlock
  exact ⟨t, ht, mappingIsKept s t hmap ht, hlock.of_step ht, hready.of_step hlock ht, hdelays.of_step ht,
    placementIsKept s t hplaced ht⟩

end Sys2Proof.Machine

/-! PROOFS. The turns that find nothing to run (R23, R93, R226). -/

namespace Sys2Proof.Machine

/-! ### A Refused context (R23, R226) -/

/-- A step touches the contexts and the history only in the turn of a context that is not Refused. -/
theorem step_turn {s t : State} (h : step s = .next t) :
    (t.ctxs = s.ctxs ∧ t.hist = s.hist) ∨
      ∃ x, s.ctxs[t.cur]? = some x ∧ ∀ r, x.status ≠ .refused r := by
  obtain ⟨tn, s1, htt, hcase⟩ := step_cases h
  obtain ⟨ag, n, rfl⟩ := takesTurn_frame htt
  rcases hcase with ⟨e, rfl, rfl⟩ |
    ⟨c, rfl, rfl | rfl | ⟨x, hx, ⟨hi, _, rfl⟩ | ⟨hi, i, rest, _, _, rfl⟩ | ⟨hr, he⟩⟩⟩
  · exact .inl ⟨rfl, rfl⟩
  · exact .inl ⟨rfl, rfl⟩
  · exact .inl ⟨rfl, rfl⟩
  · exact .inr ⟨x, hx, by simp [hi]⟩
  · exact .inr ⟨x, hx, by simp [hi]⟩
  · obtain ⟨_, _, _, hcur, _⟩ := effect_frame (s := { s with agenda := ag, turns := n, cur := c }) hx he
    exact .inr ⟨x, hcur ▸ hx, by simp [hr]⟩

/-- Settles O58: the turn that changes anything is another context's. -/
theorem refusedForGood : Obligations.RefusedForGood := by
  intro s t c x r h hx hr
  rcases step_turn h with ⟨hctxs, hhist⟩ | ⟨y, hy, hyr⟩
  · refine ⟨hctxs ▸ hx, fun es hes => ?_⟩
    obtain rfl : es = [] := by simpa [hhist] using hes
    nofun
  · have hne : c ≠ t.cur := by
      rintro rfl
      rw [hx] at hy
      cases hy
      exact hyr r hr
    obtain ⟨_, ⟨es', hes', _, hmine⟩, _, _, _, _, hothers, _⟩ := stepFrame s t h
    refine ⟨(hothers c hne).trans hx, fun es hes e he => ?_⟩
    obtain rfl : es' = es := List.append_cancel_left (hes'.symm.trans hes)
    exact fun hec => hne (hec.symm.trans (hmine e he).1)

/-! ### A turn for which nothing is enabled (R23, R93) -/

/-- Settles O8: the three turns that find nothing to run. -/
theorem stepWaitsWhereNothingIsEnabled : Obligations.StepWaitsWhereNothingIsEnabled := by
  intro s s1 c ht
  refine ⟨fun hc => ?absent, fun x r hx hr => ?refused, fun x hx hi hd => ?incomplete⟩
  case absent =>
    have hc1 : ¬ c < s1.ctxs.length := by rw [takesTurn_ctxs ht]; omega
    simp only [step, takesTurn_iff.1 ht, runTurn, hc1, if_false]
  case refused =>
    obtain ⟨hstep, hx1⟩ := step_of_contextTurn ht hx
    simp only [hstep, contextTurn, fetch, hx1, hr]
  case incomplete =>
    obtain ⟨hstep, hx1⟩ := step_of_contextTurn ht hx
    simp only [hstep, contextTurn, fetch, hx1, hi, hd]

end Sys2Proof.Machine

/-! PROOFS. The launch state (R40). -/

namespace Sys2Proof.Machine

/-- Every context at launch is the launch context. -/
theorem reset_ctxs {c : Nat} {x : Ctx} (h : State.reset.ctxs[c]? = some x) : x = Ctx.launch :=
  List.eq_of_mem_replicate (List.mem_of_getElem? h)

theorem not_running_reset {c : Nat} {x : Ctx} (h : State.reset.ctxs[c]? = some x) : x.status ≠ .running := by
  rw [reset_ctxs h]
  nofun

theorem length_reset_ctxs : 0 < State.reset.ctxs.length := by
  simp [State.reset]

/-- Settles O10: the launch values, field by field. -/
theorem resetIsLaunch : Obligations.ResetIsLaunch := by
  refine ⟨length_reset_ctxs, fun x hx => ?_, rfl, rfl, rfl, rfl, rfl, rfl, rfl, fun w hw => ?_, rfl⟩
  · rw [List.eq_of_mem_replicate hx]
    exact ⟨rfl, rfl, rfl⟩
  · interval_cases w <;> rfl

theorem mappingOk_reset : State.reset.MappingOk :=
  ⟨fun _ _ hx hr => absurd hr (not_running_reset hx), nofun, nofun⟩

theorem lockOk_reset : State.reset.LockOk :=
  ⟨fun _ _ hx hr _ => absurd hr (not_running_reset hx), nofun⟩

theorem delaysOk_reset : State.reset.DelaysOk :=
  ⟨fun _ _ hx => delayOk_of_none (by rw [reset_ctxs hx]; rfl), nofun⟩

theorem placedOk_reset : State.reset.PlacedOk :=
  ⟨fun _ _ hx hr => absurd hr (not_running_reset hx), length_reset_ctxs, Nat.le_add_left 1 _, Config.launchCols.isLt⟩

theorem inv_reset : State.reset.Inv :=
  ⟨mappingOk_reset, lockOk_reset, fun _ _ hx hr _ => absurd hr (not_running_reset hx), delaysOk_reset, placedOk_reset⟩

theorem debounceOk_reset : State.reset.DebounceOk :=
  ⟨placedOk_reset, delaysOk_reset, fun _ _ hx => ⟨fun _ => rfl, fun hr => absurd hr (not_running_reset hx)⟩⟩

theorem responsesOk_reset : State.reset.ResponsesOk := by
  intro c x w hx hw
  rw [reset_ctxs hx] at hw
  cases hw

/-- Settles O11: no context runs and nothing is recorded, so every invariant holds. -/
theorem resetMeetsTheInvariants : Obligations.ResetMeetsTheInvariants :=
  ⟨inv_reset, debounceOk_reset, ⟨placedOk_reset, nofun⟩, responsesOk_reset, ⟨mappingOk_reset, nofun, fun _ => rfl⟩⟩

end Sys2Proof.Machine

/-! PROOFS. The register block: the function-select words, SET and CLR, LEVEL, and the accesses that have no meaning
(R52 to R57, R61). -/

namespace Sys2Proof.Machine

/-! ### The function-select words (R52) -/

/-- A pin of the word that was stored has the stored word's field as its function (R36, R52). -/
theorem Fsel.func_set (f : Fsel) {p : Nat} (hp : fselWordOf p < 6) (v : Word) :
    (f.set (fselWordOf p) v).func p = v.extractLsb' (fieldOffset p) 3 := by
  rw [Fsel.func, Fsel.get_set f _ _ v hp hp, if_pos rfl]

/-- Settles O12: a load and a store of a function-select word, by the rules of the two accesses. -/
theorem fselWordsAreStorage : Obligations.FselWordsAreStorage := by
  intro w s hw
  refine ⟨memRead_fsel hw s, fun v => ⟨_, memWrite_fsel hw v s, rfl, ?loads, fun w' hw' hne => ?others, ?functions⟩⟩
  case loads => rw [memRead_fsel hw, Fsel.get_set _ _ _ _ hw hw, if_pos rfl]
  case others => rw [Fsel.get_set _ _ _ _ hw hw', if_neg hne]
  case functions =>
    rintro p rfl
    rw [Nat.mul_comm]
    exact s.fsel.func_set hw v

/-! ### SET and CLR (R53, R54) -/

/-- A store to SET drives the bits that are one in the stored word (R53). -/
theorem memWrite_set (v : Word) (s : State) :
    memWrite (4 * Config.setWord) v s = some (s.driveOut (s.out ||| v)) := by
  simp [memWrite, regStore, Config.setWord]

/-- A store to CLR clears the bits that are one in the stored word (R54). -/
theorem memWrite_clr (v : Word) (s : State) :
    memWrite (4 * Config.clrWord) v s = some (s.driveOut (s.out &&& ~~~v)) := by
  simp [memWrite, regStore, Config.setWord, Config.clrWord]

/-- The display latches nothing while OUT stands (R186). -/
theorem latchEvents_self (f : Fsel) (out : Word) : latchEvents f out out = [] := by
  simp [latchEvents]

/-- Driving the latch to the word it holds changes nothing (R53, R54). -/
theorem State.driveOut_self (s : State) : s.driveOut s.out = s := by
  simp [State.driveOut, latchEvents_self]

/-- Settles O13: the two stores drive the latch, bit by bit. -/
theorem setAndClrStoreBits : Obligations.SetAndClrStoreBits := by
  intro v s
  refine ⟨⟨_, memWrite_set v s, rfl, fun i hi => ?setBits, ?setZero⟩,
    ⟨_, memWrite_clr v s, rfl, fun i hi => ?clrBits, ?clrZero⟩⟩
  case setBits =>
    rw [State.driveOut_out, BitVec.getLsbD_or]
    cases v.getLsbD i <;> simp
  case clrBits =>
    rw [State.driveOut_out, BitVec.getLsbD_and, BitVec.getLsbD_not, decide_eq_true hi]
    cases v.getLsbD i <;> simp
  case setZero =>
    rintro rfl
    rw [BitVec.or_zero, State.driveOut_self]
  case clrZero =>
    rintro rfl
    rw [BitVec.not_zero, BitVec.and_allOnes, State.driveOut_self]

/-! ### LEVEL (R56) -/

/-- A draw is what `takeDraw` takes: from the list, or a free value (R56). -/
theorem takeDraw_of_draws {s s1 : State} {d : Word} (h : s.Draws d s1) : s.takeDraw = (d, s1) := by
  rcases h with ⟨ds, hds, rfl⟩ | ⟨hds, rfl, rfl⟩ <;> simp only [State.takeDraw, hds]

/-- Settles O14: a load of LEVEL is the level word of the draw it takes, which is read bit by bit. -/
theorem levelShowsLatchOrDraw : Obligations.LevelShowsLatchOrDraw := by
  intro s s1 d hd
  refine ⟨levelWord s.fsel s.out d, ?_, getLsbD_levelWord s.fsel s.out d⟩
  have hload := memRead_level s
  rwa [takeDraw_of_draws hd] at hload

/-! ### The accesses that have no meaning (R57, R61) -/

/-- A load of a word that cannot be loaded has no meaning (R57). -/
theorem regLoad_eq_none {w : Nat} (h : ¬(w < 6 ∨ w = 13)) (s : State) : regLoad w s = none := by
  obtain ⟨hfsel, hlevel⟩ := not_or.1 h
  simp only [regLoad, Config.levelWord, hfsel, hlevel, if_false]

/-- A store to a word that cannot be stored to has no meaning (R57). -/
theorem regStore_eq_none {w : Nat} (h : ¬(w < 6 ∨ w = 7 ∨ w = 10)) (v : Word) (s : State) :
    regStore w v s = none := by
  obtain ⟨hfsel, hports⟩ := not_or.1 h
  obtain ⟨hset, hclr⟩ := not_or.1 hports
  simp only [regStore, Config.setWord, Config.clrWord, hfsel, hset, hclr, if_false]

/-- An aligned offset that is the offset of no word in `P` is that of a word outside `P` (R61). -/
theorem not_word_of_aligned {P : Nat → Prop} {a : Nat} (h : ¬∃ w, a = 4 * w ∧ P w) (ha : a % 4 = 0) : ¬P (a / 4) :=
  fun hp => h ⟨a / 4, by omega, hp⟩

/-- Only word `w` stands at the offset `4 * w` (R61). -/
theorem not_offset_of_not_word {P : Nat → Prop} {w : Nat} (h : ¬P w) : ¬∃ w', 4 * w = 4 * w' ∧ P w' := by
  rintro ⟨w', hw', hp⟩
  obtain rfl : w = w' := by omega
  exact h hp

theorem memRead_eq_none {a : Nat} (h : ¬∃ w, a = 4 * w ∧ (w < 6 ∨ w = 13)) (s : State) : memRead a s = none := by
  rw [memRead]
  split
  · exact regLoad_eq_none (not_word_of_aligned h ‹_›) s
  · rfl

theorem memWrite_eq_none {a : Nat} (h : ¬∃ w, a = 4 * w ∧ (w < 6 ∨ w = 7 ∨ w = 10)) (v : Word) (s : State) :
    memWrite a v s = none := by
  rw [memWrite]
  split
  · exact regStore_eq_none (not_word_of_aligned h ‹_›) v s
  · rfl

/-- Settles O15: the words that cannot be accessed and the misaligned offsets, raw and as actions. -/
theorem otherAccessesHaveNoMeaning : Obligations.OtherAccessesHaveNoMeaning := by
  refine ⟨fun a s h => memRead_eq_none h s, fun a v s h => memWrite_eq_none h v s, fun w s k h => ?load,
    fun w v s k h => ?store⟩
  case load => rw [loadAct, memRead_eq_none (not_offset_of_not_word h)]
  case store => rw [storeAct, memWrite_eq_none (not_offset_of_not_word h)]

end Sys2Proof.Machine

/-! PROOFS. What the accesses of two contexts do to each other (R63, R68): WRITEs commute, SETMODEs lose an update, LCD
operations exclude each other. -/

namespace Sys2Proof.Machine

/-! ### WRITE and WRITE (R63 a) -/

/-- The latch word after a pin store, bit by bit (R53, R54). -/
theorem getLsbD_outAfter (out : Word) (p : Nat) (l : Level) {i : Nat} (hi : i < 32) :
    (outAfter out p l).getLsbD i = if i = p then l.toBool else out.getLsbD i := by
  have heq : outAfter out p l = pinned out p l := by cases l <;> rfl
  rw [heq, getLsbD_pinned _ _ _ _ hi]

/-- Stores for different pins may be exchanged: each changes its own bit only (R63). -/
theorem outAfter_comm (out : Word) {p q : Nat} (h : p ≠ q) (l m : Level) :
    outAfter (outAfter out p l) q m = outAfter (outAfter out q m) p l := by
  apply BitVec.eq_of_getLsbD_eq
  intro i hi
  simp only [getLsbD_outAfter _ _ _ hi]
  by_cases hp : i = p
  · have hq : i ≠ q := fun hq => h (hp.symm.trans hq)
    simp only [if_neg hq, if_pos hp]
  · simp only [if_neg hp]

theorem level_of_toByte {x : Ctx} {l : Level} (h : x.b = l.toByte) : x.level = l := by
  rw [Ctx.level, h]
  cases l <;> rfl

/-- The state after the store of a WRITE by the executing context `x` (R131). -/
def State.wrote (s : State) (x : Ctx) (l : Level) : State :=
  ((s.storedPin x.pin l).shadowLost x.pin).putCtx (x.computed.goto (.write .a1))

@[simp] theorem State.wrote_ctxs (s : State) (x : Ctx) (l : Level) :
    (s.wrote x l).ctxs = s.ctxs.set s.cur (x.computed.goto (.write .a1)) := by simp [State.wrote]
@[simp] theorem State.wrote_out (s : State) (x : Ctx) (l : Level) :
    (s.wrote x l).out = outAfter s.out x.pin l := by simp [State.wrote]
@[simp] theorem State.wrote_fsel (s : State) (x : Ctx) (l : Level) : (s.wrote x l).fsel = s.fsel := by
  simp [State.wrote]

/-- The store of a WRITE (R131). -/
theorem exec_write_wrote {s : State} {x : Ctx} {l : Level} (hx : s.ctxs[s.cur]? = some x)
    (hr : x.status = .running) (hu : x.upc = .write .a0) (hl : x.b = l.toByte) :
    exec (.write x.a l) s = .next (s.wrote x l) := by
  have hlevel : x.computed.level = l := level_of_toByte hl
  have hop : x.computed.operation = some (.write x.a l) := by
    simp only [Ctx.operation, Ctx.computed_upc, hu, hlevel, Ctx.computed_a]
  have hupc : x.computed.upc = .write .a0 := hu
  rw [exec_of_operation ⟨x, hx, hr, rfl⟩ hop, runningAct, hupc]
  simp only [writeAct, directPinWrite_stored, hlevel]
  rfl

/-- Settles O46: in either order each store changes its own bit and its own context. -/
theorem writesToDifferentPinsCommute : Obligations.WritesToDifferentPinsCommute := by
  intro s c1 c2 x1 x2 l1 l2 hc hx1 hx2 hr1 hr2 hu1 hu2 hb1 hb2 _ _ hpins
  have hfirst : exec (.write x1.a l1) { s with cur := c1 } = .next (State.wrote { s with cur := c1 } x1 l1) :=
    exec_write_wrote hx1 hr1 hu1 hb1
  have hsecond : exec (.write x2.a l2) { s with cur := c2 } = .next (State.wrote { s with cur := c2 } x2 l2) :=
    exec_write_wrote hx2 hr2 hu2 hb2
  refine ⟨_, _, _, _, hfirst, exec_write_wrote ?there2 hr2 hu2 hb2, hsecond, exec_write_wrote ?there1 hr1 hu1 hb1,
    ?out, ?ctxs, ?fsel, fun k hk => ?bits⟩
  case there2 => simpa [hc] using hx2
  case there1 => simpa [hc.symm] using hx1
  case out => simpa using outAfter_comm s.out hpins l1 l2
  case ctxs => simpa using List.set_comm _ _ hc
  case fsel => simp
  case bits =>
    have hout := outAfter_comm s.out hpins l1 l2
    simp only [State.wrote_out, hout, getLsbD_outAfter _ _ _ hk]

/-! ### SETMODE and SETMODE (R63 d, conflict C1) -/

/-- A Running context at a label of SETMODE takes SETMODE's action there. -/
theorem exec_setmode_running {p : Byte} {m : Mode} {s : State} {x : Ctx} {l : SetmodeLabel} (hx : s.Runs x)
    (hu : x.upc = .setmode l) : exec (.setmode p m) s = setmodeAct l x s := by
  simp only [exec, execSetmode, setmodeOn, onContext_runs hx, hu]

/-- The state after the Output store of a SETMODE by the executing context `x` (R130). -/
def State.storedOutput (s : State) (x : Ctx) : State :=
  ({ s with fsel := s.fsel.set (fselWordOf x.pin) (x.tmp ||| outputPattern x.pin) }.record
    (.st s.cur s.now (fselWordOf x.pin) (x.tmp ||| outputPattern x.pin))).putCtx (x.computed.goto (.setmode .a4))

/-- The Output store of a SETMODE, from the word it loaded before (R130). -/
theorem exec_setmode_storedOutput {s : State} {x : Ctx} {p : Byte} {m : Mode} (hx : s.ctxs[s.cur]? = some x)
    (hr : x.status = .running) (hu : x.upc = .setmode .a3) (hp : x.pin ≤ 53) :
    exec (.setmode p m) s = .next (s.storedOutput x) := by
  have hw : fselWordOf x.computed.pin < 6 := fselWordOf_lt (p := x.pin) (by omega)
  rw [exec_setmode_running ⟨x, hx, hr, rfl⟩ hu, setmodeAct, storeAct_fsel hw]
  rfl

/-- The Output pattern sets the low bit of its pin's field (R82, R130). -/
theorem extractLsb'_or_outputPattern (v : Word) (p : Nat) :
    (v ||| outputPattern p).extractLsb' (fieldOffset p) 3 = v.extractLsb' (fieldOffset p) 3 ||| 0b001#3 := by
  apply BitVec.eq_of_getLsbD_eq
  intro i hi
  have hbit : (outputPattern p).getLsbD (fieldOffset p + i) = decide (fieldOffset p + i = fieldOffset p) :=
    getLsbD_bitOf (fieldOffset p) _ (by unfold fieldOffset; omega)
  have hlow : (0b001#3).getLsbD i = decide (i = 0) := by interval_cases i <;> rfl
  simp only [BitVec.getLsbD_extractLsb', BitVec.getLsbD_or, hbit, hlow, hi, Nat.add_eq_left, decide_true, Bool.true_and]

/-- The Output pattern leaves the fields of the word's other pins alone (R82, R130). -/
theorem extractLsb'_or_outputPattern_other (v : Word) {p q : Nat} (h : p % 10 ≠ q % 10) :
    (v ||| outputPattern p).extractLsb' (fieldOffset q) 3 = v.extractLsb' (fieldOffset q) 3 := by
  apply BitVec.eq_of_getLsbD_eq
  intro i hi
  have hbit : (outputPattern p).getLsbD (fieldOffset q + i) = decide (fieldOffset q + i = fieldOffset p) :=
    getLsbD_bitOf (fieldOffset p) _ (by unfold fieldOffset; omega)
  have hne : fieldOffset q + i ≠ fieldOffset p := by unfold fieldOffset; omega
  simp [BitVec.getLsbD_extractLsb', hbit, hne]

/-- The functions of the word's pins after an Output store are the fields of the stored word (R36, R130). -/
theorem func_storedOutput (s : State) {x : Ctx} {q : Nat} (hp : x.pin ≤ 53) (hq : q / 10 = x.pin / 10) :
    (s.storedOutput x).fsel.func q = (x.tmp ||| outputPattern x.pin).extractLsb' (fieldOffset q) 3 := by
  have hword : fselWordOf x.pin = fselWordOf q := hq.symm
  have hw : fselWordOf q < 6 := hword ▸ fselWordOf_lt (by omega)
  change (s.fsel.set (fselWordOf x.pin) (x.tmp ||| outputPattern x.pin)).func q = _
  rw [hword, Fsel.func_set _ hw]

/-- Settles O47: the second store writes back the field that the first one changed, as it was loaded. -/
theorem setmodesOfOneWordLoseAnUpdate : Obligations.SetmodesOfOneWordLoseAnUpdate := by
  intro s c1 c2 x1 x2 hc hx1 hx2 hr1 hr2 hu1 hu2 hp1 hp2 hpins hword hload1 hload2
  have hfields : x2.pin % 10 ≠ x1.pin % 10 := by omega
  refine ⟨_, _, exec_setmode_storedOutput hx1 hr1 hu1 hp1, exec_setmode_storedOutput ?there2 hr2 hu2 hp2,
    ?set1, ?lost1, ?set2⟩
  case there2 => exact (List.getElem?_set_ne hc).trans hx2
  case set1 => rw [func_storedOutput _ hp1 rfl, extractLsb'_or_outputPattern, hload1]; rfl
  case lost1 => rw [func_storedOutput _ hp2 hword, extractLsb'_or_outputPattern_other _ hfields, hload2, ← hword]; rfl
  case set2 => rw [func_storedOutput _ hp2 rfl, extractLsb'_or_outputPattern, hload2]; rfl

/-! ### LCD operations (R68, R190) -/

/-- Two contexts inside the critical region are one: both hold the lock (R190). -/
theorem State.LockOk.eq_of_inside {s : State} (hs : s.LockOk) {c d : Nat} {x y : Ctx} (hx : s.ctxs[c]? = some x)
    (hy : s.ctxs[d]? = some y) (hxi : x.Inside) (hyi : y.Inside) : c = d := by
  have hc : s.lock = .held c := hs.1 c x hx hxi.1 hxi.2
  have hd : s.lock = .held d := hs.1 d y hy hyi.1 hyi.2
  exact Lock.held.inj (hc.symm.trans hd)

/-- A step leaves every context alone but the one whose turn it is (R10). -/
theorem step_others {s t : State} (h : step s = .next t) {c : Nat} (hc : c ≠ t.cur) : t.ctxs[c]? = s.ctxs[c]? := by
  obtain ⟨_, _, _, _, _, _, hothers, _⟩ := stepFrame s t h
  exact hothers c hc

/-- Settles O48: the lock invariant holds before and after, and a step moves one context only. -/
theorem lcdOperationsExcludeEachOther : Obligations.LcdOperationsExcludeEachOther := by
  intro s t hs h
  have ht : t.LockOk := hs.of_step h
  refine ⟨fun c1 c2 x1 x2 hx1 hx2 hr1 hr2 hi1 hi2 => ?after, fun c1 c2 x1 x2 hx1 hx2 hr1 hr2 hi1 hi2 => ?across,
    fun c x hx hr hi hne => ?stays⟩
  case after => exact ht.eq_of_inside hx1 hx2 ⟨hr1, hi1⟩ ⟨hr2, hi2⟩
  case across =>
    by_cases h1 : c1 = t.cur
    · by_cases h2 : c2 = t.cur
      · rw [h1, h2]
      · exact hs.eq_of_inside hx1 ((step_others h h2).symm.trans hx2) ⟨hr1, hi1⟩ ⟨hr2, hi2⟩
    · exact ht.eq_of_inside ((step_others h h1).trans hx1) hx2 ⟨hr1, hi1⟩ ⟨hr2, hi2⟩
  case stays =>
    have hx' : t.ctxs[c]? = some x := (step_others h (Ne.symm hne)).trans hx
    exact ⟨ht.1 c x hx' hr hi, hx'⟩

end Sys2Proof.Machine

/-! PROOFS. The accesses recorded are those of R58: the pins that are stored to are inside SET and CLR, the words that are
loaded and stored are those the block has. -/

namespace Sys2Proof.Machine

/-- Every pin that an operation drives has a bit in SET and CLR (R58, R83, R228). -/
theorem le_of_mem_drives {x : Ctx} {cols p : Nat} (hx : x.Placed cols) (hp : p ∈ x.drives) : p ≤ 31 := by
  have hlcd : ∀ q ∈ lcdPins, q ≤ 31 := by decide
  unfold Ctx.drives at hp
  split at hp
  case h_1 => rcases List.mem_pair.1 hp with rfl | rfl <;> decide
  case h_2 hu =>
    rw [List.mem_singleton.1 hp]
    simpa only [Ctx.Placed, hu] using hx
  case h_3 hu =>
    rw [List.mem_singleton.1 hp]
    simpa only [Ctx.Placed, hu] using hx
  case h_10 => cases hp
  all_goals exact hlcd p hp

/-- A pin store has exactly one bit set, in SET or CLR (R53, R54, R131). -/
theorem described_pinEvent {c t p : Nat} (hp : p ≤ 31) (l : Level) : (pinEvent c t p l).Described := by
  cases l with
  | low => exact .inr ⟨.inr rfl, p, hp, rfl⟩
  | high => exact .inr ⟨.inl rfl, p, hp, rfl⟩

/-- The event that an action of a placed context records is an access of R58, or no access. -/
theorem Effect.described {x : Ctx} {s t : State} {cols : Nat} (hp : x.Placed cols) (h : Effect x s t) :
    t.hist = s.hist ∨ ∃ e, t.hist = s.hist ++ [e] ∧ e.Described := by
  cases h with
  | openRefused => exact .inl rfl
  | closeRefused => exact .inl rfl
  | delayStarts => exact .inl rfl
  | held => exact .inl rfl
  | waits => exact .inl rfl
  | pin hm => exact .inr ⟨_, rfl, described_pinEvent (le_of_mem_drives hp hm.mem_drives) _⟩
  | direct hm =>
    exact .inr ⟨_, by simp; rfl, described_pinEvent (le_of_mem_drives hp hm.mem_drives) _⟩
  | fselLoad _ hw => exact .inr ⟨_, rfl, .inl hw⟩
  | fselStore _ hw => exact .inr ⟨_, rfl, .inl hw⟩
  | strayLoad v _ _ hw => exact .inr ⟨.ld s.cur s.now (fselWordOf x.pin) v, by simp, .inr hw⟩
  | strayStore hu hw =>
    have h6 : fselWordOf x.pin < 6 := hu.elim (fselWordOf_lt_of_placed ·.1 hp) (fselWordOf_lt_of_placed ·.1 hp)
    omega
  | sampled v => exact .inr ⟨.ld s.cur s.now Config.levelWord v, by simp, .inr rfl⟩
  | delayEnds hm => exact .inr ⟨_, by rw [hm.frame]; rfl, by exact trivial⟩
  | _ => exact .inr ⟨_, rfl, trivial⟩

/-- Every action keeps the placement and what is said of the accesses. -/
theorem State.AccessesOk.of_effect {s t : State} {x : Ctx} (hs : s.AccessesOk) (hx : s.ctxs[s.cur]? = some x)
    (hr : x.status = .running) (h : Effect x.computed s t) : t.AccessesOk := by
  obtain ⟨hplaced, hall⟩ := hs
  refine ⟨hplaced.of_effect hx hr h, ?_⟩
  rcases h.described (hplaced.1 _ x hx hr) with he | ⟨e, he, hdesc⟩
  · rw [he]
    exact hall
  · rw [he]
    simpa [or_imp, forall_and] using ⟨hall, hdesc⟩

/-- Settles O53: only the action of a Running context records anything. -/
theorem accessesAreKept : Obligations.AccessesAreKept :=
  step_keeps State.AccessesOk (fun _ _ _ hs => hs) (fun _ _ hs => hs) (fun _ _ hs => hs)
    (fun _ _ hx _ hs => ⟨hs.1.of_set hx rfl rfl nofun, hs.2⟩)
    (fun _ _ _ _ _ hx _ _ _ _ hs => ⟨hs.1.of_set hx rfl rfl nofun, hs.2⟩)
    (fun _ _ _ _ hx _ hq hok hd hs =>
      ⟨hs.1.of_set hx rfl rfl fun _ => placed_handed _ hq hok fun _ => decodeRequest_textLength hd, hs.2⟩)
    (fun _ _ _ hx hr he hs => hs.of_effect hx hr he)

end Sys2Proof.Machine

/-! PROOFS. The encodings: what each table row's words decode to, and what words that decode are encoded to (R86, R87,
R90 to R94, R105). -/

namespace Sys2Proof.Machine

/-! ### Operand fields and texts -/

@[simp] theorem fieldBC_pack (o a b c : Byte) : fieldBC (pack o a b c) = joinBytes b c := by
  rw [fieldBC, fieldB_pack, fieldC_pack]

@[simp] theorem modeOfByte_toByte (m : Mode) : modeOfByte m.toByte = some m := by cases m <;> rfl

@[simp] theorem levelOfByte_toByte (l : Level) : levelOfByte l.toByte = some l := by cases l <;> rfl

@[simp] theorem rsOfByte_toByte (r : Rs) : rsOfByte r.toByte = some r := by cases r <;> rfl

theorem toByte_of_modeOfByte {b : Byte} {m : Mode} (h : modeOfByte b = some m) : b = m.toByte := by
  unfold modeOfByte at h
  split at h
  · cases h; assumption
  · split at h <;> cases h
    assumption

theorem toByte_of_levelOfByte {b : Byte} {l : Level} (h : levelOfByte b = some l) : b = l.toByte := by
  unfold levelOfByte at h
  split at h
  · cases h; assumption
  · split at h <;> cases h
    assumption

theorem toByte_of_rsOfByte {b : Byte} {r : Rs} (h : rsOfByte b = some r) : b = r.toByte := by
  unfold rsOfByte at h
  split at h
  · cases h; assumption
  · split at h <;> cases h
    assumption

/-- LEN of a text that fits is its length (R22, R92). -/
theorem toNat_length_of_textFits {t : List Byte} (h : textFits t = true) :
    (BitVec.ofNat 16 t.length).toNat = t.length := by
  have hle : t.length ≤ 65535 := of_decide_eq_true h
  rw [BitVec.toNat_ofNat, Nat.mod_eq_of_lt (by omega)]

/-- A request of a text form takes off exactly the payload words of its text (R92). -/
theorem withText_payload {t : List Byte} (h : textFits t = true) (mk : List Byte → Instr) (rest : List Word) :
    withText (BitVec.ofNat 16 t.length).toNat mk (t.map payloadWord ++ rest) = .ok (mk t, rest) := by
  rw [toNat_length_of_textFits h, withText, takeText_payload]

/-- What a request of a text form takes off is a text of LEN characters (R92). -/
theorem withText_ok {n : Nat} {mk : List Byte → Instr} {ws rest : List Word} {i : Instr}
    (h : withText n mk ws = .ok (i, rest)) : ∃ t, i = mk t ∧ t.length = n ∧ ws = t.map payloadWord ++ rest := by
  unfold withText at h
  split at h
  · cases h
  · rename_i t rest' htake
    cases h
    exact ⟨t, rfl, takeText_ok htake⟩

/-! ### Requests (R90 to R94) -/

/-- The words of a request are taken off the front of any words they begin (R90, R92). -/
theorem decodeRequest_encode {i : Instr} {ws : List Word} (hwf : i.wellFormed = true) (he : encode i = .request ws)
    (rest : List Word) : decodeRequest (ws ++ rest) = .ok (i.core, rest) := by
  cases i <;> cases he
  case lcdstr t => simpa [textRequest, decodeRequest, Instr.core] using withText_payload hwf .lcdstr rest
  case lcdline l t => simpa [textRequest, decodeRequest, Instr.core] using withText_payload hwf (.lcdline l) rest
  all_goals simp [decodeRequest, whenReservedZero, Instr.core]

/-- A word is the request word that has its fields (R90). -/
theorem eq_pack {r : Word} {o a b c : Byte} (ho : (opcOf r).toNat = o.toNat) (ha : fieldA r = a) (hb : fieldB r = b)
    (hc : fieldC r = c) : pack o a b c = r := by
  rw [← BitVec.eq_of_toNat_eq ho, ← ha, ← hb, ← hc, pack_fields]

/-- An instruction that is one request word, from that word's fields (R90). -/
theorem encode_single {i : Instr} {r : Word} {o a b c : Byte} (he : encode i = .request [pack o a b c])
    (ho : (opcOf r).toNat = o.toNat) (ha : fieldA r = a) (hb : fieldB r = b) (hc : fieldC r = c) :
    encode i = .request [r] := by
  rw [he, eq_pack ho ha hb hc]

/-- The request word of a text form, from its fields (R92). -/
theorem textRequest_eq {r : Word} {o a : Byte} {t : List Byte} (ho : (opcOf r).toNat = o.toNat) (ha : fieldA r = a)
    (ht : t.length = (fieldBC r).toNat) : textRequest o a t = r :: t.map payloadWord := by
  rw [textRequest, ht, BitVec.ofNat_toNat, BitVec.setWidth_eq, fieldBC, highByte_joinBytes, lowByte_joinBytes,
    eq_pack ho ha rfl rfl]

theorem textFits_of_length {t : List Byte} {n : BitVec 16} (h : t.length = n.toNat) : textFits t = true :=
  decide_eq_true (by rw [h, Config.textLenMax]; omega)

/-- What is taken off as a request is the words of that request, which is well formed and no pseudo-operation (R94,
R105, R111). -/
theorem encode_of_decodeRequest {ws rest : List Word} {i : Instr} (h : decodeRequest ws = .ok (i, rest)) :
    ∃ us, ws = us ++ rest ∧ encode i = .request us ∧ i.wellFormed = true ∧ i.core = i := by
  cases ws with
  | nil => cases h
  | cons r ws =>
    simp only [decodeRequest] at h
    split at h
    case h_12 ho =>
      split at h
      · rename_i ha
        obtain ⟨t, rfl, hlen, rfl⟩ := withText_ok h
        exact ⟨r :: t.map payloadWord, rfl, congrArg _ (textRequest_eq ho ha hlen), textFits_of_length hlen, rfl⟩
      · cases h
    case h_13 ho =>
      obtain ⟨t, rfl, hlen, rfl⟩ := withText_ok h
      exact ⟨r :: t.map payloadWord, rfl, congrArg _ (textRequest_eq ho rfl hlen), textFits_of_length hlen, rfl⟩
    case h_15 => cases h
    all_goals
      rename_i ho
      obtain ⟨hzero, hi, rfl⟩ := whenReservedZero_ok h
      simp only [Bool.and_eq_true, decide_eq_true_eq, Option.some.injEq, Option.map_eq_some_iff] at hzero hi
      refine ⟨[r], rfl, ?_⟩
    case h_1 | h_2 | h_3 | h_9 | h_10 =>
      cases hi
      exact ⟨encode_single rfl ho hzero.1.1 hzero.1.2 hzero.2, rfl, rfl⟩
    case h_6 | h_7 =>
      cases hi
      exact ⟨encode_single rfl ho rfl hzero.1 hzero.2, rfl, rfl⟩
    case h_4 =>
      obtain ⟨m, hm, rfl⟩ := hi
      exact ⟨encode_single rfl ho rfl (toByte_of_modeOfByte hm) hzero, rfl, rfl⟩
    case h_5 =>
      obtain ⟨l, hl, rfl⟩ := hi
      exact ⟨encode_single rfl ho rfl (toByte_of_levelOfByte hl) hzero, rfl, rfl⟩
    case h_8 =>
      cases hi
      exact ⟨encode_single rfl ho rfl (highByte_joinBytes _ _).symm (lowByte_joinBytes _ _).symm, rfl, rfl⟩
    case h_11 =>
      cases hi
      exact ⟨encode_single rfl ho rfl rfl hzero, rfl, rfl⟩
    case h_14 =>
      obtain ⟨rs, hrs, rfl⟩ := hi
      exact ⟨encode_single rfl ho (toByte_of_rsOfByte hrs) hzero rfl, rfl, rfl⟩

/-! ### Nibbles and bytes of the LCD bus (R86, R87) -/

/-- The cursor command of an address, from bit 7 down (R87). -/
theorem getLsbD_addressByte (a : BitVec 7) {i : Nat} (hi : i < 8) :
    (addressByte a).getLsbD i = if i = 7 then true else a.getLsbD i := by
  have hhigh : (0x80#8).getLsbD i = decide (i = 7) := by interval_cases i <;> rfl
  simp only [addressByte, BitVec.getLsbD_or, hhigh, BitVec.getLsbD_setWidth, hi, decide_true, Bool.true_and]
  by_cases h7 : i = 7 <;> simp [h7]

/-- The cursor command of an address is the row SETADDR (R87). -/
theorem decodeByte_addressByte (a : BitVec 7) : decodeByte .command (addressByte a) = .ok (.setaddr a) := by
  have htop : (addressByte a).getLsbD 7 = true := getLsbD_addressByte a (by decide)
  have hne (b : Byte) (hb : b.getLsbD 7 = false) : addressByte a ≠ b := fun h => by
    rw [h, hb] at htop
    cases htop
  have hbit : (addressByte a).extractLsb' 7 1 = 1#1 := by
    apply BitVec.eq_of_getLsbD_eq
    intro i hi
    obtain rfl : i = 0 := by omega
    simp only [BitVec.getLsbD_extractLsb', htop]
    rfl
  have haddr : (addressByte a).extractLsb' 0 7 = a := by
    apply BitVec.eq_of_getLsbD_eq
    intro i hi
    have h7 : i ≠ 7 := by omega
    simp only [BitVec.getLsbD_extractLsb', hi, decide_true, Bool.true_and, Nat.zero_add,
      getLsbD_addressByte a (show i < 8 by omega), if_neg h7]
  simp only [decodeByte, hne 0x28#8 rfl, hne 0x0C#8 rfl, hne 0x06#8 rfl, hne 0x01#8 rfl, hbit, haddr, if_false, if_true]

/-- A nibble that is a row of the LCD bus is the nibble of that row (R86). -/
theorem encode_of_decodeNibble {rs : Rs} {n : Nibble} {i : Instr} (h : decodeNibble rs n = .ok i) :
    encode i = .nibble rs n := by
  unfold decodeNibble at h
  split at h
  · repeat' split at h
    case isFalse.isFalse => cases h
    all_goals
      subst n
      cases h
      rfl
  · cases h

/-- What is no request has no condition on its operands and is no pseudo-operation (R92, R111). -/
theorem core_of_not_isRequest {i : Instr} (h : isRequest i = false) : i.wellFormed = true ∧ i.core = i := by
  cases i <;> first | exact ⟨rfl, rfl⟩ | cases h

/-! ### Every row -/

/-- Settles O1: by the space an instruction is encoded in. -/
theorem decodeOfEncode : Obligations.DecodeOfEncode := by
  intro i hwf
  cases he : encode i with
  | request ws =>
    have hd := decodeRequest_encode hwf he []
    rw [List.append_nil] at hd
    simp only [decode, hd]
  | payload w =>
    cases i <;> cases he
    simp only [decode, decodePayload_payloadWord]
    rfl
  | nibble rs n => cases i <;> cases he <;> rfl
  | byte rs b =>
    cases i <;> cases he
    case byte.setaddr.refl a => exact decodeByte_addressByte a
    all_goals rfl

/-- Settles O2: by the space of the words. -/
theorem encodeOfDecode : Obligations.EncodeOfDecode := by
  intro e i h
  have hother (he : encode i = e) (hr : isRequest i = false) : encode i = e ∧ i.wellFormed = true ∧ i.core = i :=
    ⟨he, core_of_not_isRequest hr⟩
  cases e with
  | request ws =>
    simp only [decode] at h
    split at h
    · cases h
    · rename_i hd
      cases h
      obtain ⟨us, rfl, he, hwf⟩ := encode_of_decodeRequest hd
      rw [List.append_nil]
      exact ⟨he, hwf⟩
    · cases h
  | payload w =>
    cases hd : decodePayload w with
    | error e => simp only [decode, hd] at h; cases h
    | ok c =>
      simp only [decode, hd] at h
      cases h
      exact hother (congrArg _ (payloadWord_of_decode hd)) rfl
  | nibble rs n =>
    have he := encode_of_decodeNibble h
    exact hother he (by simp [isRequest, he])
  | byte rs b =>
    have he := encode_of_decodeByte h
    exact hother he (by simp [isRequest, he])

end Sys2Proof.Machine

/-! PROOFS. What a request's words are taken off as, whole, incomplete or illegal (R90, R92, R105). -/

namespace Sys2Proof.Machine

/-! ### Whole or not at all (R90, R92) -/

/-- A text of which a payload word is missing is incomplete (entry 10). -/
theorem takeText_take {t : List Byte} {k : Nat} (hk : k < t.length) :
    takeText t.length ((t.map payloadWord).take k) = .error .incomplete := by
  induction t generalizing k with
  | nil => cases hk
  | cons c cs ih =>
    cases k with
    | zero => rfl
    | succ k => simp [takeText, ih (Nat.lt_of_succ_lt_succ hk)]

/-- A text request of which a payload word is missing is incomplete (entry 10). -/
theorem withText_take {t : List Byte} {k : Nat} (hfits : textFits t = true) (hk : k < t.length)
    (mk : List Byte → Instr) :
    withText (BitVec.ofNat 16 t.length).toNat mk ((t.map payloadWord).take k) = .error .incomplete := by
  rw [toNat_length_of_textFits hfits, withText, takeText_take hk]

/-- A request of which words are missing is incomplete: all of them, or payload words of a text (R90, entry 10). -/
theorem decodeRequest_take {i : Instr} {ws : List Word} {k : Nat} (hwf : i.wellFormed = true)
    (he : encode i = .request ws) (hk : k < ws.length) : decodeRequest (ws.take k) = .error .incomplete := by
  cases k with
  | zero => rfl
  | succ k =>
    cases i <;> cases he
    case lcdstr.refl t =>
      have hk' : k < t.length := by simpa [textRequest] using hk
      simpa [textRequest, decodeRequest] using withText_take hwf hk' .lcdstr
    case lcdline.refl l t =>
      have hk' : k < t.length := by simpa [textRequest] using hk
      simpa [textRequest, decodeRequest] using withText_take hwf hk' (.lcdline l)
    all_goals exact absurd hk (by simp)

/-- Settles O3: a request's words are taken whole from the front, and none of them before all are there. -/
theorem requestsAreTakenWhole : Obligations.RequestsAreTakenWhole :=
  fun _ _ hwf he => ⟨decodeRequest_encode hwf he, fun _ => decodeRequest_take hwf he⟩

/-! ### Illegal words (R94, R105) -/

/-- The word an instruction is encoded to is selected by the instruction's row of the table (R86, R87, R92, R94). -/
theorem row_selects (i : Instr) : (Laws.Words.row i).Selects (encode i) := by
  cases i with
  | mapopen => exact Laws.Words.mapopen
  | mapclose => exact Laws.Words.mapclose
  | shutdown => exact Laws.Words.shutdown
  | setmode p m => exact Laws.Words.setmode p m
  | write p l => exact Laws.Words.write p l
  | read p => exact Laws.Words.read p
  | waitbtn p => exact Laws.Words.waitbtn p
  | blink p n => exact Laws.Words.blink p n
  | lcdinit => exact Laws.Words.lcdinit
  | lcdclear => exact Laws.Words.lcdclear
  | lcdcursor r c => exact Laws.Words.lcdcursor r c
  | lcdstr t => exact Laws.Words.lcdstr t
  | lcdline l t => exact Laws.Words.lcdline l t
  | lcdbyte rs b => exact Laws.Words.lcdbyte rs b
  | payload c => exact Laws.Words.payload c
  | setpinmode p m => exact Laws.Words.setpinmode p m
  | writepin p l => exact Laws.Words.writepin p l
  | readpin p => exact Laws.Words.readpin p
  | init3 => exact Laws.Words.init3
  | init2 => exact Laws.Words.init2
  | funcset => exact Laws.Words.funcset
  | dispctl => exact Laws.Words.dispctl
  | entrymode => exact Laws.Words.entrymode
  | clear => exact Laws.Words.clear
  | setaddr a => exact Laws.Words.setaddr a
  | data c => exact Laws.Words.data c

/-- The row of a request is one of R94. -/
theorem row_mem_requestRows {i : Instr} (h : isRequest i = true) :
    ∃ row ∈ requestRows, Laws.Words.row i = .request row.1 row.2 := by
  cases i <;> first
    | (cases h; done)
    | exact ⟨(_, _), by simp [requestRows], rfl⟩

/-- The first word of what is taken off as a request is a word of a row of R94. -/
theorem row_of_decodeRequest {r : Word} {ws rest : List Word} {i : Instr} (h : decodeRequest (r :: ws) = .ok (i, rest)) :
    ∃ row ∈ requestRows, r &&& row.1 = row.2 := by
  obtain ⟨us, hws, he, -⟩ := encode_of_decodeRequest h
  obtain ⟨row, hmem, hrow⟩ := row_mem_requestRows (decodeRequest_isRequest h)
  have hsel := row_selects i
  rw [he, hrow] at hsel
  cases us with
  | nil => exact hsel.elim
  | cons u us =>
    cases hws
    exact ⟨row, hmem, hsel⟩

theorem byte_and_ones (b : Byte) : b &&& 0xFF#8 = b := BitVec.and_allOnes

/-- The row of LCDSTR, by the fields of the word (R94). -/
theorem lcdstr_row_iff (r : Word) : r &&& 0xFFFF0000#32 = 0x43000000#32 ↔ opcOf r = 0x43#8 ∧ fieldA r = 0#8 := by
  have hmask : (0xFFFF0000#32 : Word) = pack 0xFF#8 0xFF#8 0#8 0#8 := by decide
  have hvalue : (0x43000000#32 : Word) = pack 0x43#8 0#8 0#8 0#8 := by decide
  have hand : r &&& 0xFFFF0000#32 = pack (opcOf r) (fieldA r) 0#8 0#8 := by
    conv_lhs => rw [← pack_fields r, hmask, Laws.Words.pack_and]
    simp only [byte_and_ones, Laws.Words.byte_and_zero]
  rw [hand, hvalue]
  refine ⟨fun h => ⟨?_, ?_⟩, fun ⟨ho, ha⟩ => by rw [ho, ha]⟩
  · simpa using congrArg opcOf h
  · simpa using congrArg fieldA h

/-- The row of LCDLINE, by the fields of the word (R94). -/
theorem lcdline_row_iff (r : Word) : r &&& 0xFF000000#32 = 0x44000000#32 ↔ opcOf r = 0x44#8 := by
  have hmask : (0xFF000000#32 : Word) = pack 0xFF#8 0#8 0#8 0#8 := by decide
  have hvalue : (0x44000000#32 : Word) = pack 0x44#8 0#8 0#8 0#8 := by decide
  have hand : r &&& 0xFF000000#32 = pack (opcOf r) 0#8 0#8 0#8 := by
    conv_lhs => rw [← pack_fields r, hmask, Laws.Words.pack_and]
    simp only [byte_and_ones, Laws.Words.byte_and_zero]
  rw [hand, hvalue]
  refine ⟨fun h => ?_, fun ho => by rw [ho]⟩
  simpa using congrArg opcOf h

/-- LEN is the low half of the request word (R92). -/
theorem toNat_fieldBC (r : Word) : (fieldBC r).toNat = (r &&& 0xFFFF#32).toNat := by
  have h : fieldBC r = r.setWidth 16 := by
    apply BitVec.eq_of_getLsbD_eq
    intro i hi
    simp [fieldBC, joinBytes, fieldB, fieldC]
    grind
  rw [h, BitVec.toNat_setWidth, BitVec.toNat_and]
  exact (Nat.and_two_pow_sub_one_eq_mod r.toNat 16).symm

theorem decodeRequest_lcdstr {r : Word} (ho : opcOf r = 0x43#8) (ha : fieldA r = 0#8) (ws : List Word) :
    decodeRequest (r :: ws) = withText (fieldBC r).toNat .lcdstr ws := by
  simp [decodeRequest, ho, ha]

theorem decodeRequest_lcdline {r : Word} (ho : opcOf r = 0x44#8) (ws : List Word) :
    decodeRequest (r :: ws) = withText (fieldBC r).toNat (.lcdline (fieldA r)) ws := by
  simp [decodeRequest, ho]

theorem whenReservedZero_ne_incomplete (z : Bool) (o : Option Instr) (ws : List Word) :
    whenReservedZero z o ws ≠ .error .incomplete := by
  unfold whenReservedZero
  split <;> nofun

/-- Only a text request can be incomplete once its first word is there (R90). -/
theorem row_of_incomplete {r : Word} {ws : List Word} (h : decodeRequest (r :: ws) = .error .incomplete) :
    r &&& 0xFFFF0000#32 = 0x43000000#32 ∨ r &&& 0xFF000000#32 = 0x44000000#32 := by
  simp only [decodeRequest] at h
  split at h
  case h_12 ho =>
    split at h
    · rename_i ha
      exact .inl ((lcdstr_row_iff r).2 ⟨BitVec.eq_of_toNat_eq ho, ha⟩)
    · cases h
  case h_13 ho => exact .inr ((lcdline_row_iff r).2 (BitVec.eq_of_toNat_eq ho))
  case h_15 => cases h
  all_goals exact absurd h (whenReservedZero_ne_incomplete _ _ _)

theorem decodePayload_error {w : Word} {e : DecodeError} (h : decodePayload w = .error e) : e = .illegalPayload := by
  unfold decodePayload at h
  split at h <;> cases h
  rfl

/-- A payload word above 0xFF is illegal (R105). -/
theorem decodePayload_illegal {w : Word} (hw : 0xFF < w.toNat) : decodePayload w = .error .illegalPayload := by
  cases hd : decodePayload w with
  | error e => rw [decodePayload_error hd]
  | ok c =>
    rw [← payloadWord_of_decode hd, payloadWord, BitVec.toNat_setWidth] at hw
    omega

/-- A text with an illegal payload word among those laid down is illegal, whatever words are missing (R105, entry 10). -/
theorem takeText_illegal {n j : Nat} {ws : List Word} {w : Word} (hj : j < n) (hget : ws[j]? = some w)
    (hw : 0xFF < w.toNat) : takeText n ws = .error .illegalPayload := by
  induction n generalizing j ws with
  | zero => cases hj
  | succ n ih =>
    cases ws with
    | nil => cases hget
    | cons v ws =>
      cases hv : decodePayload v with
      | error e => simp only [takeText, hv, decodePayload_error hv]
      | ok c =>
        cases j with
        | zero =>
          cases hget
          rw [decodePayload_illegal hw] at hv
          cases hv
        | succ j =>
          have := ih (Nat.lt_of_succ_lt_succ hj) (by simpa using hget)
          simp only [takeText, hv, this]

/-- Illegal words are refused as no request, and are not waited for (R105). -/
theorem decodeRequest_illegal {ws : List Word} (h : IllegalWords ws) :
    ∃ e, decodeRequest ws = .error e ∧ e ≠ .incomplete := by
  cases ws with
  | nil => exact h.elim
  | cons r ws =>
    rcases h with hrows | ⟨htext, j, w, hj, hget, hw⟩
    · cases hd : decodeRequest (r :: ws) with
      | ok p =>
        obtain ⟨row, hmem, hrow⟩ := row_of_decodeRequest (i := p.1) (rest := p.2) hd
        exact absurd hrow (hrows row hmem)
      | error e =>
        refine ⟨e, rfl, ?_⟩
        rintro rfl
        rcases row_of_incomplete hd with hrow | hrow
        · exact hrows (0xFFFF0000#32, 0x43000000#32) (by simp [requestRows]) hrow
        · exact hrows (0xFF000000#32, 0x44000000#32) (by simp [requestRows]) hrow
    · rw [← toNat_fieldBC] at hj
      refine ⟨.illegalPayload, ?_, nofun⟩
      rcases htext with hrow | hrow
      · obtain ⟨ho, ha⟩ := (lcdstr_row_iff r).1 hrow
        rw [decodeRequest_lcdstr ho ha, withText, takeText_illegal hj hget hw]
      · rw [decodeRequest_lcdline ((lcdline_row_iff r).1 hrow), withText, takeText_illegal hj hget hw]

/-- The turn of an Idle context whose requester's words are no request refuses them (R105, R226). -/
theorem contextTurn_illegal {s : State} {x : Ctx} {e : DecodeError} (hx : s.ctxs[s.cur]? = some x)
    (hidle : x.status = .idle) (hd : decodeRequest x.todo = .error e) (he : e ≠ .incomplete) :
    contextTurn s = .next (s.putCtx (x.refusedFor .illegalRequest)) := by
  simp only [contextTurn, fetch, hx, hidle, hd]
  rfl

/-- Settles O9: illegal words decode to an error that is not waited for, and the turn refuses them. -/
theorem illegalRequestsAreRefused : Obligations.IllegalRequestsAreRefused := by
  intro s s1 c x ht hx hidle hwords
  obtain ⟨e, hd, he⟩ := decodeRequest_illegal hwords
  obtain ⟨hstep, hx1⟩ := step_of_contextTurn ht hx
  rw [hstep, contextTurn_illegal hx1 hidle hd he]

end Sys2Proof.Machine

/-! PROOFS. The response words (R91): which there are, who has one, and how long it stands. -/

namespace Sys2Proof.Machine

/-! ### What an action hands back -/

/-- The words that the block hands back: `Return` with VALUE 0 or 1, and the two errors (R91, R220). -/
def IsResponse (w : Word) : Prop :=
  w = 0x00000000#32 ∨ w = 0x00000001#32 ∨ w = 0x01000000#32 ∨ w = 0x02000000#32

/-- A context that has a response is Idle, and the response is one of the four words (R91). -/
def Ctx.ResponseOk (x : Ctx) : Prop := ∀ w, x.response = some w → x.status = .idle ∧ IsResponse w

theorem responseOk_of_none {x : Ctx} (h : x.response = none) : x.ResponseOk := by
  intro w hw
  simp [h] at hw

/-- A Running context has no response. -/
theorem Ctx.ResponseOk.none_of_running {x : Ctx} (h : x.ResponseOk) (hr : x.status = .running) : x.response = none := by
  cases hw : x.response with
  | none => rfl
  | some w => simpa [hr] using (h w hw).1

theorem isResponse_returned (v : BitVec 1) : IsResponse (responseWord 0x00#8 v) := by
  unfold IsResponse
  decide +revert

theorem isResponse_raised (e : InitError) : IsResponse (responseWord (errorCode e) 0#1) := by
  cases e <;> unfold IsResponse <;> decide

/-- An operation that has ended with a word of the block leaves its context as it must be (R9, R91). -/
theorem responseOk_finished {x : Ctx} {w : Word} (h : IsResponse w) : (x.finished w).ResponseOk := by
  intro w' hw
  cases hw
  exact ⟨rfl, h⟩

theorem DelayMove.response {x y : Ctx} {d : Nat} {f : State → State} (h : DelayMove x d y f) :
    y.response = x.response := by
  cases h with
  | byteEnd => exact (afterByte_fields _).2.2.2.2.2.2.2.1
  | _ => rfl

theorem AcquireMove.response {x y : Ctx} (h : AcquireMove x y) : y.response = x.response := by
  cases h <;> rfl

/-- An action hands a response back only where it ends the operation (R9, R91, R224). -/
theorem Effect.responseOk {x : Ctx} {s t : State} (hx : s.ctxs[s.cur]? = some x) (hnone : x.response = none)
    (h : Effect x.computed s t) : ∃ y, t.ctxs = s.ctxs.set s.cur y ∧ y.ResponseOk := by
  have self := (set_cur_self hx).symm
  cases h with
  | opened => exact ⟨_, rfl, responseOk_finished (isResponse_returned _)⟩
  | closed => exact ⟨_, rfl, responseOk_finished (isResponse_returned _)⟩
  | returned => exact ⟨_, rfl, responseOk_finished (isResponse_returned _)⟩
  | @raised e => exact ⟨_, rfl, responseOk_finished (isResponse_raised e)⟩
  | held => exact ⟨x, self, responseOk_of_none hnone⟩
  | waits => exact ⟨x, self, responseOk_of_none hnone⟩
  | delayEnds hm => exact ⟨_, by rw [hm.frame]; rfl, responseOk_of_none (hm.response.trans hnone)⟩
  | acquired hm => exact ⟨_, rfl, responseOk_of_none (hm.response.trans hnone)⟩
  | @direct _ u => exact ⟨x.computed.goto u, by simp, responseOk_of_none hnone⟩
  | sampled =>
    obtain ⟨ds, n, hd⟩ := takeDraw_frame s
    rw [hd]
    exact ⟨_, rfl, responseOk_of_none hnone⟩
  | strayLoad =>
    obtain ⟨ds, n, hd⟩ := takeDraw_frame s
    rw [hd]
    exact ⟨_, rfl, responseOk_of_none hnone⟩
  | openRefused => exact ⟨_, rfl, responseOk_of_none rfl⟩
  | closeRefused => exact ⟨_, rfl, responseOk_of_none rfl⟩
  | notReady => exact ⟨_, rfl, responseOk_of_none rfl⟩
  | _ => exact ⟨_, rfl, responseOk_of_none hnone⟩

/-! ### What a step does to the responses -/

theorem State.ResponsesOk.ctx {s : State} (hs : s.ResponsesOk) {c : Nat} {x : Ctx} (hx : s.ctxs[c]? = some x) :
    x.ResponseOk := fun w => hs c x w hx

/-- A context that is written, its response as it must be, keeps what is said of the responses. -/
theorem State.ResponsesOk.of_set {s t : State} {x y : Ctx} (hs : s.ResponsesOk) (hx : s.ctxs[s.cur]? = some x)
    (ht : t.ctxs = s.ctxs.set s.cur y) (hy : y.ResponseOk) : t.ResponsesOk := fun c z w hz =>
  forall_ctxs_of_set (P := fun _ => Ctx.ResponseOk) hx ht hy (fun _ _ _ => hs.ctx) c z hz w

/-- Every action keeps what is said of the responses. -/
theorem State.ResponsesOk.of_effect {s t : State} {x : Ctx} (hs : s.ResponsesOk) (hx : s.ctxs[s.cur]? = some x)
    (hr : x.status = .running) (h : Effect x.computed s t) : t.ResponsesOk := by
  obtain ⟨y, ht, hy⟩ := h.responseOk hx ((hs.ctx hx).none_of_running hr)
  exact hs.of_set hx ht hy

/-- Every step keeps what is said of the responses (R91): a hand-over, accepted or refused, clears the response. -/
theorem State.ResponsesOk.of_step {s t : State} (hs : s.ResponsesOk) (h : step s = .next t) : t.ResponsesOk :=
  step_keeps State.ResponsesOk (fun _ _ _ hs => hs) (fun _ _ hs => hs) (fun _ _ hs => hs)
    (fun _ _ hx _ hs => hs.of_set hx rfl (responseOk_of_none rfl))
    (fun _ _ _ _ _ hx _ _ _ _ hs => hs.of_set hx rfl (responseOk_of_none rfl))
    (fun _ _ i _ hx _ hq _ _ hs => hs.of_set hx rfl (responseOk_of_none (handed_fields _ i hq).2.2.2.1))
    (fun _ _ _ hx hr he hs => hs.of_effect hx hr he) s t hs h

/-- A step writes no context but the one whose turn it is (R12, R60). -/
theorem step_ctxs_of_turn {s s1 t : State} {tn : Turn} (ht : s.TakesTurn tn s1) (h : step s = .next t) :
    t.ctxs = s.ctxs ∨ tn = .context t.cur := by
  obtain ⟨tn', s1', ht', hcase⟩ := step_cases h
  obtain ⟨rfl, rfl⟩ : tn' = tn ∧ s1' = s1 := by
    simpa using (takesTurn_iff.1 ht').symm.trans (takesTurn_iff.1 ht)
  have hctxs := takesTurn_ctxs ht
  rcases hcase with ⟨e, rfl, rfl⟩ |
    ⟨c, rfl, rfl | rfl | ⟨x, hx, ⟨_, _, rfl⟩ | ⟨_, i, rest, _, _, rfl⟩ | ⟨_, he⟩⟩⟩
  · exact .inl hctxs
  · exact .inl hctxs
  · exact .inl hctxs
  · exact .inr rfl
  · exact .inr rfl
  · obtain ⟨_, _, _, hcur, _⟩ := effect_frame (s := { s1' with cur := c }) hx he
    exact .inr (congrArg _ hcur.symm)

/-- Settles O54: every step keeps the responses, and one that is not a hand-over of the context leaves its response. -/
theorem responsesAreKept : Obligations.ResponsesAreKept := by
  intro s t hs h
  refine ⟨hs.of_step h, fun tn s1 c x w ht hx hw hother => ?_⟩
  by_cases hturn : tn = .context c
  · subst hturn
    have hd := hother.resolve_left (fun hne => hne rfl)
    have hwaits := (stepWaitsWhereNothingIsEnabled s s1 c ht).2.2 x hx (hs c x w hx hw).1 hd
    obtain rfl := next_inj (hwaits.symm.trans h)
    exact (congrArg (·[c]?) (takesTurn_ctxs ht)).trans hx
  · rcases step_ctxs_of_turn ht h with hctxs | hcur
    · rw [hctxs, hx]
    · have hc : c ≠ t.cur := fun hc => hturn (hc ▸ hcur)
      rw [step_others h hc, hx]

end Sys2Proof.Machine

/-! PROOFS. Words of the spec's tables, and the payload of a text (R86, R87, R92 to R94). -/

namespace Sys2Proof.Machine

/-- Settles O4: the decoder on the eight words. -/
theorem decodeWordsRight : Obligations.DecodeWordsRight := by
  unfold Obligations.DecodeWordsRight
  decide

/-- A payload word appends its character to the TEXT of an Idle context (R92, entry 15). -/
theorem exec_payload_idle {s : State} {x : Ctx} (hx : s.me = some x) (hi : x.status = .idle) (ch : Byte) :
    exec (.payload ch) s = .next (s.putCtx { x with text := x.text ++ [ch] })  := by
  have hx' : s.ctxs[s.cur]? = some x := hx
  simp only [exec, execPayload, onContext_idle hx' hi]
  rfl

theorem me_putCtx {s : State} {x : Ctx} (hx : s.me = some x) (y : Ctx) : (s.putCtx y).me = some y :=
  (getElem?_set_cur hx s.cur).trans (if_pos rfl)

/-- Payload words given in turn to an Idle context append their characters to its TEXT (R92). -/
theorem receives_idle {s : State} {x : Ctx} (hx : s.me = some x) (hi : x.status = .idle) (t : List Byte) :
    s.receives t = .next (s.putCtx { x with text := x.text ++ t }) := by
  induction t generalizing s x with
  | nil =>
    have hself : s.putCtx x = s := by rw [State.putCtx, set_cur_self hx]
    simp [State.receives, hself]
  | cons c cs ih =>
    have hnext := ih (me_putCtx hx { x with text := x.text ++ [c] }) hi
    simp only [State.receives, exec_payload_idle hx hi, hnext]
    simp

theorem isRequest_of_text {i : Instr} {t : List Byte} (h : i = .lcdstr t ∨ ∃ l, i = .lcdline l t) :
    isRequest i = true := by
  rcases h with rfl | ⟨l, rfl⟩ <;> rfl

/-- An accepted text request leaves its text in TEXT (R92, R93). -/
theorem text_handed {i : Instr} {t : List Byte} (x : Ctx) (h : i = .lcdstr t ∨ ∃ l, i = .lcdline l t) :
    (x.handed i).text = t := by
  rcases h with rfl | ⟨l, rfl⟩ <;> rw [Ctx.handed_pack x rfl] <;> rfl

/-- Settles O19: the characters of the payload, one by one and in the hand-over. -/
theorem payloadAppendsCharacter : Obligations.PayloadAppendsCharacter := by
  refine ⟨fun ch s x hx hi => exec_payload_idle hx hi ch, fun i t s x hx hi htext hok => ?_⟩
  refine ⟨x.handed i, ?_, text_handed x htext, ?_⟩
  · rw [exec_idle hx hi (isRequest_of_text htext), handedOver, hok]
  · have hempty : (s.putCtx { x with text := [] }).me = some { x with text := [] } := me_putCtx hx _
    refine ⟨_, receives_idle hempty hi t, ?_⟩
    rw [me_putCtx hempty]
    simp

end Sys2Proof.Machine

/-! SUPPORT. An operation run alone with its least delays: the rules for its single actions, and what a nibble and a byte
of the display's bus leave behind (R182, R183, R270). -/

namespace Sys2Proof.Machine

/-! ### One action of a run (R10, R270) -/

theorem State.Runs.fields {s : State} {x : Ctx} (h : s.Runs x) : x.status = .running ∧ x.between = .nothing := by
  obtain ⟨y, _, hr, rfl⟩ := h
  exact ⟨hr, rfl⟩

/-- A context that is written Running, with nothing to compute before its action, runs as it was written. -/
theorem runs_of_set {s t : State} {x y : Ctx} (h : s.Runs x) (hctxs : t.ctxs = s.ctxs.set s.cur y)
    (hcur : t.cur = s.cur) (hr : y.status = .running) (hb : y.between = .nothing) : t.Runs y := by
  obtain ⟨z, hz, _, _⟩ := h
  refine ⟨y, ?_, hr, (Ctx.computed_of_nothing hb).symm⟩
  rw [State.me, hctxs, hcur, getElem?_set_cur hz, if_pos rfl]

/-- Without a delay in progress no time has to pass before the next action. -/
theorem leastTick_of_noDelay {s : State} {x : Ctx} (hx : s.me = some x) (hd : x.delayFrom = none) :
    s.leastTick = s := by
  simp [State.leastTick, hx, hd]

/-- The first of a run's steps, where no delay is in progress. -/
theorem solo_step {i : Instr} {s t : State} {x : Ctx} (hx : s.me = some x) (hd : x.delayFrom = none)
    (he : exec i s = .next t) (n : Nat) : solo i (n + 1) s = solo i n t := by
  simp only [solo, soloStep, leastTick_of_noDelay hx hd, he]

/-- The first of a run's actions by a Running context, where no delay is in progress. -/
theorem solo_action {i : Instr} {s t : State} {x : Ctx} (hx : s.Runs x) (hd : x.delayFrom = none)
    (he : exec i s = .next t) (n : Nat) : solo i (n + 1) s = solo i n t := by
  obtain ⟨y, hy, _, rfl⟩ := hx
  exact solo_step hy hd he n

/-- The context with the delay that ends at `w` noted from `t0`. -/
def Ctx.withDelay (x : Ctx) (w : Nat) (t0 : Option Nat) : Ctx := { x with wake := w, delayFrom := t0 }

/-- The state once a delay of `d` by the executing context, started now, is over and recorded (R270). -/
def State.waited (s : State) (d : Nat) : State :=
  { s with now := s.now + d, hist := s.hist ++ [.dly s.cur d s.now (s.now + d)] }

/-- The least tick of a delay that was just started is its whole length (R270). -/
theorem leastTick_withDelay {s : State} {x : Ctx} (hx : s.me = some x) (y : Ctx) (d : Nat) :
    (s.putCtx (y.withDelay (s.now + d) (some s.now))).leastTick =
      ({ s with now := s.now + d } : State).putCtx (y.withDelay (s.now + d) (some s.now)) := by
  simp only [State.leastTick, me_putCtx hx]
  by_cases hd : d = 0
  · subst hd
    simp [Ctx.withDelay]
  · have hlt : s.now < s.now + d := by omega
    simp [Ctx.withDelay, hlt]
    rfl

/-- The two halves of a delay, with the least tick between them (R270). -/
theorem solo_delay {i : Instr} {s : State} {x : Ctx} {d : Nat} {fin : Ctx → State → State} (hx : s.Runs x)
    (hd : x.delayFrom = none)
    (hrule : ∀ r w t0, r.Runs (x.withDelay w t0) → DelayRule i (x.withDelay w t0) r d (fin (x.withDelay w t0)))
    (n : Nat) :
    solo i (n + 2) s =
      solo i n (fin (x.withDelay (s.now + d) (some s.now))
        ((s.waited d).putCtx (x.withDelay (s.now + d) (some s.now)))) := by
  obtain ⟨hr, hb⟩ := hx.fields
  obtain ⟨z, hz, _⟩ := id hx
  obtain ⟨hstarts, -⟩ := hrule s x.wake x.delayFrom hx
  have hfirst : exec i s = .next (s.putCtx (x.withDelay (s.now + d) (some s.now))) := hstarts hd
  have hruns : (({ s with now := s.now + d } : State).putCtx (x.withDelay (s.now + d) (some s.now))).Runs
      (x.withDelay (s.now + d) (some s.now)) := runs_of_set hx rfl rfl hr hb
  obtain ⟨-, -, hends⟩ := hrule _ _ _ hruns
  have hlast := hends s.now rfl (Nat.le_refl _)
  rw [solo_action hx hd hfirst]
  simp only [solo, soloStep, leastTick_withDelay hz, hlast]
  rfl

/-! ### What a run leaves behind -/

/-- The state after some actions of the executing context: the context is `x`, the time `now` and the latch `out`, and the
history and the latch events have grown by `es` and `ls`. -/
def State.ran (s : State) (x : Ctx) (now : Nat) (out : Word) (es : List Event) (ls : List Latch) : State :=
  { s with
    ctxs := s.ctxs.set s.cur x
    now := now
    out := out
    hist := s.hist ++ es
    latches := s.latches ++ ls }

@[simp] theorem State.ran_ran (s : State) (x y : Ctx) (m n : Nat) (o p : Word) (es fs : List Event)
    (ls ms : List Latch) :
    (s.ran x m o es ls).ran y n p fs ms = s.ran y n p (es ++ fs) (ls ++ ms) := by
  simp [State.ran]

theorem runs_ran {s : State} {x z : Ctx} (hz : s.me = some z) (hr : x.status = .running) (hb : x.between = .nothing)
    (now : Nat) (o : Word) (es : List Event) (ls : List Latch) : (s.ran x now o es ls).Runs x :=
  ⟨x, me_putCtx hz x, hr, (Ctx.computed_of_nothing hb).symm⟩

/-- A pin store, as a run (R131). -/
theorem solo_pinWrite {i : Instr} {s : State} {x : Ctx} {p : Nat} {l : Level} {u : Upc} (hx : s.Runs x)
    (hd : x.delayFrom = none)
    (he : exec i s = pinWrite p l s fun r => .next (r.putCtx (x.goto u))) (n : Nat) :
    solo i (n + 1) s =
      solo i n (s.ran (x.goto u) s.now (outAfter s.out p l) [pinEvent s.cur s.now p l]
        (latchEvents s.fsel s.out (outAfter s.out p l))) := by
  rw [pinWrite_stored] at he
  exact solo_action hx hd he n

/-- A delay that only moves its context on, as a run (R270). -/
theorem solo_delayAct {i : Instr} {s : State} {x : Ctx} {d : Nat} {u : Upc} (hx : s.Runs x) (hd : x.delayFrom = none)
    (he : ∀ r w t0, r.Runs (x.withDelay w t0) →
      exec i r = delayAct d (x.withDelay w t0) r fun y r => .next (r.putCtx (y.goto u))) (n : Nat) :
    solo i (n + 2) s =
      solo i n (s.ran ((x.withDelay (s.now + d) none).goto u) (s.now + d) s.out
        [.dly s.cur d s.now (s.now + d)] []) := by
  rw [solo_delay hx hd (fin := fun y r => r.putCtx ((y.withDelay y.wake none).goto u)) fun r w t0 hr =>
    delayRule_of_delayAct (he r w t0 hr) fun _ => rfl]
  simp [State.ran, State.waited, State.putCtx, Ctx.withDelay]

/-! ### The latch events of a nibble (R182, R186) -/

/-- The latch with the four data lines at the nibble `n` (R84). -/
def withLines (out : Word) (n : Nibble) : Word :=
  outAfter (outAfter (outAfter (outAfter out 23 (nibbleLine n 0)) 10 (nibbleLine n 1)) 27 (nibbleLine n 2)) 22
    (nibbleLine n 3)

/-- The latch after the nibble `n`: the data lines at it, and EN low after its pulse (R182). -/
def outAfterNibble (out : Word) (n : Nibble) : Word := outAfter (outAfter (withLines out n) 24 .high) 24 .low

/-- The latch events of a nibble: the one at the falling edge of its EN pulse, whatever EN was before (R182, R186). -/
def nibbleLatches (f : Fsel) (out : Word) (n : Nibble) : List Latch :=
  if lcdPinsDriven f then [latchOf (outAfterNibble out n)] else []

/-- A store to a pin other than EN makes no latch event (R186). -/
theorem latchEvents_of_ne (f : Fsel) (out : Word) {p : Nat} (h : p ≠ 24) (l : Level) :
    latchEvents f out (outAfter out p l) = [] := by
  have hen : (outAfter out p l).getLsbD 24 = out.getLsbD 24 := by
    rw [getLsbD_outAfter _ _ _ (by decide), if_neg (Ne.symm h)]
  rw [latchEvents, Config.lcdEn, hen]
  cases out.getLsbD 24 <;> rfl

/-- The rising edge of EN makes no latch event (R186). -/
theorem latchEvents_rise (f : Fsel) (out : Word) : latchEvents f out (outAfter out 24 .high) = [] := by
  have hen : (outAfter out 24 .high).getLsbD 24 = true := getLsbD_outAfter _ _ _ (by decide)
  rw [latchEvents, Config.lcdEn, hen]
  cases out.getLsbD 24 <;> rfl

/-- The falling edge of EN makes one latch event, if the display's pins are driven (R186). -/
theorem latchEvents_fall (f : Fsel) (out : Word) :
    latchEvents f (outAfter out 24 .high) (outAfter (outAfter out 24 .high) 24 .low) =
      if lcdPinsDriven f then [latchOf (outAfter (outAfter out 24 .high) 24 .low)] else [] := by
  have hhigh : (outAfter out 24 .high).getLsbD 24 = true := getLsbD_outAfter _ _ _ (by decide)
  have hlow : (outAfter (outAfter out 24 .high) 24 .low).getLsbD 24 = false := getLsbD_outAfter _ _ _ (by decide)
  rw [latchEvents, Config.lcdEn, hhigh, hlow]
  rfl

/-! ### A nibble (R182) -/

/-- `i` sends the nibble `n` for the context `x`: at label `l` of it `x` is at `here l`, and in the end at `after`. -/
def SendsNibble (i : Instr) (x : Ctx) (n : Nibble) (here : NibbleLabel → Upc) (after : Upc) : Prop :=
  ∀ (l : NibbleLabel) (w : Nat) (t0 : Option Nat) (s : State), s.Runs ((x.withDelay w t0).goto (here l)) →
    exec i s = nibbleAct n l here after ((x.withDelay w t0).goto (here l)) s

section Nibble

variable {i : Instr} {s : State} {x z : Ctx} {n : Nibble} {here : NibbleLabel → Upc} {after : Upc}
variable (h : SendsNibble i x n here after) (hz : s.me = some z) (hr : x.status = .running) (hb : x.between = .nothing)

include hz hr hb in
theorem runs_ran_goto (w now : Nat) (u : Upc) (o : Word) (es : List Event) (ls : List Latch) :
    (s.ran ((x.withDelay w none).goto u) now o es ls).Runs ((x.withDelay w none).goto u) :=
  runs_ran (x := (x.withDelay w none).goto u) hz hr hb now o es ls

include h hz hr hb

/-- A store of a nibble, in a run that has come to it (R182). -/
theorem SendsNibble.store {l : NibbleLabel} {u : Upc} {p : Nat} {v : Level}
    (hact : ∀ y r, nibbleAct n l here after y r = pinWrite p v r fun r => .next (r.putCtx (y.goto u)))
    (k w now : Nat) (o : Word) (es : List Event) (ls : List Latch) :
    solo i (k + 1) (s.ran ((x.withDelay w none).goto (here l)) now o es ls) =
      solo i k (s.ran ((x.withDelay w none).goto u) now (outAfter o p v)
        (es ++ [pinEvent s.cur now p v]) (ls ++ latchEvents s.fsel o (outAfter o p v))) := by
  have hruns := runs_ran_goto hz hr hb w now (here l) o es ls
  rw [solo_pinWrite hruns rfl ((h l w none _ hruns).trans (hact _ _)), State.ran_ran]
  rfl

/-- An EN hold of a nibble, in a run that has come to it (R182). -/
theorem SendsNibble.hold {l : NibbleLabel} {u : Upc}
    (hact : ∀ y r, nibbleAct n l here after y r = delayAct 1 y r fun y r => .next (r.putCtx (y.goto u)))
    (k w now : Nat) (o : Word) (es : List Event) (ls : List Latch) :
    solo i (k + 2) (s.ran ((x.withDelay w none).goto (here l)) now o es ls) =
      solo i k (s.ran ((x.withDelay (now + 1) none).goto u) (now + 1) o
        (es ++ [.dly s.cur 1 now (now + 1)]) ls) := by
  have hruns := runs_ran_goto hz hr hb w now (here l) o es ls
  rw [solo_delayAct hruns rfl fun r w t0 hrun => (h l w t0 r hrun).trans (hact _ _), State.ran_ran, List.append_nil]
  rfl

/-- A nibble, in a run that has come to it: ten steps and two microseconds (R182). -/
theorem SendsNibble.run (k w now : Nat) (o : Word) (es : List Event) (ls : List Latch) :
    solo i (k + 10) (s.ran ((x.withDelay w none).goto (here .n0)) now o es ls) =
      solo i k (s.ran ((x.withDelay (now + 2) none).goto after) (now + 2) (outAfterNibble o n)
        (es ++ nibbleEvents s.cur now n) (ls ++ nibbleLatches s.fsel o n)) := by
  rw [h.store hz hr hb (l := .n0) (u := here .n1) fun _ _ => rfl,
    h.store hz hr hb (l := .n1) (u := here .n2) fun _ _ => rfl,
    h.store hz hr hb (l := .n2) (u := here .n3) fun _ _ => rfl,
    h.store hz hr hb (l := .n3) (u := here .n4) fun _ _ => rfl,
    h.store hz hr hb (l := .n4) (u := here .n5) fun _ _ => rfl,
    h.hold hz hr hb (l := .n5) (u := here .n6) fun _ _ => rfl,
    h.store hz hr hb (l := .n6) (u := here .n7) fun _ _ => rfl,
    h.hold hz hr hb (l := .n7) (u := after) fun _ _ => rfl]
  simp [Config.lcdD4, Config.lcdD5, Config.lcdD6, Config.lcdD7, Config.lcdEn, latchEvents_of_ne, latchEvents_rise,
    latchEvents_fall, outAfterNibble, withLines, nibbleEvents, nibbleLatches]

end Nibble

end Sys2Proof.Machine

/-! SUPPORT. A byte of the display's bus as a run, and the LCD operations that send one byte (R183, R189 to R195). -/

namespace Sys2Proof.Machine

/-! ### The latch word and the latch events of a byte (R84, R186) -/

theorem toBool_nibbleLine (n : Nibble) (j : Nat) : (nibbleLine n j).toBool = n.getLsbD j := by
  unfold nibbleLine levelOfBool
  cases n.getLsbD j <;> rfl

/-- The latch after a nibble, bit by bit (R182). -/
theorem getLsbD_outAfterNibble (out : Word) (n : Nibble) {j : Nat} (hj : j < 32) :
    (outAfterNibble out n).getLsbD j =
      if j = 24 then false else if j = 22 then n.getLsbD 3 else if j = 27 then n.getLsbD 2
      else if j = 10 then n.getLsbD 1 else if j = 23 then n.getLsbD 0 else out.getLsbD j := by
  simp only [outAfterNibble, withLines, getLsbD_outAfter _ _ _ hj, toBool_nibbleLine]
  by_cases h24 : j = 24
  · simp [h24, Level.toBool]
  · simp only [if_neg h24]

/-- A latch line, as a bit of the nibble that the display samples (R84). -/
theorem getLsbD_lineBit (out : Word) (p : Nat) {i j : Nat} (hi : i < 4) (hj : j < 4) :
    (lineBit out p i).getLsbD j = if j = i then out.getLsbD p else false := by
  simp only [lineBit, BitVec.getLsbD_shiftLeft, BitVec.getLsbD_setWidth, BitVec.getLsbD_extractLsb']
  by_cases h : j = i
  · subst h
    simp [hj]
  · by_cases hlt : j < i
    · simp [h, hlt]
    · have hpos : ¬ (j - i < 1) := by omega
      simp [h, hpos]

/-- What the display samples at the end of a nibble: RS as it stands, and the nibble (R182, R186). -/
theorem latchOf_outAfterNibble (out : Word) (n : Nibble) :
    latchOf (outAfterNibble out n) = { rs := out.extractLsb' 25 1, nibble := n } := by
  have hrs : (outAfterNibble out n).extractLsb' 25 1 = out.extractLsb' 25 1 := by
    apply BitVec.eq_of_getLsbD_eq
    intro j hj
    obtain rfl : j = 0 := by omega
    simp only [BitVec.getLsbD_extractLsb', getLsbD_outAfterNibble _ _ (show 25 + 0 < 32 by decide)]
    rfl
  have hnibble : lineBit (outAfterNibble out n) 22 3 ||| lineBit (outAfterNibble out n) 27 2 |||
      lineBit (outAfterNibble out n) 10 1 ||| lineBit (outAfterNibble out n) 23 0 = n := by
    apply BitVec.eq_of_getLsbD_eq
    intro j hj
    simp only [BitVec.getLsbD_or, getLsbD_lineBit _ _ _ hj, getLsbD_outAfterNibble _ _ (show 22 < 32 by decide),
      getLsbD_outAfterNibble _ _ (show 27 < 32 by decide), getLsbD_outAfterNibble _ _ (show 10 < 32 by decide),
      getLsbD_outAfterNibble _ _ (show 23 < 32 by decide), Nat.reduceLT]
    interval_cases j <;> simp
  exact congrArg₂ Latch.mk hrs hnibble

/-- The RS line as a bit of the latch (R84). -/
def rsBit (rs : Rs) : BitVec 1 := if rs = .data then 1#1 else 0#1

theorem extractLsb'_rs (out : Word) (rs : Rs) : (outAfter out 25 (rsLevel rs)).extractLsb' 25 1 = rsBit rs := by
  apply BitVec.eq_of_getLsbD_eq
  intro j hj
  obtain rfl : j = 0 := by omega
  simp only [BitVec.getLsbD_extractLsb', getLsbD_outAfter _ _ _ (show 25 + 0 < 32 by decide)]
  cases rs <;> rfl

theorem extractLsb'_rs_outAfterNibble (out : Word) (n : Nibble) :
    (outAfterNibble out n).extractLsb' 25 1 = out.extractLsb' 25 1 :=
  congrArg Latch.rs (latchOf_outAfterNibble out n)

/-- The two latch events of a byte, if the display's pins are driven (R183, R186). -/
def drivenLatches (f : Fsel) (rs : Rs) (b : Byte) : List Latch := if lcdPinsDriven f then byteLatches rs b else []

theorem drivenLatches_eq (f : Fsel) (out : Word) (rs : Rs) (b : Byte) :
    nibbleLatches f (outAfter out 25 (rsLevel rs)) (highNibble b) ++
        nibbleLatches f (outAfterNibble (outAfter out 25 (rsLevel rs)) (highNibble b)) (lowNibble b) =
      drivenLatches f rs b := by
  unfold nibbleLatches drivenLatches
  split
  · rw [latchOf_outAfterNibble, latchOf_outAfterNibble, extractLsb'_rs_outAfterNibble, extractLsb'_rs]
    rfl
  · rfl

/-- The latch after a byte: the high nibble leaves no trace (R183). -/
theorem outAfterByte_eq (out : Word) (rs : Rs) (b : Byte) :
    outAfterNibble (outAfterNibble (outAfter out 25 (rsLevel rs)) (highNibble b)) (lowNibble b) =
      outAfterByte out rs b := by
  apply BitVec.eq_of_getLsbD_eq
  intro j hj
  simp only [getLsbD_outAfterNibble _ _ hj, outAfterByte, getLsbD_outAfter _ _ _ hj, toBool_nibbleLine]
  grind [Level.toBool]

theorem lcdPinsDriven_of_lcdDriven {s : State} (h : s.LcdDriven) : lcdPinsDriven s.fsel = true := by
  simp only [State.LcdDriven, lcdPins, List.forall_mem_cons] at h
  obtain ⟨h25, h24, h23, h10, h27, h22, -⟩ := h
  simp [lcdPinsDriven, Config.lcdRs, Config.lcdEn, Config.lcdD4, Config.lcdD5, Config.lcdD6, Config.lcdD7, *]

/-! ### A byte (R183) -/

/-- `x` runs the operation `i` and is at label `y` of sending the byte `b` with RS `rs`. -/
def Ctx.Sends (x : Ctx) (i : Instr) (rs : Rs) (b : Byte) (y : ByteLabel) : Prop :=
  x.operation = some i ∧ x.sendingByte = some (rs, b, y)

theorem atByte_atByte (u : Upc) (y y' : ByteLabel) : (u.atByte y).atByte y' = u.atByte y' := by
  cases u with
  | lcdinit l => cases l <;> rfl
  | lcdclear l => cases l <;> rfl
  | lcdcursor l => cases l <;> rfl
  | lcdstr l => cases l <;> rfl
  | lcdline l => cases l <;> rfl
  | lcdbyte l => cases l <;> rfl
  | _ => rfl

/-- Another label of the same byte, whatever the delay in progress. -/
theorem Ctx.Sends.at {x : Ctx} {i : Instr} {rs : Rs} {b : Byte} {y : ByteLabel} (h : x.Sends i rs b y)
    (w : Nat) (t0 : Option Nat) (y' : ByteLabel) :
    ((x.withDelay w t0).goto (x.upc.atByte y')).Sends i rs b y' := by
  obtain ⟨hop, hs⟩ := h
  refine ⟨?_, sendingByte_atByte (x := x.withDelay w t0) hs y'⟩
  unfold Ctx.sendingByte at hs
  split at hs
  case h_8 => cases hs
  all_goals
    rename_i hu
    simp only [Ctx.operation, hu, Upc.atByte, Ctx.goto] at hop ⊢
    exact hop

theorem Ctx.Sends.exec {x : Ctx} {i : Instr} {rs : Rs} {b : Byte} {y : ByteLabel} (h : x.Sends i rs b y) {s : State}
    (hx : s.Runs x) : exec i s = byteAct rs b y x s :=
  exec_of_sendsBy hx h.2 (.inl h.1)

theorem shadowUpdate_putCtx (s : State) (x : Ctx) (rs : Rs) (b : Byte) :
    (s.shadowUpdate rs b).putCtx x = (s.putCtx x).shadowUpdate rs b := by
  unfold State.shadowUpdate
  rw [State.putCtx_lcdState]
  split <;> rfl

theorem me_shadowUpdate (s : State) (rs : Rs) (b : Byte) : (s.shadowUpdate rs b).me = s.me := by
  simp [State.me]

theorem runs_shadowUpdate {s : State} {x : Ctx} (h : s.Runs x) (rs : Rs) (b : Byte) : (s.shadowUpdate rs b).Runs x := by
  rwa [State.Runs, me_shadowUpdate]

theorem waited_ran (s : State) (x : Ctx) (now d : Nat) (o : Word) (es : List Event) (ls : List Latch) :
    (s.ran x now o es ls).waited d = s.ran x (now + d) o (es ++ [.dly s.cur d now (now + d)]) ls := by
  simp [State.ran, State.waited]

@[simp] theorem State.ran_putCtx (s : State) (x y : Ctx) (now : Nat) (o : Word) (es : List Event) (ls : List Latch) :
    (s.ran x now o es ls).putCtx y = s.ran y now o es ls := by
  simp [State.ran, State.putCtx]

@[simp] theorem State.putCtx_ran (s : State) (x y : Ctx) (now : Nat) (o : Word) (es : List Event) (ls : List Latch) :
    (s.putCtx y).ran x now o es ls = s.ran x now o es ls := by
  simp [State.ran, State.putCtx]

section Byte

variable {i : Instr} {s : State} {x : Ctx} {rs : Rs} {b : Byte} {y : ByteLabel} (h : x.Sends i rs b y)

include h

/-- The high nibble of a byte is sent first (R183). -/
theorem Ctx.Sends.high : SendsNibble i x (highNibble b) (fun l => x.upc.atByte (.high l)) (x.upc.atByte (.low .n0)) := by
  intro l w t0 s hx
  rw [(h.at w t0 (.high l)).exec hx]
  simp only [byteAct, Ctx.goto_upc, atByte_atByte]

/-- The low nibble of a byte follows the high one (R183). -/
theorem Ctx.Sends.low : SendsNibble i x (lowNibble b) (fun l => x.upc.atByte (.low l)) (x.upc.atByte .y1) := by
  intro l w t0 s hx
  rw [(h.at w t0 (.low l)).exec hx]
  simp only [byteAct, Ctx.goto_upc, atByte_atByte]

/-- The execution wait of a byte, in a run that has come to it (R183, R184, R199). -/
theorem Ctx.Sends.wait {z : Ctx} (hz : s.me = some z) (hr : x.status = .running) (hb : x.between = .nothing)
    (k w now : Nat) (o : Word) (es : List Event) (ls : List Latch) :
    solo i (k + 2) (s.ran ((x.withDelay w none).goto (x.upc.atByte .y1)) now o es ls) =
      solo i k ((s.ran ((x.withDelay (now + byteWait rs b) none).goto (x.upc.atByte .y1)).byteDone
        (now + byteWait rs b) o (es ++ [.dly s.cur (byteWait rs b) now (now + byteWait rs b)]) ls).shadowUpdate
          rs b) := by
  have hends (r : State) (w' : Nat) (t0 : Option Nat)
      (hrun : r.Runs (((x.withDelay w none).goto (x.upc.atByte .y1)).withDelay w' t0)) :
      DelayRule i (((x.withDelay w none).goto (x.upc.atByte .y1)).withDelay w' t0) r (byteWait rs b)
        fun r => (r.shadowAfter rs b).putCtx ((x.withDelay w' none).goto (x.upc.atByte .y1)).byteDone :=
    have hy1 := h.at w' t0 .y1
    byteEnds i r _ rs b hrun hy1.2 (.inl hy1.1)
  rw [solo_delay (runs_ran_goto hz hr hb _ _ _ _ _ _) rfl
    (fin := fun y r => (r.shadowAfter rs b).putCtx (y.withDelay y.wake none).byteDone) hends]
  change solo i k ((State.shadowUpdate _ rs b).putCtx _) = _
  rw [shadowUpdate_putCtx, State.putCtx_putCtx, waited_ran, State.ran_putCtx]
  rfl

/-- A byte, as a run of twenty-three steps: the context goes on to what its operation does after the byte (R183, R199). -/
theorem Ctx.Sends.run (h0 : y = .y0) (hx : s.Runs x) (hd : x.delayFrom = none) {now : Nat}
    (hnow : now = s.now + 4 + byteWait rs b) (k : Nat) :
    solo i (k + 23) s =
      solo i k ((s.ran ((x.withDelay now none).goto (x.upc.atByte .y1)).byteDone now (outAfterByte s.out rs b)
        (byteEvents s.cur s.now rs b) (drivenLatches s.fsel rs b)).shadowUpdate rs b) := by
  subst h0 hnow
  obtain ⟨hr, hb⟩ := hx.fields
  obtain ⟨z, hz, -⟩ := id hx
  have hfirst : x.goto (x.upc.atByte (.high .n0)) = (x.withDelay x.wake none).goto (x.upc.atByte (.high .n0)) := by
    rw [Ctx.withDelay, ← hd]
  have hevents : [pinEvent s.cur s.now 25 (rsLevel rs)] ++ nibbleEvents s.cur s.now (highNibble b) ++
      nibbleEvents s.cur (s.now + 2) (lowNibble b) ++
        [.dly s.cur (byteWait rs b) (s.now + 4) (s.now + 4 + byteWait rs b)] = byteEvents s.cur s.now rs b := by
    rw [byteWait_eq_execWait]
    rfl
  rw [solo_pinWrite hx hd (u := x.upc.atByte (.high .n0)) (h.exec hx), hfirst, h.high.run hz hr hb,
    h.low.run hz hr hb, h.wait hz hr hb]
  simp only [Config.lcdRs, latchEvents_of_ne s.fsel s.out (show 25 ≠ 24 by decide), List.nil_append, drivenLatches_eq,
    outAfterByte_eq, hevents]

end Byte

end Sys2Proof.Machine

/-! PROOFS. The LCD operations that send one byte, run alone from hand-over to `Return` (R87, R189 to R195). -/

namespace Sys2Proof.Machine

/-! ### `Release` and `Return` of the operations that need Ready (R181) -/

/-- `Release` by the context that holds the lock (R181). -/
theorem exec_lcdRelease {i : Instr} {s : State} {x : Ctx} {u : Upc} (hx : s.Runs x)
    (hu : lcdAt i .release = some x.upc) (hret : lcdAt i .ret = some u) (hlock : s.lock = .held s.cur) :
    exec i s = .next
      (({ s with lock := .free, hist := s.hist ++ [.rel s.cur s.now] } : State).putCtx (x.goto u)) := by
  rw [exec_of_lcdAt hx hu]
  rcases lcdAt_cases hu with
    ⟨rfl, hupc⟩ | ⟨_, _, rfl, hupc⟩ | ⟨_, rfl, hupc⟩ | ⟨_, _, rfl, hupc⟩ | ⟨_, _, rfl, hupc⟩
  all_goals
    cases hret
    simp only [runningAct, hupc, lcdAct, releaseAct, hlock, if_true]
    rfl

/-- `Return` ends the operation (R9, R91). -/
theorem exec_lcdReturn {i : Instr} {s : State} {x : Ctx} (hx : s.Runs x) (hu : lcdAt i .ret = some x.upc) :
    exec i s = .next (s.returned x) := by
  rw [exec_of_lcdAt hx hu]
  rcases lcdAt_cases hu with
    ⟨rfl, hupc⟩ | ⟨_, _, rfl, hupc⟩ | ⟨_, rfl, hupc⟩ | ⟨_, _, rfl, hupc⟩ | ⟨_, _, rfl, hupc⟩
  all_goals simp only [runningAct, hupc, lcdAct, returnAct_none]

/-! ### Into the critical region and out of it (R189, R190) -/

/-- The state once the executing context has taken the lock (R180). -/
def State.locked (s : State) : State :=
  { s with lock := .held s.cur, hist := s.hist ++ [.acq s.cur s.now] }

@[simp] theorem State.locked_ctxs (s : State) : s.locked.ctxs = s.ctxs := rfl
@[simp] theorem State.locked_lock (s : State) : s.locked.lock = .held s.cur := rfl
@[simp] theorem State.locked_hist (s : State) : s.locked.hist = s.hist ++ [.acq s.cur s.now] := rfl
@[simp] theorem State.locked_lcdState (s : State) : s.locked.lcdState = s.lcdState := rfl
@[simp] theorem State.locked_latches (s : State) : s.locked.latches = s.latches := rfl
@[simp] theorem State.locked_fsel (s : State) : s.locked.fsel = s.fsel := rfl
@[simp] theorem State.locked_cur (s : State) : s.locked.cur = s.cur := rfl

/-- The state once the executing context has given the lock back and returned (R181, R9). -/
def State.unlocked (s : State) : State :=
  { s with lock := .free, hist := s.hist ++ [.rel s.cur s.now, .ret s.cur s.now none] }

@[simp] theorem State.unlocked_lock (s : State) : s.unlocked.lock = .free := rfl
@[simp] theorem State.unlocked_hist (s : State) :
    s.unlocked.hist = s.hist ++ [.rel s.cur s.now, .ret s.cur s.now none] := rfl
@[simp] theorem State.unlocked_now (s : State) : s.unlocked.now = s.now := rfl
@[simp] theorem State.unlocked_out (s : State) : s.unlocked.out = s.out := rfl
@[simp] theorem State.unlocked_lcdState (s : State) : s.unlocked.lcdState = s.lcdState := rfl
@[simp] theorem State.unlocked_latches (s : State) : s.unlocked.latches = s.latches := rfl
@[simp] theorem State.unlocked_fsel (s : State) : s.unlocked.fsel = s.fsel := rfl

/-- Nothing is left to compute before the `Acquire` of an operation that needs Ready (R10, R189). -/
theorem between_handed {i : Instr} {l : LcdLabel} {u : Upc} (h : lcdAt i l = some u) (x : Ctx) :
    (x.handed i).between = .nothing := by
  rcases lcdAt_cases h with ⟨rfl, -⟩ | ⟨_, _, rfl, -⟩ | ⟨_, rfl, -⟩ | ⟨_, _, rfl, -⟩ | ⟨_, _, rfl, -⟩ <;> rfl

/-- An operation that needs Ready, alone, from its hand-over to its first action inside the lock (R93, R189). -/
theorem solo_enter {i : Instr} {s : State} {x : Ctx} (hs : s.Starts x) (hfree : s.lock = .free)
    (hready : s.lcdState = .ready) (hreq : isRequest i = true) (hok : s.refusalOf i = none)
    (hat : lcdAt i .acquire = some (firstUpc i)) (n : Nat) :
    solo i (n + 2) s = solo i n (s.locked.putCtx ((x.handed i).afterAcquire i)) ∧
      (s.locked.putCtx ((x.handed i).afterAcquire i)).me = some ((x.handed i).afterAcquire i) := by
  obtain ⟨hx, hidle, hnodelay, -⟩ := hs
  obtain ⟨hrun, hupc, hdelay, -⟩ := handed_fields x i hreq
  have hhanded : exec i s = .next (s.putCtx (x.handed i)) := handOverLoadsOperands i s x hx hidle hreq hok
  have hruns : (s.putCtx (x.handed i)).Runs (x.handed i) :=
    ⟨_, me_putCtx hx _, hrun, (Ctx.computed_of_nothing (between_handed hat x)).symm⟩
  have hacquires := (lcdAcquires i _ _ hruns (hupc ▸ hat)).2.1 hfree hready
  refine ⟨?_, me_putCtx (s := s.locked) hx _⟩
  rw [solo_step hx hnodelay hhanded, solo_action hruns hdelay hacquires]
  exact congrArg (solo i n) (State.putCtx_putCtx s.locked _ _)

/-- An operation that needs Ready, alone, from its `Release` to its end (R181). -/
theorem solo_leave {i : Instr} {s : State} {x : Ctx} {u : Upc} (hx : s.Runs x) (hd : x.delayFrom = none)
    (hu : lcdAt i .release = some x.upc) (hret : lcdAt i .ret = some u) (hlock : s.lock = .held s.cur) :
    solo i 2 s = .next (s.unlocked.putCtx (x.finished 0#32)) := by
  obtain ⟨hr, hb⟩ := hx.fields
  have hruns : (({ s with lock := .free, hist := s.hist ++ [.rel s.cur s.now] } : State).putCtx (x.goto u)).Runs
      (x.goto u) := runs_of_set hx rfl rfl hr hb
  rw [solo_action hx hd (exec_lcdRelease hx hu hret hlock), solo_action hruns hd (exec_lcdReturn hruns hret)]
  simp [solo, State.returned, State.unlocked, State.putCtx, Ctx.finished, Ctx.goto]

/-! ### The operations of one byte (R191, R192, R195) -/

/-- The byte, with its RS, of an LCD operation that sends exactly one (R191, R192, R195). -/
def singleByte : Instr → Option (Rs × Byte)
  | .lcdclear => some (.command, 0x01#8)
  | .lcdcursor r c => some (.command, cursorByte r c)
  | .lcdbyte rs b => some (rs, b)
  | _ => none

theorem singleByte_cases {i : Instr} {rs : Rs} {b : Byte} (h : singleByte i = some (rs, b)) :
    (i = .lcdclear ∧ rs = .command ∧ b = 0x01#8) ∨
      (∃ r c, i = .lcdcursor r c ∧ rs = .command ∧ b = cursorByte r c) ∨ i = .lcdbyte rs b := by
  cases i <;> cases h
  · exact .inl ⟨rfl, rfl, rfl⟩
  · exact .inr (.inl ⟨_, _, rfl, rfl, rfl⟩)
  · exact .inr (.inr rfl)

/-- An operation of one byte is a request, and `mk` places a context at its labels (R94, R189). -/
theorem singleByte_labels {i : Instr} {r : Rs × Byte} (h : singleByte i = some r) :
    isRequest i = true ∧ ∃ mk : LcdLabel → Upc, (∀ l, lcdAt i l = some (mk l)) ∧ firstUpc i = mk .acquire ∧
      (∀ x : Ctx, x.afterAcquire i = x.goto (mk (.single .y0))) ∧
      (∀ y y', (mk (.single y)).atByte y' = mk (.single y')) ∧
      ∀ (x : Ctx) y, (x.goto (mk (.single y))).byteDone = x.goto (mk .release) := by
  rcases singleByte_cases h with ⟨rfl, -⟩ | ⟨_, _, rfl, -⟩ | rfl
  · exact ⟨rfl, .lcdclear, fun _ => rfl, rfl, fun _ => rfl, fun _ _ => rfl, fun _ _ => rfl⟩
  · exact ⟨rfl, .lcdcursor, fun _ => rfl, rfl, fun _ => rfl, fun _ _ => rfl, fun _ _ => rfl⟩
  · exact ⟨rfl, .lcdbyte, fun _ => rfl, rfl, fun _ => rfl, fun _ _ => rfl, fun _ _ => rfl⟩

theorem rs_of_toByte {x : Ctx} {rs : Rs} (h : x.a = rs.toByte) : x.rs = rs := by
  rw [Ctx.rs, h]
  cases rs <;> rfl

/-- LCDBYTE sends the byte that its registers hold (R195). -/
theorem sends_lcdbyte {x : Ctx} {rs : Rs} {b : Byte} {y : ByteLabel} (ha : x.a = rs.toByte) (hc : x.c = b)
    (hu : x.upc = .lcdbyte (.single y)) : x.Sends (.lcdbyte rs b) rs b y := by
  simp only [Ctx.Sends, Ctx.operation, Ctx.sendingByte, hu, rs_of_toByte ha, hc, and_self]

/-- After its hand-over and its `Acquire` an operation of one byte is at the first action of that byte. -/
theorem sends_singleByte {i : Instr} {rs : Rs} {b : Byte} (h : singleByte i = some (rs, b)) (x : Ctx) :
    ((x.handed i).afterAcquire i).Sends i rs b .y0 := by
  rcases singleByte_cases h with ⟨rfl, rfl, rfl⟩ | ⟨r, c, rfl, rfl, rfl⟩ | rfl
  · exact ⟨rfl, rfl⟩
  · rw [Ctx.handed_pack x rfl]
    exact ⟨rfl, rfl⟩
  · rw [Ctx.handed_pack x rfl]
    exact sends_lcdbyte rfl rfl rfl

/-- An operation of one byte, run alone: 27 steps, and the state they leave (R183, R190). -/
theorem solo_singleByte {i : Instr} {rs : Rs} {b : Byte} {s : State} {x : Ctx} {t1 : Nat}
    (h : singleByte i = some (rs, b)) (hs : s.Starts x) (hok : s.refusalOf i = none) (hfree : s.lock = .free)
    (hready : s.lcdState = .ready) (ht1 : t1 = s.now + 4 + byteWait rs b) :
    ∃ y z : Ctx, z.status = .idle ∧ z.response = some 0#32 ∧
      solo i 27 s = .next
        (((s.locked.ran y t1 (outAfterByte s.out rs b) (byteEvents s.cur s.now rs b)
          (drivenLatches s.fsel rs b)).shadowUpdate rs b).unlocked.putCtx z) := by
  obtain ⟨hreq, mk, hat, hfirst, hacquired, hatByte, hdone⟩ := singleByte_labels h
  have hsends := sends_singleByte h x
  obtain ⟨henter, hme⟩ := solo_enter hs hfree hready hreq hok (by rw [hat, hfirst]) 25
  obtain ⟨hrun, -, hdelay, -⟩ := handed_fields x i hreq
  have hbetween := between_handed (hat .acquire) x
  have hbegun : ((x.handed i).goto (mk (.single .y0))).computed = (x.handed i).goto (mk (.single .y0)) :=
    Ctx.computed_of_nothing hbetween
  rw [hacquired] at hsends henter hme
  have hbyte := hsends.run rfl ⟨_, hme, hrun, hbegun.symm⟩ hdelay (now := t1) ht1 2
  have hsent : ((((x.handed i).goto (mk (.single .y0))).withDelay t1 none).goto (mk (.single .y1))).byteDone =
      ((x.handed i).withDelay t1 none).goto (mk .release) := hdone _ _
  rw [Ctx.goto_upc, hatByte, hsent, State.putCtx_ran] at hbyte
  have hruns : ((s.locked.ran (((x.handed i).withDelay t1 none).goto (mk .release)) t1 (outAfterByte s.out rs b)
      (byteEvents s.cur s.now rs b) (drivenLatches s.fsel rs b)).shadowUpdate rs b).Runs
      (((x.handed i).withDelay t1 none).goto (mk .release)) :=
    runs_shadowUpdate (runs_ran_goto (s := s.locked) hs.1 hrun hbetween _ _ _ _ _ _) rs b
  have hleave := solo_leave hruns rfl (hat .release) (hat .ret) (by simp [State.ran])
  exact ⟨_, _, rfl, rfl, (henter.trans hbyte).trans hleave⟩

/-- What an operation of one byte does, run alone: the events and the latch events of its byte between `Acquire` and
`Release`, and the answer 0 (R183, R184, R190). -/
def State.RunsByte (s : State) (i : Instr) (rs : Rs) (b : Byte) : Prop :=
  ∃ (t : State) (t1 : Nat), solo i 27 s = .next t ∧ t1 = s.now + 4 + byteWait rs b ∧ t.now = t1 ∧
    t.hist = s.hist ++ [.acq s.cur s.now] ++ byteEvents s.cur s.now rs b ++
      [.rel s.cur t1, .ret s.cur t1 none] ∧
    (s.LcdDriven → t.latches = s.latches ++ byteLatches rs b) ∧ t.out = outAfterByte s.out rs b ∧
    t.lock = .free ∧ t.lcdState = .ready ∧ t.fsel = s.fsel ∧ t.Answered 0#32

/-- An operation of one byte that is not refused, from its hand-over in a display that is Ready and not in use. -/
theorem singleByteRun {i : Instr} {rs : Rs} {b : Byte} {s : State} {x : Ctx} (h : singleByte i = some (rs, b))
    (hs : s.Starts x) (hok : s.refusalOf i = none) (hfree : s.lock = .free) (hready : s.lcdState = .ready) :
    s.RunsByte i rs b := by
  obtain ⟨y, z, hidle, hresponse, hrun⟩ := solo_singleByte h hs hok hfree hready rfl
  refine ⟨_, _, hrun, rfl, ?now, ?hist, fun hdriven => ?latches, ?out, ?lock, ?lcdState, ?fsel, z, ?me, hidle, hresponse⟩
  case latches => simp [State.ran, drivenLatches, lcdPinsDriven_of_lcdDriven hdriven]
  case me =>
    have hme : (s.locked.ran y (s.now + 4 + byteWait rs b) (outAfterByte s.out rs b) (byteEvents s.cur s.now rs b)
        (drivenLatches s.fsel rs b)).me = some y := me_putCtx (s := s.locked) hs.1 y
    rw [← me_shadowUpdate _ rs b] at hme
    exact me_putCtx (s := State.unlocked _) hme z
  case lcdState => simpa [State.ran] using hready
  all_goals simp [State.ran]

/-! ### LCDCLEAR and LCDCURSOR (R87, R191, R192) -/

/-- The command byte of a cursor address below 0x80 is 0x80 and the address (R87). -/
theorem toNat_cursorByte {r c : Byte} (h : (rowOffset r).toNat + c.toNat < 128) :
    (cursorByte r c).toNat = 0x80 + (rowOffset r).toNat + c.toNat := by
  have hadd : (rowOffset r + c).toNat = (rowOffset r).toNat + c.toNat := by
    rw [BitVec.toNat_add, Nat.mod_eq_of_lt (by omega)]
  have hor := Nat.two_pow_add_eq_or_of_lt (i := 7) h 1
  rw [cursorByte, BitVec.toNat_or, hadd, Nat.add_assoc]
  exact hor.symm

/-- LCDCURSOR inside its ranges is accepted by a Mapped block (R192, R227, R228). -/
theorem refusalOf_lcdcursor {s : State} {r c : Byte} (hmap : s.mapState = .mapped) (hr : r.toNat ≤ 1)
    (hc : c.toNat < s.lcdCols) : s.refusalOf (.lcdcursor r c) = none := by
  rw [← firstFailure_cursor]
  simp [firstFailure, firstFailure_cons, mappedTest, rowTest, colTest, hmap, hr, hc]

theorem refusalOf_lcdclear {s : State} (hmap : s.mapState = .mapped) : s.refusalOf .lcdclear = none := by
  simp [State.refusalOf, hmap, pinRange, rowOperand, colOperand]

/-- LCDCURSOR inside its ranges, run alone, sends the command byte of its row and column (R192). -/
theorem lcdcursorRun {r c b : Byte} {s : State} {x : Ctx} (hs : s.Starts x) (hfree : s.lock = .free)
    (hready : s.lcdState = .ready) (hr : r.toNat ≤ 1) (hc : c.toNat < s.lcdCols)
    (haddr : (rowOffset r).toNat + c.toNat < 128) (hb : b.toNat = 0x80 + (rowOffset r).toNat + c.toNat) :
    s.RunsByte (.lcdcursor r c) .command b := by
  obtain ⟨-, -, -, hmap⟩ := id hs
  have hbyte : cursorByte r c = b := BitVec.eq_of_toNat_eq ((toNat_cursorByte haddr).trans hb.symm)
  exact singleByteRun (by rw [singleByte, hbyte]) hs (refusalOf_lcdcursor hmap hr hc) hfree hready

/-- Settles O43: each is an operation of one byte, and the byte is the one of its row and column. -/
theorem lcdCommandRuns : Obligations.LcdCommandRuns := by
  intro i b s x hs hfree hready hi
  obtain ⟨-, -, -, hmap⟩ := id hs
  rcases hi with ⟨rfl, rfl⟩ | ⟨c, rfl, hc, hcols, hb⟩ | ⟨c, rfl, hc, hcols, hb⟩
  · exact singleByteRun rfl hs (refusalOf_lcdclear hmap) hfree hready
  · have hrow : (rowOffset 0#8).toNat = 0 := rfl
    exact lcdcursorRun hs hfree hready (by decide) hc (by omega) (by omega)
  · have hrow : (rowOffset 1#8).toNat = 0x40 := rfl
    exact lcdcursorRun hs hfree hready (by decide) hc (by omega) (by omega)

end Sys2Proof.Machine

/-! PROOFS. The Register Mapper: the actions of MAPOPEN, MAPCLOSE and SHUTDOWN, and SHUTDOWN run alone (R120 to R122,
R283). -/

namespace Sys2Proof.Machine

/-! ### MAPOPEN (R120, R220 to R225) -/

/-- Opening that succeeds maps an Unmapped block (R120). -/
theorem mapopenAct_ok {s : State} (hs : s.mapState = .unmapped) (ho : s.openOutcome = .ok) (x : Ctx) :
    mapopenAct x s = .next (({ s with mapState := .mapped } : State).returned x) := by
  rw [mapopenAct, if_pos hs, ho]
  rfl

/-- Opening that fails raises its error, with that error's status in the response (R120, R220, R224). -/
theorem mapopenAct_fails {s : State} {e : InitError} (hs : s.mapState = .unmapped) (ho : s.openOutcome = .fails e)
    (x : Ctx) :
    mapopenAct x s =
      .next (({ s with mapState := .failed e, hist := s.hist ++ [.err s.cur s.now e] } : State).putCtx
        (x.finished (responseWord (errorCode e) 0#1))) := by
  have hraises : mapopenAct x s = raiseInitError e x s := by rw [mapopenAct, if_pos hs, ho]
  exact hraises

/-- A block that is no longer Unmapped is not opened again (R120, R225). -/
theorem mapopenAct_again {s : State} (hs : s.mapState ≠ .unmapped) (x : Ctx) :
    mapopenAct x s = .next (s.putCtx (x.refusedFor .alreadyOpened)) := by
  rw [mapopenAct, if_neg hs]
  rfl

/-- Settles O20: MAPOPEN's action by `map_state` and by the outcome of opening. -/
theorem mapopenActs : Obligations.MapopenActs := by
  intro s x hx hu
  have hact : exec .mapopen s = mapopenAct x s := by
    rw [exec_of_operation hx (by simp only [Ctx.operation, hu])]
    simp only [runningAct, hu]
  rw [hact]
  exact ⟨fun hs ho => mapopenAct_ok hs ho x, fun hs ho => mapopenAct_fails hs ho x,
    fun hs ho => mapopenAct_fails hs ho x, fun hs => mapopenAct_again hs x⟩

/-! ### The closing action (R121, R122) -/

/-- With every other context Idle and the lock Free the closing action releases the block (R121). -/
theorem closeAct_released {s : State} (hidle : s.OthersIdle) (hfree : s.lock = .free) (x : Ctx) :
    closeAct x s = .next (({ s with mapState := .released } : State).returned x) := by
  rw [closeAct, (othersIdle_iff s).2 hidle, decide_eq_true hfree]
  rfl

/-- The closing action is refused while another context is busy or the lock is taken (R121). -/
theorem closeAct_refused {s : State} (hbusy : ¬(s.OthersIdle ∧ s.lock = .free)) (x : Ctx) :
    closeAct x s = .next (s.putCtx (x.refusedFor .closeWhileBusy)) := by
  have htest : ¬(othersIdle s && decide (s.lock = .free)) = true := by
    rwa [Bool.and_eq_true, othersIdle_iff, decide_eq_true_iff]
  rw [closeAct, if_neg htest]
  rfl

/-- A Running context at a label of SHUTDOWN takes SHUTDOWN's action there. -/
theorem exec_shutdown {s : State} {x : Ctx} {l : ShutdownLabel} (hx : s.Runs x) (hu : x.upc = .shutdown l) :
    exec .shutdown s = shutdownAct l x s := by
  rw [exec_of_operation hx (by simp only [Ctx.operation, hu])]
  simp only [runningAct, hu]

/-- A Running context at MAPCLOSE's one label takes the closing action. -/
theorem exec_mapclose {s : State} {x : Ctx} (hx : s.Runs x) (hu : x.upc = .mapclose) :
    exec .mapclose s = closeAct x s := by
  rw [exec_of_operation hx (by simp only [Ctx.operation, hu])]
  simp only [runningAct, hu]

/-- Settles O21: MAPCLOSE and SHUTDOWN end in the same action, which releases the block or is refused. -/
theorem closingActs : Obligations.ClosingActs := by
  intro i s x hx hi
  have hact : exec i s = closeAct x s := by
    rcases hi with ⟨rfl, hu⟩ | ⟨rfl, hu⟩
    · exact exec_mapclose hx hu
    · exact exec_shutdown hx hu
  rw [hact]
  exact ⟨fun hidle hfree => closeAct_released hidle hfree x, fun hbusy => closeAct_refused hbusy x⟩

/-! ### The stores of SHUTDOWN (R122) -/

/-- Settles O22: each of the two stores drives its LED's pin low. -/
theorem shutdownStores : Obligations.ShutdownStores := by
  intro s x hx
  refine ⟨fun hu => ?green, fun hu => ?red⟩
  all_goals
    rw [exec_shutdown hx hu, shutdownAct, pinWrite_stored]
    rfl

/-! ### SHUTDOWN run alone (R122, R283) -/

/-- The latch after both LEDs are driven low (R122). -/
def outAfterLeds (out : Word) : Word := outAfter (outAfter out 26 .low) 5 .low

theorem getLsbD_outAfterLeds (out : Word) {i : Nat} (hi : i < 32) :
    (outAfterLeds out).getLsbD i = if i = 5 ∨ i = 26 then false else out.getLsbD i := by
  rw [outAfterLeds, getLsbD_outAfter _ _ _ hi, getLsbD_outAfter _ _ _ hi, ite_or]
  rfl

theorem ledsLow_of_out {t : State} {out : Word} (h : t.out = outAfterLeds out) : t.ledsLow = true := by
  rw [State.ledsLow, h, getLsbD_outAfterLeds _ (by decide), getLsbD_outAfterLeds _ (by decide)]
  rfl

/-- A write of the executing context leaves the others Idle (R121). -/
theorem State.OthersIdle.of_set {s t : State} {x : Ctx} (h : s.OthersIdle) (hctxs : t.ctxs = s.ctxs.set s.cur x)
    (hcur : t.cur = s.cur) : t.OthersIdle := by
  intro c y hc hy
  rw [hcur] at hc
  rw [hctxs, List.getElem?_set_ne (Ne.symm hc)] at hy
  exact h c y hc hy

/-- SHUTDOWN is accepted by a Mapped block (R227). -/
theorem refusalOf_shutdown {s : State} (hmap : s.mapState = .mapped) : s.refusalOf .shutdown = none := by
  simp [State.refusalOf, hmap, pinRange, rowOperand, colOperand]

/-- The state once the executing context `x` has driven both LEDs low and is at its closing action (R122). -/
def State.ledsDriven (s : State) (x : Ctx) : State :=
  s.ran (x.goto (.shutdown .a2)) s.now (outAfterLeds s.out)
    [pinEvent s.cur s.now 26 .low, pinEvent s.cur s.now 5 .low] []

/-- The two stores of SHUTDOWN as a run: neither pin is the display's EN, so the display latches nothing (R122, R186). -/
theorem solo_ledsDriven {s : State} {x : Ctx} (hx : s.Runs x) (hd : x.delayFrom = none) (hu : x.upc = .shutdown .a0)
    (n : Nat) : solo .shutdown (n + 2) s = solo .shutdown n (s.ledsDriven x) := by
  obtain ⟨hr, hb⟩ := hx.fields
  have hgreen := solo_pinWrite (p := 26) (l := .low) hx hd (exec_shutdown hx hu) (n + 1)
  rw [latchEvents_of_ne _ _ (by decide)] at hgreen
  have hx1 : (s.ran (x.goto (.shutdown .a1)) s.now (outAfter s.out 26 .low) [pinEvent s.cur s.now 26 .low] []).Runs
      (x.goto (.shutdown .a1)) := runs_of_set hx rfl rfl hr hb
  have hred := solo_pinWrite (p := 5) (l := .low) hx1 hd (exec_shutdown hx1 rfl) n
  rw [latchEvents_of_ne _ _ (by decide), State.ran_ran] at hred
  exact hgreen.trans hred

/-- SHUTDOWN, run alone from its first store, in a block that may be closed (R122). -/
theorem solo_shutdown_actions {s : State} {x : Ctx} (hx : s.Runs x) (hd : x.delayFrom = none)
    (hu : x.upc = .shutdown .a0) (hidle : s.OthersIdle) (hfree : s.lock = .free) :
    solo .shutdown 3 s = .next
      (({ s.ledsDriven x with mapState := .released } : State).returned (x.goto (.shutdown .a2))) := by
  obtain ⟨hr, hb⟩ := hx.fields
  have hruns : (s.ledsDriven x).Runs (x.goto (.shutdown .a2)) := runs_of_set hx rfl rfl hr hb
  have hothers : (s.ledsDriven x).OthersIdle := hidle.of_set (x := x.goto (.shutdown .a2)) rfl rfl
  have hclosed : exec .shutdown (s.ledsDriven x) = .next
      (({ s.ledsDriven x with mapState := .released } : State).returned (x.goto (.shutdown .a2))) :=
    (exec_shutdown hruns rfl).trans (closeAct_released hothers hfree _)
  rw [solo_ledsDriven hx hd hu, solo_action hruns hd hclosed]
  rfl

/-- SHUTDOWN, run alone from its hand-over (R93, R122). -/
theorem solo_shutdown {s : State} {x : Ctx} (hs : s.Starts x) (hidle : s.OthersIdle) (hfree : s.lock = .free) :
    solo .shutdown 4 s = .next
      (({ s.ledsDriven (x.handed .shutdown) with mapState := .released } : State).returned
        ((x.handed .shutdown).goto (.shutdown .a2))) := by
  obtain ⟨hx, hxidle, hnodelay, hmap⟩ := hs
  obtain ⟨hrun, hupc, hdelay, -⟩ := handed_fields x .shutdown rfl
  have hhanded := handOverLoadsOperands .shutdown s x hx hxidle rfl (refusalOf_shutdown hmap)
  have hruns : (s.putCtx (x.handed .shutdown)).Runs (x.handed .shutdown) := ⟨_, me_putCtx hx _, hrun, rfl⟩
  rw [solo_step hx hnodelay hhanded, solo_shutdown_actions hruns hdelay hupc (hidle.of_set rfl rfl) hfree]
  simp [State.ledsDriven]

/-- `Return()` answers 0 (R9, R91). -/
theorem answered_returned {s : State} {z : Ctx} (hz : s.me = some z) (x : Ctx) : (s.returned x).Answered 0#32 :=
  ⟨x.finished 0#32, me_putCtx (s := { s with hist := s.hist ++ [.ret s.cur s.now none] }) hz _, rfl, rfl⟩

/-- Settles O38: the state that the run leaves, field by field. -/
theorem shutdownRun : Obligations.ShutdownRun := by
  intro s x hs hidle hfree
  refine ⟨_, solo_shutdown hs hidle hfree, rfl, ledsLow_of_out rfl, fun k hk hgreen hred => ?bits, rfl, hfree, rfl,
    ?hist, answered_returned (me_putCtx hs.1 _) _⟩
  case bits =>
    have hother : ¬(k = 5 ∨ k = 26) := fun h => h.elim hred hgreen
    exact (getLsbD_outAfterLeds s.out hk).trans (if_neg hother)
  case hist => simp [State.returned, State.ledsDriven, State.ran, pinEvent]

end Sys2Proof.Machine

/-! PROOFS. The Pin Driver: the actions of SETMODE, WRITE and READ with their pass-throughs of the Façade, and SETMODE run
alone (R130 to R133, R150 to R152). -/

namespace Sys2Proof.Machine

/-! ### The instructions of the Pin Driver on a Running context (R150 to R152) -/

/-- SETMODE, and SETPINMODE with nothing added, on a Running context at a label of SETMODE (R130, R150). -/
theorem exec_setmodes {i : Instr} {p : Byte} {m : Mode} {s : State} {x : Ctx} {l : SetmodeLabel}
    (hi : i = .setmode p m ∨ i = .setpinmode p m) (hx : s.Runs x) (hu : x.upc = .setmode l) :
    exec i s = setmodeAct l x s := by
  have hpass : exec (.setpinmode p m) s = exec (.setmode p m) s := rfl
  rcases hi with rfl | rfl
  · exact exec_setmode_running hx hu
  · exact hpass.trans (exec_setmode_running hx hu)

/-- WRITE, and WRITEPIN with nothing added, on a Running context at a label of WRITE (R131, R151). -/
theorem exec_writes {i : Instr} {p : Byte} {v : Level} {s : State} {x : Ctx} {l : PinLabel}
    (hi : i = .write p v ∨ i = .writepin p v) (hx : s.Runs x) (hu : x.upc = .write l) :
    exec i s = writeAct l x s := by
  have hwrite : writeOn p v s = writeAct l x s := by simp only [writeOn, onContext_runs hx, hu]
  rcases hi with rfl | rfl <;> exact hwrite

/-- READ, and READPIN with nothing added, on a Running context at a label of READ (R132, R152). -/
theorem exec_reads {i : Instr} {p : Byte} {s : State} {x : Ctx} {l : PinLabel}
    (hi : i = .read p ∨ i = .readpin p) (hx : s.Runs x) (hu : x.upc = .read l) :
    exec i s = readAct l x s := by
  have hread : readOn p s = readAct l x s := by simp only [readOn, onContext_runs hx, hu]
  rcases hi with rfl | rfl <;> exact hread

/-! ### SETMODE (R130) -/

theorem mode_of_toByte {x : Ctx} {m : Mode} (h : x.b = m.toByte) : x.mode = m := by
  rw [Ctx.mode, h]
  cases m <;> rfl

/-- The label after SETMODE's first store: Input is done with it, Output sets its field too (R130). -/
def afterClear (m : Mode) : Upc := if m = .output then .setmode .a2 else .setmode .a4

theorem setmodeAct_clear {x : Ctx} {s : State} {m : Mode} (hm : x.mode = m) (hw : fselWordOf x.pin < 6) :
    setmodeAct .a1 x s =
      .next (({ s with fsel := s.fsel.set (fselWordOf x.pin) (x.tmp &&& clearMask x.pin) }.record
        (.st s.cur s.now (fselWordOf x.pin) (x.tmp &&& clearMask x.pin))).putCtx (x.goto (afterClear m))) := by
  rw [setmodeAct, storeAct_fsel hw, hm]
  cases m <;> rfl

/-- Settles O23: each label of SETMODE by its own action. -/
theorem setmodeActs : Obligations.SetmodeActs := by
  rintro i _ m s x hi hx rfl hb hp
  have hw : fselWordOf x.pin < 6 := fselWordOf_lt (p := x.pin) (Nat.le_trans hp (by decide))
  refine ⟨fun hu => ?a0, fun v hv hu => ?a1, fun hu => ?a2, fun v hv hu => ?a3, fun hu => ?a4⟩
  case a0 => rw [exec_setmodes hi hx hu, setmodeAct, loadAct_fsel hw]; rfl
  case a1 => rw [exec_setmodes hi hx hu, setmodeAct_clear (mode_of_toByte hb) hw, hv]; rfl
  case a2 => rw [exec_setmodes hi hx hu, setmodeAct, loadAct_fsel hw]; rfl
  case a3 => rw [exec_setmodes hi hx hu, setmodeAct, storeAct_fsel hw, hv]; rfl
  case a4 => rw [exec_setmodes hi hx hu, setmodeAct, returnAct_none]

/-! ### WRITE (R131) -/

/-- Settles O24: the store of the pin's level, then `Return`. -/
theorem writeActs : Obligations.WriteActs := by
  rintro i _ l s x hi hx rfl hb -
  refine ⟨fun hu => ?a0, fun hu => ?a1⟩
  case a0 => rw [exec_writes hi hx hu, writeAct, directPinWrite_stored, level_of_toByte hb]; rfl
  case a1 => rw [exec_writes hi hx hu, writeAct, returnAct_none]

/-! ### READ (R56, R132) -/

/-- The bits of LEVEL determine the word that is loaded (R56). -/
theorem State.IsLevel.eq_levelWord {s : State} {d v : Word} (h : s.IsLevel d v) : v = levelWord s.fsel s.out d :=
  BitVec.eq_of_getLsbD_eq fun k hk => (h k hk).trans (getLsbD_levelWord _ _ _ _ hk).symm

/-- Taking a draw records nothing (R56). -/
theorem State.Draws.hist {s s1 : State} {d : Word} (h : s.Draws d s1) : s1.hist = s.hist := by
  rcases h with ⟨_, _, rfl⟩ | ⟨_, _, rfl⟩ <;> rfl

/-- A sample loads LEVEL under the draw it takes, and its result is the pin's bit (R56, R132, R153). -/
theorem sampleAct_eq {s s1 : State} {d v : Word} {x : Ctx} (hd : s.Draws d s1) (hv : s.IsLevel d v) (hp : x.pin ≤ 31)
    (k : Ctx → State → Result) :
    sampleAct x s k =
      k { x with tmp := v, res := (if v.getLsbD x.pin then 1#1 else 0#1) }
        { s1 with hist := s.hist ++ [.ld s.cur s.now 13 v] } := by
  have hload := loadAct_level s fun v s => k { x with tmp := v, res := sampleOf v x.pin } s
  rw [takeDraw_of_draws hd, ← hv.eq_levelWord, sampleOf_eq v _ (Nat.lt_succ_of_le hp)] at hload
  rw [sampleAct, hload, ← hd.hist]
  rfl

/-- A `Return` with STATUS 0 answers its value (R91). -/
theorem responseWord_ok (v : BitVec 1) : responseWord 0x00#8 v = v.setWidth 32 := by
  simp [responseWord]

/-- Settles O25: the sample, then `Return` of its result. -/
theorem readActs : Obligations.ReadActs := by
  rintro i _ s x hi hx rfl hp
  refine ⟨fun d s1 v hd hv hu => ?a0, fun hu => ?a1⟩
  case a0 => rw [exec_reads hi hx hu, readAct, sampleAct_eq hd hv hp]; rfl
  case a1 => rw [exec_reads hi hx hu, readAct, returnAct_eq, Option.getD_some, responseWord_ok]; rfl

end Sys2Proof.Machine

/-! PROOFS. SETMODE run alone: the fields of the word it leaves, the accesses it makes, and its frame (R82, R130,
R133, R150). -/

namespace Sys2Proof.Machine

/-! ### The word that SETMODE stores (R82, R130) -/

/-- The clear mask has its zeros in the pin's field (R82). -/
theorem getLsbD_clearMask (p : Nat) {k : Nat} (hk : k < 32) :
    (clearMask p).getLsbD k = !decide (fieldOffset p ≤ k ∧ k < fieldOffset p + 3) := by
  have hones (j : Nat) : (0b111#32).getLsbD j = (decide (j < 32) && decide (j < 3)) :=
    (BitVec.getLsbD_ofNat 32 7 j).trans (congrArg _ (Nat.testBit_two_pow_sub_one 3 j))
  rw [Bool.eq_iff_iff]
  simp only [clearMask, BitVec.getLsbD_not, BitVec.getLsbD_shiftLeft, hones, hk, decide_true, Bool.true_and,
    Bool.not_and, Bool.not_not, Bool.or_eq_true, Bool.not_eq_true', decide_eq_true_eq, decide_eq_false_iff_not]
  omega

/-- Clearing the pin's field leaves `0b000` in it (R82, R130). -/
theorem extractLsb'_and_clearMask (v : Word) (p : Nat) :
    (v &&& clearMask p).extractLsb' (fieldOffset p) 3 = 0b000#3 := by
  apply BitVec.eq_of_getLsbD_eq
  intro i hi
  have hbit := getLsbD_clearMask p (k := fieldOffset p + i) (by unfold fieldOffset; omega)
  simp [hbit, hi]

/-- Clearing the pin's field leaves the fields of the word's other pins alone (R82, R130). -/
theorem extractLsb'_and_clearMask_other (v : Word) {p q : Nat} (h : p % 10 ≠ q % 10) :
    (v &&& clearMask p).extractLsb' (fieldOffset q) 3 = v.extractLsb' (fieldOffset q) 3 := by
  apply BitVec.eq_of_getLsbD_eq
  intro i hi
  have hbit := getLsbD_clearMask p (k := fieldOffset q + i) (by unfold fieldOffset; omega)
  have hout : ¬(fieldOffset p ≤ fieldOffset q + i ∧ fieldOffset q + i < fieldOffset p + 3) := by
    unfold fieldOffset; omega
  simp [BitVec.getLsbD_extractLsb', hbit, hout]

/-- The word that SETMODE leaves where it found `v` (R130). -/
def modeWord (v : Word) (p : Nat) : Mode → Word
  | .input => v &&& clearMask p
  | .output => v &&& clearMask p ||| outputPattern p

/-- The field of a pin in the mode (R36, R130). -/
def modeField (m : Mode) : BitVec 3 := if m = .output then 0b001#3 else 0b000#3

theorem extractLsb'_modeWord (v : Word) (p : Nat) (m : Mode) :
    (modeWord v p m).extractLsb' (fieldOffset p) 3 = modeField m := by
  cases m with
  | input => exact extractLsb'_and_clearMask v p
  | output => rw [modeWord, extractLsb'_or_outputPattern, extractLsb'_and_clearMask]; rfl

theorem extractLsb'_modeWord_other (v : Word) {p q : Nat} (h : p % 10 ≠ q % 10) (m : Mode) :
    (modeWord v p m).extractLsb' (fieldOffset q) 3 = v.extractLsb' (fieldOffset q) 3 := by
  cases m with
  | input => exact extractLsb'_and_clearMask_other v h
  | output => rw [modeWord, extractLsb'_or_outputPattern_other _ h, extractLsb'_and_clearMask_other v h]

/-- The two bits in no field are as they were (R82). -/
theorem getLsbD_modeWord_top (v : Word) (p : Nat) (m : Mode) {k : Nat} (h30 : 30 ≤ k) (hk : k < 32) :
    (modeWord v p m).getLsbD k = v.getLsbD k := by
  have hlt : fieldOffset p + 3 ≤ k := by unfold fieldOffset; omega
  have hclear : (clearMask p).getLsbD k = true := by
    rw [getLsbD_clearMask p hk, decide_eq_false (by omega)]
    rfl
  have hset : (outputPattern p).getLsbD k = false := by
    have hbit : (outputPattern p).getLsbD k = decide (k = fieldOffset p) := getLsbD_bitOf _ _ hk
    rw [hbit]
    exact decide_eq_false (by omega)
  cases m <;> simp [modeWord, hclear, hset]

/-! ### The words after a SETMODE (R52, R133) -/

/-- Of two stores to one word the second stands (R52). -/
theorem Fsel.set_set (f : Fsel) {w : Nat} (hw : w < 6) (v v' : Word) : (f.set w v).set w v' = f.set w v' := by
  interval_cases w <;> rfl

/-- The function-select words after a SETMODE (R130). -/
def Fsel.withMode (f : Fsel) (p : Nat) (m : Mode) : Fsel :=
  f.set (fselWordOf p) (modeWord (f.get (fselWordOf p)) p m)

theorem Fsel.get_withMode (f : Fsel) {p : Nat} (hp : p ≤ 59) (m : Mode) :
    (f.withMode p m).get (fselWordOf p) = modeWord (f.get (fselWordOf p)) p m := by
  rw [Fsel.withMode, Fsel.get_set _ _ _ _ (fselWordOf_lt hp) (fselWordOf_lt hp), if_pos rfl]

theorem Fsel.func_withMode (f : Fsel) {p : Nat} (hp : p ≤ 59) (m : Mode) : (f.withMode p m).func p = modeField m := by
  rw [Fsel.func, Fsel.get_withMode f hp, extractLsb'_modeWord]

/-- SETMODE leaves every other pin's function alone (R133). -/
theorem Fsel.func_withMode_other (f : Fsel) {p q : Nat} (hp : p ≤ 59) (hq : q ≤ 59) (hne : q ≠ p) (m : Mode) :
    (f.withMode p m).func q = f.func q := by
  rw [Fsel.func, Fsel.func, Fsel.withMode, Fsel.get_set _ _ _ _ (fselWordOf_lt hp) (fselWordOf_lt hq)]
  by_cases hword : fselWordOf q = fselWordOf p
  · have hfield : p % 10 ≠ q % 10 := by unfold fselWordOf at hword; omega
    rw [if_pos hword, hword, extractLsb'_modeWord_other _ hfield]
  · rw [if_neg hword]

/-- SETMODE leaves the bits in no field alone, in all six words (R82, R133). -/
theorem Fsel.getLsbD_withMode_top (f : Fsel) {p w k : Nat} (hp : p ≤ 59) (hw : w < 6) (m : Mode) (h30 : 30 ≤ k)
    (hk : k < 32) : ((f.withMode p m).get w).getLsbD k = (f.get w).getLsbD k := by
  rw [Fsel.withMode, Fsel.get_set _ _ _ _ (fselWordOf_lt hp) hw]
  by_cases hword : w = fselWordOf p
  · rw [if_pos hword, hword, getLsbD_modeWord_top _ _ _ h30 hk]
  · rw [if_neg hword]

/-! ### SETMODE as a run (R93, R130) -/

/-- The state after some actions of the executing context on the function-select words: the context is `x`, the words
are `f`, and the history has grown by `es`. -/
def State.configured (s : State) (x : Ctx) (f : Fsel) (es : List Event) : State :=
  { s with ctxs := s.ctxs.set s.cur x, fsel := f, hist := s.hist ++ es }

@[simp] theorem State.configured_configured (s : State) (x y : Ctx) (f g : Fsel) (es fs : List Event) :
    (s.configured x f es).configured y g fs = s.configured y g (es ++ fs) := by
  simp [State.configured]

@[simp] theorem State.putCtx_configured (s : State) (x y : Ctx) (f : Fsel) (es : List Event) :
    (s.putCtx x).configured y f es = s.configured y f es := by
  simp [State.configured, State.putCtx]

/-- The load and the store of one pass of SETMODE over the word `v`, which becomes `v'` (R130). -/
def passEvents (c t p : Nat) (v v' : Word) : List Event :=
  [.ld c t (fselWordOf p) v, .st c t (fselWordOf p) v']

/-- The context with the word `v` loaded, at the label `u` (R130). -/
def Ctx.passed (x : Ctx) (v : Word) (u : Upc) : Ctx := { x with tmp := v, upc := u }

theorem runs_configured {s : State} {x z : Ctx} (hz : s.me = some z) (hr : x.status = .running)
    (hb : x.between = .nothing) (f : Fsel) (es : List Event) : (s.configured x f es).Runs x :=
  ⟨x, me_putCtx hz x, hr, (Ctx.computed_of_nothing hb).symm⟩

section

variable {i : Instr} {m : Mode} {s : State} {x : Ctx} {v : Word}

/-- A load of the pin's word and a store to it, as a run. -/
theorem solo_pass {v' : Word} {u u' : Upc} (hx : s.Runs x) (hd : x.delayFrom = none)
    (hload : exec i s = .next (s.configured (x.passed v u) s.fsel [.ld s.cur s.now (fselWordOf x.pin) v]))
    (hstore : ∀ r : State, r.Runs (x.passed v u) →
      exec i r = .next (r.configured (x.passed v u') (r.fsel.set (fselWordOf x.pin) v')
        [.st r.cur r.now (fselWordOf x.pin) v']))
    (n : Nat) :
    solo i (n + 2) s =
      solo i n (s.configured (x.passed v u') (s.fsel.set (fselWordOf x.pin) v')
        (passEvents s.cur s.now x.pin v v')) := by
  obtain ⟨hr, hb⟩ := hx.fields
  obtain ⟨z, hz, -⟩ := id hx
  have hloaded := runs_configured (x := x.passed v u) hz hr hb s.fsel [.ld s.cur s.now (fselWordOf x.pin) v]
  rw [solo_action hx hd hload, solo_action hloaded hd (hstore _ hloaded), State.configured_configured]
  rfl

/-- The first pass of SETMODE, as a run: the pin's field becomes `0b000` (R130). -/
theorem solo_clearPass (hi : i = .setmode x.a m ∨ i = .setpinmode x.a m) (hx : s.Runs x) (hd : x.delayFrom = none)
    (hb : x.b = m.toByte) (hp : x.pin ≤ 53) (hu : x.upc = .setmode .a0) (hv : s.fsel.get (fselWordOf x.pin) = v)
    (n : Nat) :
    solo i (n + 2) s =
      solo i n (s.configured (x.passed v (afterClear m)) (s.fsel.set (fselWordOf x.pin) (modeWord v x.pin .input))
        (passEvents s.cur s.now x.pin v (modeWord v x.pin .input))) := by
  subst hv
  refine solo_pass (u := .setmode .a1) hx hd ?load (fun r hruns => ?store) n
  case load => exact (setmodeActs i x.a m s x hi hx rfl hb hp).1 hu
  case store =>
    obtain ⟨-, hstore, -⟩ := setmodeActs i x.a m r _ hi hruns rfl hb hp
    exact hstore _ rfl rfl

/-- The second pass of SETMODE, as a run: `0b001` is set in the pin's field (R130). -/
theorem solo_outputPass (hi : i = .setmode x.a m ∨ i = .setpinmode x.a m) (hx : s.Runs x) (hd : x.delayFrom = none)
    (hb : x.b = m.toByte) (hp : x.pin ≤ 53) (hu : x.upc = .setmode .a2) (hv : s.fsel.get (fselWordOf x.pin) = v)
    (n : Nat) :
    solo i (n + 2) s =
      solo i n (s.configured (x.passed v (.setmode .a4)) (s.fsel.set (fselWordOf x.pin) (v ||| outputPattern x.pin))
        (passEvents s.cur s.now x.pin v (v ||| outputPattern x.pin))) := by
  subst hv
  refine solo_pass (u := .setmode .a3) hx hd ?load (fun r hruns => ?store) n
  case load =>
    obtain ⟨-, -, hload, -⟩ := setmodeActs i x.a m s x hi hx rfl hb hp
    exact hload hu
  case store =>
    obtain ⟨-, -, -, hstore, -⟩ := setmodeActs i x.a m r _ hi hruns rfl hb hp
    exact hstore _ rfl rfl

/-- The accesses of SETMODE: one pass over the word `v`, and for Output a second over what the first has left (R130). -/
def setmodeEvents (c t p : Nat) (v : Word) (m : Mode) : List Event :=
  passEvents c t p v (modeWord v p .input) ++
    if m = .output then passEvents c t p (modeWord v p .input) (modeWord v p .output) else []

/-- The loads and stores of SETMODE as a run: what is left of it is its `Return` (R130). -/
theorem solo_setmodeAccesses (hi : i = .setmode x.a m ∨ i = .setpinmode x.a m) (hx : s.Runs x)
    (hd : x.delayFrom = none) (hb : x.b = m.toByte) (hp : x.pin ≤ 53) (hu : x.upc = .setmode .a0)
    (hv : s.fsel.get (fselWordOf x.pin) = v) (n : Nat) :
    ∃ tmp, solo i (n + if m = .output then 4 else 2) s =
      solo i n (s.configured (x.passed tmp (.setmode .a4)) (s.fsel.withMode x.pin m)
        (setmodeEvents s.cur s.now x.pin v m)) := by
  cases m with
  | input =>
    subst hv
    exact ⟨_, solo_clearPass hi hx hd hb hp hu rfl n⟩
  | output =>
    obtain ⟨hr, hnone⟩ := hx.fields
    obtain ⟨z, hz, -⟩ := id hx
    have hw : fselWordOf x.pin < 6 := fselWordOf_lt (p := x.pin) (Nat.le_trans hp (by decide))
    have hcleared := runs_configured (x := x.passed v (.setmode .a2)) hz hr hnone
      (s.fsel.set (fselWordOf x.pin) (modeWord v x.pin .input))
      (passEvents s.cur s.now x.pin v (modeWord v x.pin .input))
    have hloads : (s.fsel.set (fselWordOf x.pin) (modeWord v x.pin .input)).get (fselWordOf x.pin) =
        modeWord v x.pin .input := by rw [Fsel.get_set _ _ _ _ hw hw, if_pos rfl]
    have hsecond := solo_outputPass (x := x.passed v (.setmode .a2)) hi hcleared hd hb hp rfl hloads n
    rw [State.configured_configured] at hsecond
    refine ⟨modeWord v x.pin .input, (solo_clearPass hi hx hd hb hp hu hv (n + 2)).trans (hsecond.trans ?_)⟩
    have hset : ((s.fsel.set (fselWordOf x.pin) (modeWord v x.pin .input)).set (fselWordOf x.pin)
        (modeWord v x.pin .output)) = s.fsel.withMode x.pin .output := by
      rw [Fsel.set_set _ hw, Fsel.withMode, hv]
    rw [← hset]
    rfl

/-- SETMODE, run alone from its first load (R130). -/
theorem solo_setmodeActions (hi : i = .setmode x.a m ∨ i = .setpinmode x.a m) (hx : s.Runs x)
    (hd : x.delayFrom = none) (hb : x.b = m.toByte) (hp : x.pin ≤ 53) (hu : x.upc = .setmode .a0) :
    ∃ y, solo i (1 + if m = .output then 4 else 2) s =
      .next ((s.configured y (s.fsel.withMode x.pin m)
        (setmodeEvents s.cur s.now x.pin (s.fsel.get (fselWordOf x.pin)) m)).returned y) := by
  obtain ⟨hr, hnone⟩ := hx.fields
  obtain ⟨z, hz, -⟩ := id hx
  obtain ⟨tmp, haccesses⟩ := solo_setmodeAccesses hi hx hd hb hp hu rfl 1
  have hdone := runs_configured (x := x.passed tmp (.setmode .a4)) hz hr hnone (s.fsel.withMode x.pin m)
    (setmodeEvents s.cur s.now x.pin (s.fsel.get (fselWordOf x.pin)) m)
  obtain ⟨-, -, -, -, hreturn⟩ := setmodeActs i x.a m _ _ hi hdone rfl hb hp
  exact ⟨_, haccesses.trans (solo_action hdone hd (hreturn rfl) 0)⟩

/-- SETMODE on a pin up to 53 is accepted by a Mapped block (R227, R228). -/
theorem refusalOf_setmodes {p : Byte} (hi : i = .setmode p m ∨ i = .setpinmode p m) (hmap : s.mapState = .mapped)
    (hp : p.toNat ≤ 53) : s.refusalOf i = none := by
  rcases hi with rfl | rfl <;> simp [State.refusalOf, hmap, pinRange, rowOperand, colOperand, hp]

/-- The hand-over of SETMODE: its operands are loaded, and nothing is to compute before its first action (R93). -/
theorem handed_setmodes {p : Byte} (hi : i = .setmode p m ∨ i = .setpinmode p m) (x : Ctx) :
    (x.handed i).a = p ∧ (x.handed i).b = m.toByte ∧ (x.handed i).upc = .setmode .a0 ∧
      (x.handed i).between = .nothing := by
  rcases hi with rfl | rfl <;> rw [Ctx.handed_pack x rfl] <;> exact ⟨rfl, rfl, rfl, rfl⟩

/-- SETMODE, run alone from its hand-over (R93, R130). -/
theorem solo_setmode {p : Byte} (hi : i = .setmode p m ∨ i = .setpinmode p m) (hs : s.Starts x) (hp : p.toNat ≤ 53) :
    ∃ y : Ctx, solo i (if m = .output then 6 else 4) s =
      .next ((s.configured y (s.fsel.withMode p.toNat m)
        (setmodeEvents s.cur s.now p.toNat (s.fsel.get (fselWordOf p.toNat)) m)).returned y) := by
  obtain ⟨hx, hidle, hnodelay, hmap⟩ := hs
  have hreq : isRequest i = true := by rcases hi with rfl | rfl <;> rfl
  have hhanded := handOverLoadsOperands i s x hx hidle hreq (refusalOf_setmodes hi hmap hp)
  obtain ⟨hr, -, hdelay, -⟩ := handed_fields x i hreq
  obtain ⟨ha, hb, hu, hnone⟩ := handed_setmodes hi x
  subst ha
  have hruns : (s.putCtx (x.handed i)).Runs (x.handed i) :=
    ⟨_, me_putCtx hx _, hr, (Ctx.computed_of_nothing hnone).symm⟩
  obtain ⟨y, hactions⟩ := solo_setmodeActions hi hruns hdelay hb hp hu
  have hcount : (if m = .output then 6 else 4) = (1 + if m = .output then 4 else 2) + 1 := by cases m <;> rfl
  refine ⟨y, ?_⟩
  rw [hcount, solo_step hx hnodelay hhanded, hactions, State.putCtx_configured]
  rfl

end

/-- Settles O37: the state that the run leaves, field by field. -/
theorem setmodeRun : Obligations.SetmodeRun := by
  intro i p m s x hi hs hp
  have hp59 : p.toNat ≤ 59 := Nat.le_trans hp (by decide)
  have hoff : 3 * (p.toNat % 10) = fieldOffset p.toNat := Nat.mul_comm _ _
  obtain ⟨y, hrun⟩ := solo_setmode hi hs hp
  obtain ⟨hx, -, -, hmap⟩ := hs
  refine ⟨_, _, modeWord (s.fsel.get (fselWordOf p.toNat)) p.toNat .input,
    modeWord (s.fsel.get (fselWordOf p.toNat)) p.toNat .output, hrun, rfl, ?cleared, fun _ => ?set, ?hist, ?word,
    s.fsel.func_withMode hp59 m, fun q hq hne => s.fsel.func_withMode_other hp59 hq hne m, fun w k hw hk => ?top,
    rfl, rfl, rfl, hmap, rfl, answered_returned (me_putCtx hx _) _⟩
  case cleared => rw [hoff]; exact extractLsb'_modeWord _ _ _
  case set => rw [hoff]; exact extractLsb'_modeWord _ _ _
  case hist => cases m <;> simp [State.returned, State.configured, setmodeEvents, passEvents, fselWordOf]
  case word => cases m <;> exact s.fsel.get_withMode hp59 _
  case top => exact s.fsel.getLsbD_withMode_top hp59 hw m (by omega) (by omega)

end Sys2Proof.Machine

/-! PROOFS. The debounce filter: the actions of WAITBTN, and WAITBTN run alone through any draws with a press and a
release in them (R56, R153, R270). -/

namespace Sys2Proof.Machine

/-! ### The actions of WAITBTN (R153) -/

/-- A Running context at a label of WAITBTN takes WAITBTN's action there (R153). -/
theorem exec_waitbtn {p : Byte} {s : State} {x : Ctx} {l : WaitLabel} (hx : s.Runs x) (hu : x.upc = .waitbtn l) :
    exec (.waitbtn p) s = waitbtnAct l x s := by
  simp only [exec, execWaitbtn, onContext_runs hx, hu]

/-- The label at which a phase takes its samples: press-detect looks for High, release-detect (`release`) for Low. -/
def sampling (release : Bool) : WaitLabel := if release then .r0 else .p0

/-- The label at which a phase waits for its next sample. -/
def polling (release : Bool) : WaitLabel := if release then .r1 else .p1

/-- The label to which a phase goes when its sample is the level it looks for. -/
def phaseEnd (release : Bool) : WaitLabel := if release then .s0 else .r0

/-- The label after a sample that has read `bit`: release-detect polls on through High, press-detect through Low. -/
def afterSample (release bit : Bool) : WaitLabel := if bit = release then polling release else phaseEnd release

theorem afterSample_press (bit : Bool) :
    Upc.waitbtn (afterSample false bit) = if bit then .waitbtn .r0 else .waitbtn .p1 := by
  cases bit <;> rfl

theorem afterSample_release (bit : Bool) :
    Upc.waitbtn (afterSample true bit) = if bit then .waitbtn .r1 else .waitbtn .s0 := by
  cases bit <;> rfl

/-- The context that has sampled the word `v`, at the label `l` (R153). -/
def Ctx.sampled (x : Ctx) (v : Word) (l : WaitLabel) : Ctx :=
  { x with tmp := v, res := (if v.getLsbD x.pin then 1#1 else 0#1), upc := .waitbtn l }

/-- The sample of either phase, and where it goes (R56, R153). -/
theorem waitbtnAct_sampling {s s1 : State} {d v : Word} {x : Ctx} (hd : s.Draws d s1) (hv : s.IsLevel d v)
    (hp : x.pin ≤ 31) (release : Bool) :
    waitbtnAct (sampling release) x s =
      .next (({ s1 with hist := s.hist ++ [.ld s.cur s.now 13 v] } : State).putCtx
        (x.sampled v (afterSample release (v.getLsbD x.pin)))) := by
  cases release with
  | false =>
    rw [sampling, if_neg Bool.false_ne_true, waitbtnAct, sampleAct_eq hd hv hp, Ctx.sampled]
    cases v.getLsbD x.pin <;> rfl
  | true =>
    rw [sampling, if_pos rfl, waitbtnAct, sampleAct_eq hd hv hp, Ctx.sampled]
    cases v.getLsbD x.pin <;> rfl

/-- Settles O26: each label of WAITBTN by its own action. -/
theorem waitbtnActs : Obligations.WaitbtnActs := by
  rintro _ s x hx rfl hp
  refine ⟨fun d s1 v hd hv hu => ?p0, fun hu => ?p1, fun d s1 v hd hv hu => ?r0, fun hu => ?r1, fun hu => ?s0,
    fun hu => ?s1⟩
  case p0 =>
    rw [exec_waitbtn (l := sampling false) hx hu, waitbtnAct_sampling hd hv hp, Ctx.sampled, afterSample_press]
    rfl
  case p1 => exact delayRule_of_delayAct (by rw [exec_waitbtn hx hu, waitbtnAct]; rfl) fun r => rfl
  case r0 =>
    rw [exec_waitbtn (l := sampling true) hx hu, waitbtnAct_sampling hd hv hp, Ctx.sampled, afterSample_release]
    rfl
  case r1 => exact delayRule_of_delayAct (by rw [exec_waitbtn hx hu, waitbtnAct]; rfl) fun r => rfl
  case s0 => exact delayRule_of_delayAct (by rw [exec_waitbtn hx hu, waitbtnAct]; rfl) fun r => rfl
  case s1 => rw [exec_waitbtn hx hu, waitbtnAct, returnAct_none]

/-! ### WAITBTN as a run (R153, R270) -/

/-- The state after some actions of WAITBTN: the context is `x`, the time `now`, the draws left are `ds`, and the
history has grown by `es`. -/
def State.polled (s : State) (x : Ctx) (now : Nat) (ds : List Word) (es : List Event) : State :=
  { s with ctxs := s.ctxs.set s.cur x, now := now, draws := ds, hist := s.hist ++ es }

theorem polled_self (s : State) (x : Ctx) : s.polled x s.now s.draws [] = s.putCtx x := by
  simp [State.polled, State.putCtx]

/-- A delay moves a run on in time only (R270). -/
theorem ran_polled (s : State) (x y : Ctx) (now now' : Nat) (ds : List Word) (es fs : List Event) :
    (s.polled x now ds es).ran y now' s.out fs [] = s.polled y now' ds (es ++ fs) := by
  simp [State.polled, State.ran]

/-- The context runs WAITBTN on pin `p` and is at the label `l`, with nothing in progress. -/
structure Ctx.Waits (x : Ctx) (p : Byte) (l : WaitLabel) : Prop where
  running : x.status = .running
  between : x.between = .nothing
  noDelay : x.delayFrom = none
  pin : x.a = p
  upc : x.upc = .waitbtn l

/-- The hand-over of WAITBTN on a pin up to 31 (R93, R153). -/
theorem waits_handed (x : Ctx) (p : Byte) : (x.handed (.waitbtn p)).Waits p .p0 := by
  rw [Ctx.handed_pack x rfl]
  exact ⟨rfl, rfl, rfl, rfl, rfl⟩

section

variable {p : Byte} {s : State} {z x : Ctx} (hz : s.me = some z)

include hz

theorem runs_polled {l : WaitLabel} (hx : x.Waits p l) (now : Nat) (ds : List Word) (es : List Event) :
    (s.polled x now ds es).Runs x :=
  ⟨x, me_putCtx hz x, hx.running, (Ctx.computed_of_nothing hx.between).symm⟩

/-- A delay of WAITBTN, as a run that has come to it (R153, R270). -/
theorem solo_wait {l l' : WaitLabel} {d : Nat} (hx : x.Waits p l)
    (hact : ∀ y r, waitbtnAct l y r = delayAct d y r fun y r => .next (r.putCtx (y.goto (.waitbtn l'))))
    (n now : Nat) (ds : List Word) (es : List Event) :
    ∃ y : Ctx, y.Waits p l' ∧
      solo (.waitbtn p) (n + 2) (s.polled x now ds es) =
        solo (.waitbtn p) n (s.polled y (now + d) ds (es ++ [.dly s.cur d now (now + d)])) := by
  have hrun := solo_delayAct (i := .waitbtn p) (runs_polled hz hx now ds es) hx.noDelay
    (fun r w t0 hr => (exec_waitbtn hr hx.upc).trans (hact _ r)) n
  refine ⟨(x.withDelay (now + d) none).goto (.waitbtn l'), ⟨hx.running, hx.between, rfl, hx.pin, rfl⟩, hrun.trans ?_⟩
  exact congrArg _ (ran_polled s x _ now (now + d) ds es _)

/-- The settling delay and the `Return`, as the end of a run (R153). -/
theorem solo_settle (hx : x.Waits p .s0) (now : Nat) (ds : List Word) (es : List Event) :
    ∃ y : Ctx, solo (.waitbtn p) 3 (s.polled x now ds es) =
      .next ((s.polled y (now + 50000) ds (es ++ [.dly s.cur 50000 now (now + 50000)])).returned y) := by
  obtain ⟨y, hy, hwait⟩ := solo_wait hz hx (d := 50000) (l' := .s1) (fun _ _ => rfl) 1 now ds es
  have hruns := runs_polled hz hy (now + 50000) ds (es ++ [.dly s.cur 50000 now (now + 50000)])
  exact ⟨y, hwait.trans (solo_action hruns hy.noDelay (exec_waitbtn hruns hy.upc) 0)⟩

variable (hp : p.toNat ≤ 31) (hin : s.fsel.func p.toNat ≠ 0b001#3)

include hp hin

/-- A sample, as a run that has come to it: the level of a pin not in Output mode is the drawn one (R56, R153). -/
theorem solo_sample {release : Bool} (hx : x.Waits p (sampling release)) (n now : Nat) (d : Word) (ds : List Word)
    (es : List Event) :
    ∃ y : Ctx, y.Waits p (afterSample release (d.getLsbD p.toNat)) ∧
      solo (.waitbtn p) (n + 1) (s.polled x now (d :: ds) es) =
        solo (.waitbtn p) n (s.polled y now ds (es ++ [.ld s.cur now 13 (levelWord s.fsel s.out d)])) := by
  have hruns := runs_polled hz hx now (d :: ds) es
  have hpin : x.pin = p.toNat := congrArg _ hx.pin
  have hbit : (levelWord s.fsel s.out d).getLsbD x.pin = d.getLsbD p.toNat := by
    rw [hpin, getLsbD_levelWord _ _ _ _ (Nat.lt_succ_of_le hp), if_neg hin]
  have hact := waitbtnAct_sampling (s := s.polled x now (d :: ds) es) (s1 := s.polled x now ds es) (.inl ⟨ds, rfl, rfl⟩)
    (getLsbD_levelWord s.fsel s.out d) (hpin ▸ hp) release
  rw [hbit] at hact
  refine ⟨x.sampled (levelWord s.fsel s.out d) (afterSample release (d.getLsbD p.toNat)),
    ⟨hx.running, hx.between, hx.noDelay, hx.pin, rfl⟩, ?_⟩
  rw [solo_action hruns hx.noDelay ((exec_waitbtn hruns hx.upc).trans hact)]
  simp [State.polled, State.putCtx]

/-- A poll that does not end its phase: a sample of the level it polls through, and 10 000 µs (R153). -/
theorem solo_poll {release : Bool} (hx : x.Waits p (sampling release)) {d : Word} (hd : d.getLsbD p.toNat = release)
    (n now : Nat) (ds : List Word) (es : List Event) :
    ∃ y : Ctx, y.Waits p (sampling release) ∧
      solo (.waitbtn p) (n + 3) (s.polled x now (d :: ds) es) =
        solo (.waitbtn p) n (s.polled y (now + 10000) ds
          (es ++ pollEvents s.cur s.fsel s.out now [d])) := by
  obtain ⟨y, hy, hsample⟩ := solo_sample hz hp hin hx (n + 2) now d ds es
  rw [afterSample, if_pos hd] at hy
  obtain ⟨w, hw, hwait⟩ := solo_wait hz hy (d := 10000) (l' := sampling release)
    (fun _ _ => by cases release <;> rfl) n now ds (es ++ [.ld s.cur now 13 (levelWord s.fsel s.out d)])
  refine ⟨w, hw, hsample.trans (hwait.trans ?_)⟩
  simp [pollEvents]

/-- The polls of a phase, one for each draw that does not end it (R153). -/
theorem solo_polls {release : Bool} (n : Nat) (rest : List Word) {ds : List Word}
    (hds : ∀ d ∈ ds, d.getLsbD p.toNat = release) (hx : x.Waits p (sampling release)) (now : Nat) (es : List Event) :
    ∃ y : Ctx, y.Waits p (sampling release) ∧
      solo (.waitbtn p) (n + 3 * ds.length) (s.polled x now (ds ++ rest) es) =
        solo (.waitbtn p) n (s.polled y (now + 10000 * ds.length) rest
          (es ++ pollEvents s.cur s.fsel s.out now ds)) := by
  induction ds generalizing x now es with
  | nil => exact ⟨x, hx, by simp [pollEvents]⟩
  | cons d ds ih =>
    obtain ⟨hd, hds⟩ := List.forall_mem_cons.1 hds
    obtain ⟨y, hy, hpoll⟩ := solo_poll hz hp hin hx hd (n + 3 * ds.length) now (ds ++ rest) es
    obtain ⟨w, hw, hpolls⟩ := ih hds hy (now + 10000) (es ++ pollEvents s.cur s.fsel s.out now [d])
    have hnow : now + 10000 + 10000 * ds.length = now + 10000 * (d :: ds).length := by simp; omega
    refine ⟨w, hw, hpoll.trans (hpolls.trans ?_)⟩
    simp [hnow, pollEvents]

/-- A whole phase: the polls that do not end it, and the sample that does (R153). -/
theorem solo_phase {release : Bool} (n : Nat) {last : Word} (rest : List Word) {ds : List Word}
    (hds : ∀ d ∈ ds, d.getLsbD p.toNat = release) (hlast : last.getLsbD p.toNat ≠ release)
    (hx : x.Waits p (sampling release)) (now : Nat) (es : List Event) :
    ∃ y : Ctx, y.Waits p (phaseEnd release) ∧
      solo (.waitbtn p) (n + 1 + 3 * ds.length) (s.polled x now (ds ++ last :: rest) es) =
        solo (.waitbtn p) n (s.polled y (now + 10000 * ds.length) rest
          (es ++ pollEvents s.cur s.fsel s.out now ds ++
            [.ld s.cur (now + 10000 * ds.length) 13 (levelWord s.fsel s.out last)])) := by
  obtain ⟨y, hy, hpolls⟩ := solo_polls hz hp hin (n + 1) (last :: rest) hds hx now es
  obtain ⟨w, hw, hsample⟩ := solo_sample hz hp hin hy n (now + 10000 * ds.length) last rest
    (es ++ pollEvents s.cur s.fsel s.out now ds)
  rw [afterSample, if_neg hlast] at hw
  exact ⟨w, hw, hpolls.trans hsample⟩

end

/-- The hand-over of WAITBTN, as a run (R93, R227, R228). -/
theorem solo_waitbtn_handed {p : Byte} {s : State} {x : Ctx} (hs : s.Starts x) (hp : p.toNat ≤ 31) (n : Nat) :
    solo (.waitbtn p) (n + 1) s =
      solo (.waitbtn p) n (s.polled (x.handed (.waitbtn p)) s.now s.draws []) := by
  obtain ⟨hx, hidle, hnodelay, hmap⟩ := hs
  have haccepted : s.refusalOf (.waitbtn p) = none := by
    simp [State.refusalOf, hmap, pinRange, rowOperand, colOperand, hp]
  rw [solo_step hx hnodelay (handOverLoadsOperands (.waitbtn p) s x hx hidle rfl haccepted), polled_self]

/-- Settles O39: the hand-over, the two phases, the settling delay with the `Return`. -/
theorem waitbtnRun : Obligations.WaitbtnRun := by
  intro p s x lows highs rest hi lo hs hp hin hdraws hlows hhi hhighs hlo
  obtain ⟨hx, -⟩ := id hs
  obtain ⟨y1, hy1, hpress⟩ := solo_phase hx hp hin (release := false) (last := hi) (3 + 1 + 3 * highs.length)
    (highs ++ lo :: rest) hlows (by simp [hhi]) (waits_handed x p) s.now []
  obtain ⟨y2, hy2, hrelease⟩ := solo_phase hx hp hin (release := true) (last := lo) 3 rest hhighs
    (by simp [hlo]) hy1 _ _
  obtain ⟨y, hsettle⟩ := solo_settle hx hy2 _ rest _
  have hcount : 3 * (lows.length + highs.length) + 6 = 3 + 1 + 3 * highs.length + 1 + 3 * lows.length + 1 := by omega
  have hrun := (solo_waitbtn_handed hs hp _).trans ((hdraws ▸ hpress).trans (hrelease.trans hsettle))
  rw [← hcount] at hrun
  refine ⟨_, _, _, hrun, rfl, rfl, rfl, rfl, ?hist, rfl, rfl, rfl, rfl, answered_returned (me_putCtx hx _) _⟩
  case hist => simp [State.returned, State.polled]

end Sys2Proof.Machine

/-! SUPPORT. The debounce invariant: what the history of an operation holds when an event is added to it, and what each
move leaves for the label it goes to (R153, R154). -/

namespace Sys2Proof.Machine

/-! ### The events of an operation (R14) -/

/-- An event of another context is none of this one's operation. -/
theorem opEvents_append_other {c : Nat} {e : Event} (h : e.ctx ≠ c) (es : List Event) :
    opEvents c (es ++ [e]) = opEvents c es := by
  simp [opEvents, h]

/-- An operation that has just ended has left no events to the next (R9). -/
theorem opEvents_append_end {c : Nat} {e : Event} (h : e.ctx = c) (hend : e.ends = true) (es : List Event) :
    opEvents c (es ++ [e]) = [] := by
  simp [opEvents, h, hend]

/-- Every other event of a context joins those of its operation. -/
theorem opEvents_append_own {c : Nat} {e : Event} (h : e.ctx = c) (hend : e.ends = false) (es : List Event) :
    opEvents c (es ++ [e]) = opEvents c es ++ [e] := by
  simp [opEvents, h, hend]

/-! ### What a label asks of the history (R153, R154) -/

/-- What a context of WAITBTN on pin `p` has seen by the time it is at the label `u`. -/
def Upc.Needs (u : Upc) (c p : Nat) (es : List Event) : Prop :=
  match u with
  | .waitbtn .r0 => SeenHigh c p es
  | .waitbtn .r1 => SeenHigh c p es
  | .waitbtn .s0 => SeenPress c p es
  | .waitbtn .s1 => SeenSettled c p es
  | _ => True

theorem debounced_iff (x : Ctx) (c : Nat) (es : List Event) :
    x.Debounced c es ↔ (x.status = .idle → es = []) ∧ (x.status = .running → x.upc.Needs c x.pin es) := Iff.rfl

theorem debounced_of_running {x : Ctx} {c : Nat} {es : List Event} (hr : x.status = .running)
    (h : x.upc.Needs c x.pin es) : x.Debounced c es :=
  (debounced_iff x c es).2 ⟨fun hi => by simp [hr] at hi, fun _ => h⟩

/-- A context that has been refused is at no label (R226). -/
theorem debounced_refusedFor (x : Ctx) (r : RefuseReason) (c : Nat) (es : List Event) :
    (x.refusedFor r).Debounced c es := ⟨nofun, nofun⟩

/-- A label of the display's critical region is none of WAITBTN. -/
theorem needs_of_critical {u : Upc} (h : u.critical = true) (c p : Nat) (es : List Event) : u.Needs c p es := by
  cases u with
  | waitbtn => cases h
  | _ => trivial

/-- No operation begins at a label that asks anything (R93). -/
theorem needs_firstUpc (i : Instr) (c p : Nat) (es : List Event) : (firstUpc i).Needs c p es := by
  cases i with
  | blink q n =>
    obtain ⟨l, hl⟩ := firstUpc_blink q n
    rw [hl]
    trivial
  | _ => trivial

/-! ### What a context has seen stays seen (R154) -/

theorem SeenHigh.append {c p : Nat} {es : List Event} (h : SeenHigh c p es) (e : Event) : SeenHigh c p (es ++ [e]) := by
  obtain ⟨hi, hmem, hhi⟩ := h
  exact ⟨hi, List.mem_append_left _ hmem, hhi⟩

/-- A low sample after a high one is a press (R154). -/
theorem SeenHigh.press {c p : Nat} {es : List Event} {lo : Event} (h : SeenHigh c p es) (hlo : IsSample c p false lo) :
    SeenPress c p (es ++ [lo]) := by
  obtain ⟨hi, hmem, hhi⟩ := h
  obtain ⟨es1, es2, rfl⟩ := List.append_of_mem hmem
  exact ⟨es1, es2, hi, lo, rfl, hhi, hlo⟩

/-- The result of a sample is the level it has read (R132). -/
theorem isSample_of_sampleOf {p : Nat} {v : Word} {b : Bool} (hp : p ≤ 31) (h : sampleOf v p = BitVec.ofBool b)
    (c t : Nat) : IsSample c p b (.ld c t Config.levelWord v) := by
  refine ⟨t, v, rfl, ?_⟩
  rw [sampleOf_eq v p (Nat.lt_succ_of_le hp)] at h
  cases b <;> simpa using h

/-! ### What a move leaves for the label it goes to -/

theorem PinMove.needs {x : Ctx} {q : Nat} {l : Level} {u : Upc} (h : PinMove x q l u) (c p : Nat) (es : List Event) :
    u.Needs c p es := by
  cases h with
  | byte hs => exact needs_of_critical ((sendingByte_critical hs).2.2 _).1 c p es
  | _ => trivial

theorem DirectMove.needs {x : Ctx} {l : Level} {u : Upc} (h : DirectMove x l u) (c p : Nat) (es : List Event) :
    u.Needs c p es := by
  cases h <;> trivial

theorem ReleaseMove.needs {x : Ctx} {u : Upc} (h : ReleaseMove x u) (c p : Nat) (es : List Event) :
    u.Needs c p es := by
  cases h <;> trivial

/-- A sample ends press-detect with a high level, and release-detect with a low one, which is the last load (R153). -/
theorem SampleMove.needs {x : Ctx} {v : Word} {u : Upc} {cols c : Nat} {es : List Event}
    (h : SampleMove x (sampleOf v x.pin) u) (hp : x.Placed cols) (hx : x.upc.Needs c x.pin es) (t : Nat) :
    u.Needs c x.pin (es ++ [.ld c t Config.levelWord v]) := by
  cases h with
  | read => trivial
  | press hu =>
    have hpin : x.pin ≤ 31 := by simpa only [Ctx.Placed, hu] using hp
    split
    · exact ⟨_, List.mem_concat_self, isSample_of_sampleOf (b := true) hpin ‹_› c t⟩
    · trivial
  | release hu =>
    have hpin : x.pin ≤ 31 := by simpa only [Ctx.Placed, hu] using hp
    have hhigh : SeenHigh c x.pin es := by simpa only [Upc.Needs, hu] using hx
    split
    · exact hhigh.press (isSample_of_sampleOf (b := false) hpin ‹_› c t)
    · exact hhigh.append _

/-- The end of a delay leaves what was seen, and the settling delay, long enough, completes it (R153, R270). -/
theorem DelayMove.needs {x y : Ctx} {d c t0 t1 : Nat} {f : State → State} {es : List Event} (h : DelayMove x d y f)
    (hx : x.upc.Needs c x.pin es) (hlong : t0 + d ≤ t1) : y.upc.Needs c y.pin (es ++ [.dly c d t0 t1]) := by
  cases h with
  | release hu =>
    have hhigh : SeenHigh c x.pin es := by simpa only [Upc.Needs, hu] using hx
    exact hhigh.append _
  | settle hu =>
    have hpress : SeenPress c x.pin es := by simpa only [Upc.Needs, hu] using hx
    exact ⟨es, t0, t1, rfl, hpress, hlong⟩
  | blinkLow => rw [Ctx.thenCompute_upc, blinkLoop]; split <;> trivial
  | wait => trivial
  | byteHold hs => exact needs_of_critical ((sendingByte_critical hs).2.2 _).1 _ _ _
  | byteEnd hs =>
    exact needs_of_critical (afterByte_critical (x := { x with delayFrom := none }) (r := (_, _, .y1)) hs).1 _ _ _
  | _ => trivial

end Sys2Proof.Machine

/-! PROOFS. The debounce filter for every interleaving and every draw (R154). -/

namespace Sys2Proof.Machine

/-- The events of the executing context's operation after an action that records an event which ends nothing. -/
theorem opEvents_of_hist {s t : State} {e : Event} (h : t.hist = s.hist ++ [e]) (hc : e.ctx = s.cur)
    (hend : e.ends = false) : opEvents s.cur t.hist = opEvents s.cur s.hist ++ [e] := by
  rw [h, opEvents_append_own hc hend]

/-- A context whose operation has ended has no events of it any more (R9, R224). -/
theorem debounced_of_end {s t : State} {e : Event} (h : t.hist = s.hist ++ [e]) (hc : e.ctx = s.cur)
    (hend : e.ends = true) (x : Ctx) (w : Word) : (x.finished w).Debounced s.cur (opEvents s.cur t.hist) := by
  rw [h, opEvents_append_end hc hend]
  exact ⟨fun _ => rfl, nofun⟩

/-- Every action leaves its context at a label whose history it has (R153, R154). -/
theorem Effect.debounced {x : Ctx} {s t : State} {cols : Nat} (hx : s.ctxs[s.cur]? = some x) (hr : x.status = .running)
    (hp : x.computed.Placed cols) (hs : x.Debounced s.cur (opEvents s.cur s.hist)) (hlong : ∀ e ∈ t.hist, e.LongEnough)
    (h : Effect x.computed s t) :
    ∃ y, t.ctxs = s.ctxs.set s.cur y ∧ y.Debounced s.cur (opEvents s.cur t.hist) := by
  have self := (set_cur_self hx).symm
  have hneeds : x.computed.upc.Needs s.cur x.computed.pin (opEvents s.cur s.hist) := hs.2 hr
  cases h with
  | opened => exact ⟨_, rfl, debounced_of_end rfl rfl rfl _ _⟩
  | raised => exact ⟨_, rfl, debounced_of_end rfl rfl rfl _ _⟩
  | closed => exact ⟨_, rfl, debounced_of_end rfl rfl rfl _ _⟩
  | returned => exact ⟨_, rfl, debounced_of_end rfl rfl rfl _ _⟩
  | openRefused => exact ⟨_, rfl, debounced_refusedFor _ _ _ _⟩
  | closeRefused => exact ⟨_, rfl, debounced_refusedFor _ _ _ _⟩
  | notReady => exact ⟨_, rfl, debounced_refusedFor _ _ _ _⟩
  | pin hm => exact ⟨_, rfl, debounced_of_running hr (hm.needs _ _ _)⟩
  | @direct _ u hm => exact ⟨x.computed.goto u, by simp, debounced_of_running hr (hm.needs _ _ _)⟩
  | fselLoad => exact ⟨_, rfl, debounced_of_running hr trivial⟩
  | fselStore => exact ⟨_, rfl, debounced_of_running hr trivial⟩
  | strayStore => exact ⟨_, rfl, debounced_of_running hr trivial⟩
  | @strayLoad l v =>
    exact ⟨{ x.computed with tmp := v, upc := .setmode l }, by simp, debounced_of_running hr trivial⟩
  | @sampled u v _ hm =>
    refine ⟨{ x.computed with tmp := v, res := sampleOf v x.computed.pin, upc := u }, by simp,
      debounced_of_running hr ?_⟩
    rw [opEvents_of_hist (s := s) (e := .ld s.cur s.now Config.levelWord v) (by simp) rfl rfl]
    exact hm.needs hp hneeds s.now
  | delayStarts => exact ⟨_, rfl, debounced_of_running hr hneeds⟩
  | held => exact ⟨x, self, hs⟩
  | waits => exact ⟨x, self, hs⟩
  | @delayEnds d y f t0 hm =>
    refine ⟨y, by rw [hm.frame]; rfl, debounced_of_running (hm.critical.2.trans hr) ?_⟩
    have hhist : ((f (s.record (.dly s.cur d t0 s.now))).putCtx y).hist = s.hist ++ [.dly s.cur d t0 s.now] := by
      rw [hm.frame]
      rfl
    rw [opEvents_of_hist hhist rfl rfl]
    exact hm.needs hneeds (hlong (.dly s.cur d t0 s.now) (hhist ▸ List.mem_concat_self))
  | initAcquired => exact ⟨_, rfl, debounced_of_running hr trivial⟩
  | acquired hm =>
    exact ⟨_, rfl, debounced_of_running (hm.critical.2.2.2.trans hr) (needs_of_critical hm.critical.2.1 _ _ _)⟩
  | released hm => exact ⟨_, rfl, debounced_of_running hr (hm.needs _ _ _)⟩

/-- The action of one context adds nothing to the operation of another (R14). -/
theorem Effect.opEvents_other {x : Ctx} {s t : State} (h : Effect x s t) {c : Nat} (hc : c ≠ s.cur) :
    opEvents c t.hist = opEvents c s.hist := by
  rcases h.hist with he | ⟨e, he, hec, _⟩
  · rw [he]
  · rw [he, opEvents_append_other (hec ▸ hc.symm)]

/-- Every action keeps the debounce invariant. -/
theorem State.DebounceOk.of_effect {s t : State} {x : Ctx} (hs : s.DebounceOk) (hx : s.ctxs[s.cur]? = some x)
    (hr : x.status = .running) (h : Effect x.computed s t) : t.DebounceOk := by
  obtain ⟨hplaced, hdelays, hdeb⟩ := hs
  have hdelayst := hdelays.of_effect hx hr h
  obtain ⟨y, ht, hy⟩ := h.debounced hx hr (hplaced.1 _ x hx hr) (hdeb _ x hx) hdelayst.2
  refine ⟨hplaced.of_effect hx hr h, hdelayst, forall_ctxs_of_set hx ht hy fun c z hc hz => ?_⟩
  rw [h.opEvents_other hc]
  exact hdeb c z hz

/-- A context that is written with no delay and no more seen than its label asks keeps the debounce invariant. -/
theorem State.DebounceOk.of_put {s : State} {x y : Ctx} (hs : s.DebounceOk) (hx : s.ctxs[s.cur]? = some x)
    (hplaced : y.status = .running → y.computed.Placed s.lcdCols) (hdelay : y.delayFrom = none)
    (hy : y.Debounced s.cur (opEvents s.cur s.hist)) : (s.putCtx y).DebounceOk := by
  obtain ⟨hplaceds, hdelays, hdeb⟩ := hs
  exact ⟨hplaceds.of_set hx rfl rfl hplaced, hdelays.of_idle hx hdelay,
    forall_ctxs_of_set hx rfl hy fun c z _ => hdeb c z⟩

/-- A request that is refused, some of its words taken off or none, keeps the debounce invariant (R226). -/
theorem State.DebounceOk.of_refused {s : State} {x y : Ctx} (hs : s.DebounceOk) (hx : s.ctxs[s.cur]? = some x)
    (hi : x.status = .idle) (hy : y.delayFrom = x.delayFrom) (r : RefuseReason) :
    (s.putCtx (y.refusedFor r)).DebounceOk := by
  obtain ⟨-, ⟨hdelays, -⟩, -⟩ := id hs
  have hnone : x.delayFrom = none := Ctx.DelayOk.none_of_idle (hdelays _ x hx) hi
  exact hs.of_put hx nofun (hy.trans hnone) (debounced_refusedFor y r _ _)

/-- A Running context has seen what its label asks, by the debounce invariant. -/
theorem State.DebounceOk.needs {s : State} (hs : s.DebounceOk) {c : Nat} {x : Ctx} (hx : s.ctxs[c]? = some x)
    (hr : x.status = .running) : x.upc.Needs c x.pin (opEvents c s.hist) := by
  obtain ⟨-, -, hdeb⟩ := hs
  exact (hdeb c x hx).2 hr

/-- Every step keeps the debounce invariant (R154). -/
theorem State.DebounceOk.of_step {s t : State} (hs : s.DebounceOk) (h : step s = .next t) : t.DebounceOk :=
  step_keeps State.DebounceOk (fun _ _ _ hs => hs) (fun _ _ hs => hs) (fun _ _ hs => hs)
    (fun _ _ hx hi hs => hs.of_refused hx hi rfl _)
    (fun _ x _ rest _ hx hi _ _ _ hs => hs.of_refused (y := { x with todo := rest }) hx hi rfl _)
    (fun s x i rest hx _ hq hok hd hs => by
      obtain ⟨hr, hu, hdelay, _⟩ := handed_fields { x with todo := rest } i hq
      refine hs.of_put hx (fun _ => placed_handed _ hq hok fun _ => decodeRequest_textLength hd) hdelay
        (debounced_of_running hr ?_)
      rw [hu]
      exact needs_firstUpc i _ _ _)
    (fun _ _ _ hx hr he hs => hs.of_effect hx hr he) s t hs h

/-! ### The action that returns (R9, R154) -/

theorem upc_of_operation_waitbtn {x : Ctx} {p : Byte} (h : x.operation = some (.waitbtn p)) :
    ∃ l, x.upc = .waitbtn l := by
  unfold Ctx.operation at h
  split at h
  case h_8 l hu => exact ⟨l, hu⟩
  all_goals cases h

/-- A delay that only moves its context on records itself or nothing (R270). -/
theorem delayAct_hist {d : Nat} {x : Ctx} {s t : State} {u : Upc}
    (h : delayAct d x s (fun y r => .next (r.putCtx (y.goto u))) = .next t) :
    t.hist = s.hist ∨ ∃ t0, t.hist = s.hist ++ [.dly s.cur d t0 s.now] := by
  rcases delayAct_next h with ⟨_, rfl⟩ | ⟨_, _, _, rfl⟩ | ⟨t0, _, _, hk⟩
  · exact .inl rfl
  · exact .inl rfl
  · obtain rfl := next_inj hk
    exact .inr ⟨t0, rfl⟩

/-- A sample records its load (R132, R153). -/
theorem sampleAct_hist {x : Ctx} {s t : State} {u : Ctx → Upc}
    (h : sampleAct x s (fun y r => .next (r.putCtx (y.goto (u y)))) = .next t) :
    ∃ v, t.hist = s.hist ++ [.ld s.cur s.now Config.levelWord v] := by
  simp only [sampleAct, loadAct_level] at h
  obtain rfl := next_inj h
  exact ⟨levelWord s.fsel s.out s.takeDraw.1, by simp⟩

/-- Of the actions of WAITBTN only the last one returns (R153). -/
theorem waitbtnAct_returns {l : WaitLabel} {x : Ctx} {s t : State} {c now : Nat} {v : Option (BitVec 1)}
    (h : waitbtnAct l x s = .next t) (ht : t.hist = s.hist ++ [.ret c now v]) : l = .s1 := by
  have samples {u : Ctx → Upc} (h : sampleAct x s (fun y r => .next (r.putCtx (y.goto (u y)))) = .next t) : False := by
    obtain ⟨_, he⟩ := sampleAct_hist h
    simp [he] at ht
  have delays {d : Nat} {u : Upc} (h : delayAct d x s (fun y r => .next (r.putCtx (y.goto u))) = .next t) : False := by
    rcases delayAct_hist h with he | ⟨_, he⟩ <;> simp [he] at ht
  cases l <;> simp only [waitbtnAct] at h
  case p0 => exact (samples h).elim
  case p1 => exact (delays h).elim
  case r0 => exact (samples h).elim
  case r1 => exact (delays h).elim
  case s0 => exact (delays h).elim
  case s1 => rfl

/-- Settles O55: the invariant is kept by every step, and at `s1`, the one label whose action returns, it is the press,
the release and the 50 000 µs. -/
theorem debounceHolds : Obligations.DebounceHolds := by
  refine ⟨fun s t hs h => hs.of_step h, fun s t x hs hx hop h hret => ?_⟩
  obtain ⟨l, hu⟩ := upc_of_operation_waitbtn hop
  rw [exec_waitbtn hx hu] at h
  obtain rfl := waitbtnAct_returns h hret
  obtain ⟨y, hy, hr, rfl⟩ := hx
  have hneeds := hs.needs hy hr
  rw [show y.upc = .waitbtn .s1 from hu] at hneeds
  exact hneeds

end Sys2Proof.Machine

/-! PROOFS. The Blink Sequencer: BLINK run alone, for every count (R170, R270). -/

namespace Sys2Proof.Machine

/-! ### A level driven and held (R170, R270) -/

/-- The state once pin `p` is driven to `l` by a direct write and the level has been held for 200 000 µs (R170). -/
def State.held (s : State) (p : Nat) (l : Level) : State := ((s.storedPin p l).shadowLost p).waited Config.tBlink

section

variable (s : State) (p : Nat) (l : Level)

@[simp] theorem State.held_now : (s.held p l).now = s.now + 200000 := by simp [State.held, State.waited, Config.tBlink]

@[simp] theorem State.held_hist : (s.held p l).hist =
    s.hist ++ [pinEvent s.cur s.now p l, .dly s.cur 200000 s.now (s.now + 200000)] := by
  simp [State.held, State.waited, Config.tBlink]

@[simp] theorem State.held_out : (s.held p l).out = outAfter s.out p l := by simp [State.held, State.waited]
@[simp] theorem State.held_fsel : (s.held p l).fsel = s.fsel := by simp [State.held, State.waited]
@[simp] theorem State.held_lock : (s.held p l).lock = s.lock := by simp [State.held, State.waited]
@[simp] theorem State.held_mapState : (s.held p l).mapState = s.mapState := by simp [State.held, State.waited]
@[simp] theorem State.held_cur : (s.held p l).cur = s.cur := by simp [State.held, State.waited]
@[simp] theorem State.held_ctxs : (s.held p l).ctxs = s.ctxs := by simp [State.held, State.waited]

end

/-- A context that is written Running runs once the update left to it is done (R10). -/
theorem runs_computed {s t : State} {x y : Ctx} (h : s.Runs x) (hctxs : t.ctxs = s.ctxs.set s.cur y)
    (hcur : t.cur = s.cur) (hr : y.status = .running) : t.Runs y.computed := by
  obtain ⟨z, hz, -⟩ := h
  refine ⟨y, ?_, hr, rfl⟩
  rw [State.me, hctxs, hcur, getElem?_set_cur hz, if_pos rfl]

/-! ### The context of a BLINK (R170) -/

/-- The context runs BLINK on pin `p` with `m` blinks still to count, and nothing is in progress. -/
structure Ctx.Counts (x : Ctx) (p : Byte) (m : Nat) : Prop where
  running : x.status = .running
  between : x.between = .nothing
  noDelay : x.delayFrom = none
  pin : x.a = p
  count : x.cnt.toNat = m

/-- The count stands while the context moves on. -/
theorem Ctx.Counts.goto {x : Ctx} {p : Byte} {m : Nat} (h : x.Counts p m) (u : Upc) : (x.goto u).Counts p m :=
  ⟨h.running, h.between, h.noDelay, h.pin, h.count⟩

/-- The count stands while a delay passes. -/
theorem Ctx.Counts.withDelay {x : Ctx} {p : Byte} {m : Nat} (h : x.Counts p m) (w : Nat) :
    (x.withDelay w none).Counts p m :=
  ⟨h.running, h.between, rfl, h.pin, h.count⟩

/-- The count-down leaves one blink less (R10, R170). -/
theorem Ctx.Counts.countDown {x : Ctx} {p : Byte} {m : Nat} (h : x.Counts p (m + 1)) :
    (x.thenCompute .countDown blinkLoop).computed.Counts p m := by
  refine ⟨h.running, rfl, h.noDelay, h.pin, ?count⟩
  have hone : (1#16).toNat ≤ x.cnt.toNat := by simp [h.count]
  calc (x.cnt - 1#16).toNat
    _ = x.cnt.toNat - 1 := BitVec.toNat_sub_of_le hone
    _ = m := by rw [h.count, Nat.add_sub_cancel]

/-- With no blink left the loop test goes to the `Return`. -/
theorem Ctx.Counts.blinkLoop_zero {x : Ctx} {p : Byte} (h : x.Counts p 0) : blinkLoop x = .blink .b4 :=
  if_pos (BitVec.eq_of_toNat_eq h.count)

/-- With a blink left the loop test goes to the store to SET. -/
theorem Ctx.Counts.blinkLoop_succ {x : Ctx} {p : Byte} {m : Nat} (h : x.Counts p (m + 1)) :
    blinkLoop x = .blink .b0 :=
  if_neg fun h0 => by simpa [h0] using h.count

theorem cnt_handed_blink (x : Ctx) (p : Byte) (n : BitVec 16) : (x.handed (.blink p n)).computed.cnt = n := by
  rw [Ctx.handed_pack x rfl]
  exact joinBytes_high_low n

/-- The hand-over of BLINK, with `CNT <- times` done, leaves `times` blinks to count (R10, R170). -/
theorem counts_handed (x : Ctx) (p : Byte) (n : BitVec 16) : (x.handed (.blink p n)).computed.Counts p n.toNat := by
  refine ⟨?running, rfl, ?noDelay, ?pin, congrArg _ (cnt_handed_blink x p n)⟩
  all_goals
    rw [Ctx.handed_pack x rfl]
    rfl

/-- The hand-over of BLINK places its context where the loop test goes (R24, R170). -/
theorem upc_handed_blink (x : Ctx) (p : Byte) (n : BitVec 16) :
    (x.handed (.blink p n)).computed.upc = blinkLoop (x.handed (.blink p n)).computed := by
  rw [blinkLoop, cnt_handed_blink, Ctx.handed_pack x rfl]
  rfl

/-! ### Whole blinks (R170) -/

/-- A pin store of BLINK at `drive` and the hold of its level at `hold`, as a run that goes on to `next` (R170). -/
theorem solo_held {p : Byte} {n : BitVec 16} {s : State} {x : Ctx} {m : Nat} {l : Level} {drive hold : BlinkLabel}
    {next : Ctx → Ctx} (hx : s.Runs x) (hc : x.Counts p m) (hu : x.upc = .blink drive)
    (hdrive : ∀ y r, blinkAct drive y r = directPinWrite y.pin l r fun r => .next (r.putCtx (y.goto (.blink hold))))
    (hhold : ∀ y r, blinkAct hold y r = delayAct Config.tBlink y r fun y r => .next (r.putCtx (next y))) (k : Nat) :
    ∃ y : Ctx, y.Counts p m ∧
      solo (.blink p n) (k + 3) s = solo (.blink p n) k ((s.held p.toNat l).putCtx (next y)) := by
  have hpin : x.pin = p.toNat := congrArg _ hc.pin
  have hstored : exec (.blink p n) s =
      .next (((s.storedPin p.toNat l).shadowLost p.toNat).putCtx (x.goto (.blink hold))) := by
    rw [exec_blink hx hu, hdrive, directPinWrite_stored, hpin]
  have hruns : (((s.storedPin p.toNat l).shadowLost p.toNat).putCtx (x.goto (.blink hold))).Runs
      (x.goto (.blink hold)) := runs_of_set hx (by simp) (by simp) hc.running hc.between
  have hrule (r : State) (w : Nat) (t0 : Option Nat) (hrun : r.Runs ((x.goto (.blink hold)).withDelay w t0)) :
      DelayRule (.blink p n) ((x.goto (.blink hold)).withDelay w t0) r Config.tBlink
        fun r => r.putCtx (next ((x.goto (.blink hold)).withDelay w none)) :=
    delayRule_of_delayAct ((exec_blink hrun rfl).trans (hhold _ _)) fun _ => rfl
  refine ⟨(x.goto (.blink hold)).withDelay (s.now + Config.tBlink) none, (hc.goto _).withDelay _, ?_⟩
  rw [solo_action hx hc.noDelay hstored,
    solo_delay hruns hc.noDelay (fin := fun y r => r.putCtx (next (y.withDelay y.wake none))) hrule]
  simp [State.held, State.waited, State.putCtx, Ctx.withDelay]

/-- A pin driven high and then low is low, and the other latch bits are as they were (R53, R54). -/
theorem getLsbD_outAfter_pulse (out : Word) (p : Nat) {k : Nat} (hk : k < 32) :
    (outAfter (outAfter out p .high) p .low).getLsbD k = if k = p then false else out.getLsbD k := by
  rw [getLsbD_outAfter _ _ _ hk, getLsbD_outAfter _ _ _ hk, Level.toBool]
  split <;> rfl

/-- What `m` blinks on pin `p` by the executing context make of `s`: the time, the events, the pin's latch bit, and what
they leave as it is (R170). -/
structure State.Blinked (s t : State) (p m : Nat) : Prop where
  now : t.now = s.now + 400000 * m
  hist : t.hist = s.hist ++ blinkEvents s.cur p s.now m
  out : ∀ k, k < 32 → t.out.getLsbD k = if k = p ∧ m ≠ 0 then false else s.out.getLsbD k
  fsel : t.fsel = s.fsel
  lock : t.lock = s.lock
  mapState : t.mapState = s.mapState
  cur : t.cur = s.cur

theorem State.Blinked.refl (s : State) (p : Nat) : s.Blinked s p 0 :=
  ⟨rfl, (List.append_nil _).symm, fun _ _ => by simp, rfl, rfl, rfl, rfl⟩

/-- The pin driven high and held, then low and held, is one blink more (R170). -/
theorem State.Blinked.cons {s t : State} {p m : Nat} {y z : Ctx}
    (h : ((((s.held p .high).putCtx y).held p .low).putCtx z).Blinked t p m) : s.Blinked t p (m + 1) := by
  obtain ⟨hnow, hhist, hout, hfsel, hlock, hmap, hcur⟩ := h
  refine ⟨?now, ?hist, fun k hk => ?out, ?fsel, ?lock, ?mapState, ?cur⟩
  case now =>
    simp only [State.putCtx_now, State.held_now] at hnow
    omega
  case hist => simpa [blinkEvents, Nat.add_assoc] using hhist
  case out =>
    have hbits : (k = p ∧ m ≠ 0 ∨ k = p) ↔ (k = p ∧ m + 1 ≠ 0) := by omega
    have hrest := hout k hk
    rw [State.putCtx_out, State.held_out, State.putCtx_out, State.held_out, getLsbD_outAfter_pulse _ _ hk, ← ite_or]
      at hrest
    exact hrest.trans (if_congr hbits rfl rfl)
  case fsel => simpa using hfsel
  case lock => simpa using hlock
  case mapState => simpa using hmap
  case cur => simpa using hcur

/-- A blink as a run of six actions: it leaves its context at the loop test with one blink less to count (R170). -/
theorem solo_blink {p : Byte} {n : BitVec 16} {s : State} {x : Ctx} {m : Nat} (hx : s.Runs x)
    (hc : x.Counts p (m + 1)) (hu : x.upc = blinkLoop x) (k : Nat) :
    ∃ y z : Ctx, z.Counts p (m + 1) ∧
      solo (.blink p n) (k + 6) s =
        solo (.blink p n) k
          ((((s.held p.toNat .high).putCtx y).held p.toNat .low).putCtx (z.thenCompute .countDown blinkLoop)) := by
  obtain ⟨y, hy, hhigh⟩ := solo_held (n := n) (l := .high) (next := fun y => y.goto (.blink .b2)) hx hc
    (hu.trans hc.blinkLoop_succ) (fun _ _ => rfl) (fun _ _ => rfl) (k + 3)
  have hruns : ((s.held p.toNat .high).putCtx (y.goto (.blink .b2))).Runs (y.goto (.blink .b2)) :=
    runs_of_set hx (by simp) (by simp) hy.running hy.between
  obtain ⟨z, hz, hlow⟩ := solo_held (n := n) (l := .low) (next := fun y => y.thenCompute .countDown blinkLoop) hruns
    (hy.goto _) rfl (fun _ _ => rfl) (fun _ _ => rfl) k
  exact ⟨_, z, hz, hhigh.trans hlow⟩

/-- All the blinks that are left, as a run (R170). -/
theorem solo_blinks {p : Byte} {n : BitVec 16} {s : State} {x : Ctx} {m : Nat} (hx : s.Runs x) (hc : x.Counts p m)
    (hu : x.upc = blinkLoop x) (k : Nat) :
    ∃ (t : State) (y : Ctx), t.Runs y ∧ y.Counts p 0 ∧ y.upc = blinkLoop y ∧ s.Blinked t p.toNat m ∧
      solo (.blink p n) (k + 6 * m) s = solo (.blink p n) k t := by
  induction m generalizing s x with
  | zero => exact ⟨s, x, hx, hc, hu, .refl s _, rfl⟩
  | succ m ih =>
    obtain ⟨y, z, hz, hblink⟩ := solo_blink (n := n) hx hc hu (k + 6 * m)
    have hruns : ((((s.held p.toNat .high).putCtx y).held p.toNat .low).putCtx
        (z.thenCompute .countDown blinkLoop)).Runs (z.thenCompute .countDown blinkLoop).computed :=
      runs_computed hx (by simp) (by simp) hz.running
    obtain ⟨t, w, ht, hw, hreturn, hblinked, hblinks⟩ := ih hruns hz.countDown rfl
    exact ⟨t, w, ht, hw, hreturn, .cons hblinked, hblink.trans hblinks⟩

/-! ### BLINK as a run (R93, R170) -/

/-- The hand-over of BLINK, as a run (R93, R227, R228). -/
theorem solo_blink_handed {p : Byte} {s : State} {x : Ctx} (hs : s.Starts x) (hp : p.toNat ≤ 31) (n : BitVec 16)
    (k : Nat) : solo (.blink p n) (k + 1) s = solo (.blink p n) k (s.putCtx (x.handed (.blink p n))) := by
  obtain ⟨hx, hidle, hnodelay, hmap⟩ := hs
  have haccepted : s.refusalOf (.blink p n) = none := by
    simp [State.refusalOf, hmap, pinRange, rowOperand, colOperand, hp]
  exact solo_step hx hnodelay (handOverLoadsOperands (.blink p n) s x hx hidle rfl haccepted) k

/-- Settles O40: the hand-over, `times` blinks by induction on the count, the `Return`. -/
theorem blinkRun : Obligations.BlinkRun := by
  intro p n s x hs hp
  obtain ⟨hx, -, -, hmapped⟩ := id hs
  have hhanded := counts_handed x p n
  have hruns : (s.putCtx (x.handed (.blink p n))).Runs (x.handed (.blink p n)).computed :=
    ⟨_, me_putCtx hx _, hhanded.running, rfl⟩
  obtain ⟨t, y, ht, hy, hu, hblinked, hblinks⟩ := solo_blinks (n := n) hruns hhanded (upc_handed_blink x p n) 1
  have hreturn : exec (.blink p n) t = .next (t.returned y) := exec_blink ht (hu.trans hy.blinkLoop_zero)
  have hcount : 6 * n.toNat + 2 = 1 + 6 * n.toNat + 1 := by omega
  have hrun : solo (.blink p n) (6 * n.toNat + 2) s = .next (t.returned y) := by
    rw [hcount, solo_blink_handed hs hp, hblinks, solo_action ht hy.noDelay hreturn]
    rfl
  obtain ⟨hnow, hhist, hout, hfsel, hlock, hmap, hcur⟩ := hblinked
  obtain ⟨z, hz, -⟩ := id ht
  refine ⟨_, hrun, hnow, ?hist, fun k hk => ?out, hfsel, hlock, hmap.trans hmapped, answered_returned hz y⟩
  case hist =>
    change t.hist ++ [.ret t.cur t.now none] = _
    rw [hhist, hcur, hnow]
    rfl
  case out =>
    have hzero : n.toNat ≠ 0 ↔ n ≠ 0#16 := not_congr (BitVec.toNat_eq (y := 0#16)).symm
    exact (hout k hk).trans (if_congr (and_congr_right' hzero) rfl rfl)

end Sys2Proof.Machine

/-! SUPPORT. The stores and the EN holds of a nibble and of a byte, and what LCDINIT and the rows INIT3 and INIT2 run on a
Running context (R86, R182, R183, R187). -/

namespace Sys2Proof.Machine

/-! ### The actions of LcdNibble (R182) -/

/-- A nibble goes on after each of its stores: its last label is a delay (R182). -/
theorem next_of_nibbleStore {n : Nibble} {l : NibbleLabel} {r : Nat × Level} (h : nibbleStore n l = some r) :
    ∃ l', l.next = some l' := by
  cases l with
  | n5 => cases h
  | n7 => cases h
  | _ => exact ⟨_, rfl⟩

/-- A store of LcdNibble (R182). -/
theorem nibbleAct_store {n : Nibble} {l l' : NibbleLabel} {p : Nat} {v : Level} (hs : nibbleStore n l = some (p, v))
    (hl : l.next = some l') (here : NibbleLabel → Upc) (after : Upc) (x : Ctx) (s : State) :
    nibbleAct n l here after x s = .next ((s.storedPin p v).putCtx (x.goto (here l'))) := by
  cases l <;> cases hs <;> cases hl <;> exact pinWrite_stored _ _ _ _

/-! ### The actions of LcdByte (R183) -/

/-- A store of LcdByte (R183). -/
theorem byteAct_store {rs : Rs} {b : Byte} {y y' : ByteLabel} {p : Nat} {v : Level}
    (hs : byteStore rs b y = some (p, v)) (hy : y.next = some y') (x : Ctx) (s : State) :
    byteAct rs b y x s = .next ((s.storedPin p v).putCtx (x.goto (x.upc.atByte y'))) := by
  cases y with
  | y0 =>
    cases hs
    cases hy
    exact pinWrite_stored _ _ _ _
  | high l =>
    obtain ⟨l', hl⟩ := next_of_nibbleStore hs
    simp only [ByteLabel.next, hl, Option.some.injEq] at hy
    rw [byteAct, nibbleAct_store hs hl, hy]
  | low l =>
    obtain ⟨l', hl⟩ := next_of_nibbleStore hs
    simp only [ByteLabel.next, hl, Option.some.injEq] at hy
    rw [byteAct, nibbleAct_store hs hl, hy]
  | y1 => cases hs

/-- An EN hold of LcdByte is a delay of 1 µs (R182, R183). -/
theorem byteAct_hold {rs : Rs} {b : Byte} {y y' : ByteLabel}
    (h : y = .high .n5 ∨ y = .high .n7 ∨ y = .low .n5 ∨ y = .low .n7) (hy : y.next = some y') (x : Ctx) (s : State) :
    byteAct rs b y x s = delayAct 1 x s fun z r => .next (r.putCtx (z.goto (x.upc.atByte y'))) := by
  rcases h with rfl | rfl | rfl | rfl <;> cases hy <;> rfl

/-! ### LCDINIT and its rows (R86, R187) -/

/-- A Running context at a label of LCDINIT takes LCDINIT's action there. -/
theorem exec_lcdinit {s : State} {x : Ctx} {l : InitLabel} (hx : s.Runs x) (hu : x.upc = .lcdinit l) :
    exec .lcdinit s = lcdinitAct l x s := by
  simp only [exec, execLcdinit, onContext_runs hx, hu]

/-- The wait after nibble `k` of the initialization: after the last of them the display is Ready (R31, R187). -/
theorem delayRule_initWait {k : InitNibble} {s : State} {x : Ctx} (hx : s.Runs x) (hu : x.upc = .lcdinit (.wait k)) :
    DelayRule .lcdinit x s (initWait k) fun r =>
      ({ r with lcdState := lcdStateAfter k r.lcdState } : State).putCtx
        { x with delayFrom := none, upc := .lcdinit k.after } :=
  delayRule_of_delayAct (by rw [exec_lcdinit hx hu, lcdinitAct]) fun _ => rfl

/-- `Release` of LCDINIT (R181, R187). -/
theorem exec_initRelease {s : State} {x : Ctx} (hx : s.Runs x) (hu : x.upc = .lcdinit .i8)
    (hlock : s.lock = .held s.cur) :
    exec .lcdinit s = .next
      (({ s with lock := .free, hist := s.hist ++ [.rel s.cur s.now] } : State).putCtx (x.goto (.lcdinit .i9))) := by
  simp only [exec_lcdinit hx hu, lcdinitAct, releaseAct, hlock, if_true]
  rfl

/-- `Return` of LCDINIT (R9, R187). -/
theorem exec_initReturn {s : State} {x : Ctx} (hx : s.Runs x) (hu : x.upc = .lcdinit .i9) :
    exec .lcdinit s = .next (s.returned x) := by
  rw [exec_lcdinit hx hu, lcdinitAct, returnAct_none]

/-- A row of the LCD bus that is a nibble sends that nibble (R86). -/
theorem exec_of_nibbleRow {i : Instr} {rs : Rs} {n : Nibble} (hi : encode i = .nibble rs n) (s : State) :
    exec i s = sendNibble n s := by
  cases i <;> cases hi <;> rfl

/-- Sending a nibble, in a context that is sending it, is the action of LcdNibble (R182, R187). -/
theorem sendNibble_of_sending {k : InitNibble} {l : NibbleLabel} {s : State} {x : Ctx} (hx : s.Runs x)
    (hu : x.upc = .lcdinit (.nibble k l)) : sendNibble (initNibbleValue k) s = initNibbleAct k l x s := by
  simp [sendNibble, insideOperation, onContext_runs hx, Ctx.sendingNibble, hu]

/-- An initialization nibble's next action, through LCDINIT or through the row of the LCD bus, is that of LcdNibble. -/
theorem exec_of_initNibble {i : Instr} {k : InitNibble} {l : NibbleLabel} {s : State} {x : Ctx} (hx : s.Runs x)
    (hu : x.upc = .lcdinit (.nibble k l)) (hi : i = .lcdinit ∨ encode i = .nibble .command (initNibbleValue k)) :
    exec i s = initNibbleAct k l x s := by
  rcases hi with rfl | hrow
  · rw [exec_lcdinit hx hu, lcdinitAct]
  · rw [exec_of_nibbleRow hrow, sendNibble_of_sending hx hu]

theorem initNibbleValue_eq (k : InitNibble) : initNibbleValue k = if k = .commit then 0x2#4 else 0x3#4 := by
  cases k <;> rfl

end Sys2Proof.Machine

/-! PROOFS. The statements about the single actions of the LCD Controller (R180 to R183, R187). -/

namespace Sys2Proof.Machine

/-- Settles O30: `Release` and `Return` of the operations that need Ready. -/
theorem lcdReleases : Obligations.LcdReleases := fun _ _ _ hx =>
  ⟨fun _ hu hret hlock => exec_lcdRelease hx hu hret hlock, exec_lcdReturn hx⟩

/-- Settles O31: the action of LcdByte at a label that stores is that store. -/
theorem byteStores : Obligations.ByteStores := by
  intro i s x rs b y y' p l hx hs hi hstore hnext
  rw [exec_of_sendsBy hx hs hi, byteAct_store hstore hnext]
  rfl

/-- Settles O32: the action of LcdByte at an EN hold is a delay of 1 µs. -/
theorem byteHolds : Obligations.ByteHolds := by
  intro i s x rs b y y' hx hs hi hy hnext
  exact delayRule_of_delayAct ((exec_of_sendsBy hx hs hi).trans (byteAct_hold hy hnext x s)) fun _ => rfl

/-- Settles O34: the action at a nibble's label is that of LcdNibble, a store or an EN hold. -/
theorem initNibbleActs : Obligations.InitNibbleActs := by
  rintro i s x k l _ hx hu rfl hi
  rw [← initNibbleValue_eq] at hi ⊢
  have he : exec i s = initNibbleAct k l x s := exec_of_initNibble hx hu hi
  refine ⟨fun p v l' hstore hnext => ?store, ?high, ?low⟩
  case store =>
    rw [he, initNibbleAct, nibbleAct_store hstore hnext]
    rfl
  case high =>
    rintro rfl
    exact delayRule_of_delayAct (by rw [he, initNibbleAct, nibbleAct]; rfl) fun _ => rfl
  case low =>
    rintro rfl
    exact delayRule_of_delayAct (by rw [he, initNibbleAct, nibbleAct]; rfl) fun _ => rfl

/-- Settles O35: each label of LCDINIT by its own action. -/
theorem lcdinitActs : Obligations.LcdinitActs := by
  intro s x hx
  refine ⟨fun c hu hheld => ?held, fun hu hfree => ?taken, fun hu => ?rsLow, fun hu => ?enLow, fun hu => ?settle,
    delayRule_initWait hx, delayRule_initWait hx, delayRule_initWait hx, delayRule_initWait hx,
    exec_initRelease hx, exec_initReturn hx⟩
  case held => simp only [exec_lcdinit hx hu, lcdinitAct, acquireAct, hheld]
  case taken =>
    simp only [exec_lcdinit hx hu, lcdinitAct, acquireAct, hfree]
    rfl
  case rsLow =>
    rw [exec_lcdinit hx hu, lcdinitAct, pinWrite_stored]
    rfl
  case enLow =>
    rw [exec_lcdinit hx hu, lcdinitAct, pinWrite_stored]
    rfl
  case settle => exact delayRule_of_delayAct (by rw [exec_lcdinit hx hu, lcdinitAct]; rfl) fun _ => rfl

/-- Settles O28: `Acquire` by the lock; of the operations that need Ready whether they are accepted or refused. -/
theorem acquireTakesTheLock : Obligations.AcquireTakesTheLock := by
  intro i s x hx hu
  rcases hu with hu | ⟨rfl, hu⟩
  · obtain ⟨hheld, haccepted, hrefused⟩ := lcdAcquires i s x hx hu
    refine ⟨hheld, fun hfree => ?_⟩
    by_cases hready : s.lcdState = .ready
    · exact ⟨_, haccepted hfree hready, rfl, rfl⟩
    · exact ⟨_, hrefused hfree hready, rfl, rfl⟩
  · obtain ⟨hheld, htaken, -⟩ := lcdinitActs s x hx
    exact ⟨fun c => hheld c hu, fun hfree => ⟨_, htaken hu hfree, rfl, rfl⟩⟩

/-- Settles O50: the lock invariant is kept by every turn. -/
theorem lockIsKept : Obligations.LockIsKept := fun _ _ hs h => hs.of_step h

end Sys2Proof.Machine

/-! PROOFS. What the display samples (R186), and the table of the shadow (R199). -/

namespace Sys2Proof.Machine

/-! ### The latch event of a change of OUT (R186) -/

theorem lcdPinsDriven_iff (f : Fsel) : lcdPinsDriven f = true ↔ ∀ p ∈ lcdPins, f.func p = 0b001#3 := by
  simp only [lcdPinsDriven, Bool.and_eq_true, decide_eq_true_eq, and_assoc, lcdPins, List.forall_mem_cons,
    List.not_mem_nil, false_implies, implies_true, and_true]
  rfl

/-- A latch event needs all three: EN was high, EN is low, the display's pins are driven (R186). -/
theorem latchEvents_eq (f : Fsel) (old new : Word) :
    latchEvents f old new =
      if old.getLsbD 24 = true ∧ new.getLsbD 24 = false ∧ ∀ p ∈ lcdPins, f.func p = 0b001#3 then [latchOf new]
      else [] := by
  simp [latchEvents, Config.lcdEn, lcdPinsDriven_iff, and_assoc]

theorem getLsbD_latchOf_rs (out : Word) : (latchOf out).rs.getLsbD 0 = out.getLsbD 25 := by
  simp [latchOf, Config.lcdRs]

/-- The sampled nibble, bit by bit: D4 is bit 0 up to D7, bit 3 (R84, R186). -/
theorem getLsbD_latchOf_nibble (out : Word) {j : Nat} (hj : j < 4) :
    (latchOf out).nibble.getLsbD j =
      if j = 3 then out.getLsbD 22 else if j = 2 then out.getLsbD 27 else if j = 1 then out.getLsbD 10
      else out.getLsbD 23 := by
  simp only [latchOf, Config.lcdD4, Config.lcdD5, Config.lcdD6, Config.lcdD7, BitVec.getLsbD_or,
    getLsbD_lineBit _ _ _ hj, Nat.reduceLT]
  interval_cases j <;> simp

/-- Settles O16: the latch event by the two levels of EN and the pins' modes, and the sampled lines bit by bit. -/
theorem latchAtFallingEnable : Obligations.LatchAtFallingEnable := by
  intro f old new
  refine ⟨fun hdriven hold hnew => ?event, fun hnot => ?noEvent⟩
  case event =>
    refine ⟨latchOf new, by rw [latchEvents_eq, if_pos ⟨hold, hnew, hdriven⟩], getLsbD_latchOf_rs new, ?_⟩
    exact ⟨getLsbD_latchOf_nibble new (j := 3) (by decide), getLsbD_latchOf_nibble new (j := 2) (by decide),
      getLsbD_latchOf_nibble new (j := 1) (by decide), getLsbD_latchOf_nibble new (j := 0) (by decide)⟩
  case noEvent =>
    rw [latchEvents_eq, if_neg]
    rintro ⟨hold, hnew, hdriven⟩
    exact hnot ⟨hdriven, hold, hnew⟩

/-! ### The shadow (R199) -/

/-- The row of R199's table for the command byte `b`: what `lcd_cursor` and `lcd_display_on` become. -/
def CommandRow (b : Byte) (cursor : Option (BitVec 7) → Option (BitVec 7)) (on : Option Bool → Option Bool) : Prop :=
  (∀ cols c, cursorAfter cols .command b c = cursor c) ∧ ∀ o, displayOnAfter .command b o = on o

/-- A command byte of at least 0x80 sets the cursor to its low seven bits. -/
theorem commandRow_address {b : Byte} (h : 0x80 ≤ b.toNat) : CommandRow b (fun _ => some (b.setWidth 7)) id := by
  have haddr : b.extractLsb' 0 7 = b.setWidth 7 := by
    apply BitVec.eq_of_getLsbD_eq
    intro j hj
    simp [hj]
  exact ⟨fun _ _ => by rw [cursorAfter, if_pos h, haddr], fun _ => if_pos h⟩

/-- Clear and home set the cursor to 0 (PRESUMED, entry 19). -/
theorem commandRow_home {b : Byte} (h : b = 0x01#8 ∨ b = 0x02#8 ∨ b = 0x03#8) :
    CommandRow b (fun _ => some 0#7) id := by
  rcases h with rfl | rfl | rfl <;> exact ⟨fun _ _ => rfl, fun _ => rfl⟩

/-- From 0x08 to 0x0F bit 2 is the display-on flag (PRESUMED, entry 19). -/
theorem commandRow_display {b : Byte} (hlo : 0x08 ≤ b.toNat) (hhi : b.toNat ≤ 0x0F) :
    CommandRow b id fun _ => some (b.getLsbD 2) := by
  have haddr : ¬ 0x80 ≤ b.toNat := by omega
  have hhome : ¬ (b = 0x01#8 ∨ b = 0x02#8 ∨ b = 0x03#8) := by
    rintro (rfl | rfl | rfl) <;> simp at hlo
  constructor
  · intro cols c
    simp only [cursorAfter, haddr, hhome, hlo, hhi, and_self, if_true, if_false, id]
  · intro on
    simp only [displayOnAfter, haddr, hhome, hlo, hhi, and_self, if_true, if_false]

/-- The function set and the entry mode of the initialization leave the shadow alone (PRESUMED, entry 19). -/
theorem commandRow_config {b : Byte} (h : b = 0x28#8 ∨ b = 0x06#8) : CommandRow b id id := by
  rcases h with rfl | rfl <;> exact ⟨fun _ _ => rfl, fun _ => rfl⟩

/-- Every other command byte makes the shadow Unknown. -/
theorem commandRow_unknown {b : Byte}
    (h : b.toNat = 0 ∨ b.toNat = 4 ∨ b.toNat = 5 ∨ b.toNat = 7 ∨
      (0x10 ≤ b.toNat ∧ b.toNat < 0x80 ∧ b.toNat ≠ 0x28)) :
    CommandRow b (fun _ => none) fun _ => none := by
  have haddr : ¬ 0x80 ≤ b.toNat := by omega
  have hdisplay : ¬ (0x08 ≤ b.toNat ∧ b.toNat ≤ 0x0F) := by omega
  have hhome : ¬ (b = 0x01#8 ∨ b = 0x02#8 ∨ b = 0x03#8) := by
    rintro (rfl | rfl | rfl) <;> simp at h
  have hconfig : ¬ (b = 0x28#8 ∨ b = 0x06#8) := by
    rintro (rfl | rfl) <;> simp at h
  constructor
  · intro cols c
    simp only [cursorAfter, haddr, hhome, hdisplay, hconfig, if_false]
  · intro on
    simp only [displayOnAfter, haddr, hhome, hdisplay, hconfig, if_false]

theorem shadowUpdate_of_ready {s : State} (h : s.lcdState = .ready) (rs : Rs) (b : Byte) :
    s.shadowUpdate rs b =
      { s with
        lcdCursor := cursorAfter s.lcdCols rs b s.lcdCursor
        lcdDisplayOn := displayOnAfter rs b s.lcdDisplayOn } :=
  if_pos h

/-- A command byte sent in Ready changes the shadow as its row of the table says. -/
theorem shadowUpdate_command {s : State} {b : Byte} {cursor : Option (BitVec 7) → Option (BitVec 7)}
    {on : Option Bool → Option Bool} (h : s.lcdState = .ready) (hrow : CommandRow b cursor on) :
    s.shadowUpdate .command b = { s with lcdCursor := cursor s.lcdCursor, lcdDisplayOn := on s.lcdDisplayOn } := by
  rw [shadowUpdate_of_ready h, hrow.1, hrow.2]

/-- A data byte sent in Ready moves the cursor, and leaves the display-on flag alone. -/
theorem shadowUpdate_data {s : State} {b : Byte} {c : Option (BitVec 7)} (h : s.lcdState = .ready)
    (hc : cursorAfter s.lcdCols .data b s.lcdCursor = c) : s.shadowUpdate .data b = { s with lcdCursor := c } := by
  rw [shadowUpdate_of_ready h, hc, displayOnAfter]

/-- Settles O36: the rows of the table, one by one. -/
theorem shadowFollowsBytes : Obligations.ShadowFollowsBytes := by
  intro s b
  refine ⟨fun hnot rs => if_neg hnot, fun hready => ⟨fun h => ?address, fun h => ?home, fun hlo hhi => ?display,
    fun h => ?config, fun h => ?unknown, fun a ha hlt => ?inside, fun a ha hle => ?pastEnd, fun hnone => ?noCursor⟩⟩
  case address => exact shadowUpdate_command hready (commandRow_address h)
  case home => exact shadowUpdate_command hready (commandRow_home h)
  case display => exact shadowUpdate_command hready (commandRow_display hlo hhi)
  case config => exact shadowUpdate_command hready (commandRow_config h)
  case unknown => exact shadowUpdate_command hready (commandRow_unknown h)
  case inside => exact shadowUpdate_data hready (by simp only [cursorAfter, ha, if_pos hlt])
  case pastEnd => exact shadowUpdate_data hready (by simp only [cursorAfter, ha, if_neg (Nat.not_lt.2 hle)])
  case noCursor =>
    rw [shadowUpdate_data hready (c := s.lcdCursor) (by simp only [cursorAfter, hnone])]

end Sys2Proof.Machine

/-! SUPPORT. A whole byte as one update of the state, and what a run of bytes and of characters leaves behind (R183, R193,
R199). -/

namespace Sys2Proof.Machine

/-! ### A byte sent (R183, R199) -/

/-- The state once the executing context has sent the byte `b` with RS `rs`, with the least delays (R183, R199). -/
def State.sentByte (s : State) (rs : Rs) (b : Byte) : State :=
  ({ s with
    now := s.now + 4 + byteWait rs b
    out := outAfterByte s.out rs b
    hist := s.hist ++ byteEvents s.cur s.now rs b
    latches := s.latches ++ drivenLatches s.fsel rs b } : State).shadowUpdate rs b

section

variable (s : State) (rs : Rs) (b : Byte)

@[simp] theorem State.sentByte_ctxs : (s.sentByte rs b).ctxs = s.ctxs := by simp [State.sentByte]
@[simp] theorem State.sentByte_cur : (s.sentByte rs b).cur = s.cur := by simp [State.sentByte]
@[simp] theorem State.sentByte_fsel : (s.sentByte rs b).fsel = s.fsel := by simp [State.sentByte]
@[simp] theorem State.sentByte_lock : (s.sentByte rs b).lock = s.lock := by simp [State.sentByte]
@[simp] theorem State.sentByte_lcdState : (s.sentByte rs b).lcdState = s.lcdState := by simp [State.sentByte]
@[simp] theorem State.sentByte_lcdCols : (s.sentByte rs b).lcdCols = s.lcdCols := by simp [State.sentByte]
@[simp] theorem State.sentByte_now : (s.sentByte rs b).now = s.now + 4 + byteWait rs b := by simp [State.sentByte]
@[simp] theorem State.sentByte_out : (s.sentByte rs b).out = outAfterByte s.out rs b := by simp [State.sentByte]

@[simp] theorem State.sentByte_hist : (s.sentByte rs b).hist = s.hist ++ byteEvents s.cur s.now rs b := by
  simp [State.sentByte]

@[simp] theorem State.sentByte_latches : (s.sentByte rs b).latches = s.latches ++ drivenLatches s.fsel rs b := by
  simp [State.sentByte]

@[simp] theorem State.sentByte_lcdCursor : (s.sentByte rs b).lcdCursor =
    if s.lcdState = .ready then cursorAfter s.lcdCols rs b s.lcdCursor else s.lcdCursor := by simp [State.sentByte]

@[simp] theorem State.sentByte_lcdDisplayOn : (s.sentByte rs b).lcdDisplayOn =
    if s.lcdState = .ready then displayOnAfter rs b s.lcdDisplayOn else s.lcdDisplayOn := by simp [State.sentByte]

@[simp] theorem State.putCtx_sentByte (x : Ctx) : (s.putCtx x).sentByte rs b = (s.sentByte rs b).putCtx x := by
  rw [State.sentByte, State.sentByte, shadowUpdate_putCtx]
  rfl

/-- What the run of a byte leaves is the byte sent, and its context (R183). -/
theorem ran_shadowUpdate (x : Ctx) :
    (s.ran x (s.now + 4 + byteWait rs b) (outAfterByte s.out rs b) (byteEvents s.cur s.now rs b)
      (drivenLatches s.fsel rs b)).shadowUpdate rs b = (s.sentByte rs b).putCtx x := by
  rw [State.sentByte, shadowUpdate_putCtx]
  rfl

end

/-- After a byte the context goes on as it is left, once the update left to it is done (R10). -/
theorem runs_sentByte {s : State} {x y : Ctx} (hx : s.Runs x) (hr : y.computed.status = .running) (rs : Rs)
    (b : Byte) : ((s.sentByte rs b).putCtx y).Runs y.computed :=
  runs_computed hx (by simp) (by simp) hr

/-- A byte, as a run of twenty-three steps that leave its context where its operation goes on (R183). -/
theorem Ctx.Sends.solo_sentByte {i : Instr} {s : State} {x : Ctx} {rs : Rs} {b : Byte} (h : x.Sends i rs b .y0)
    (hx : s.Runs x) (hd : x.delayFrom = none) (k : Nat) :
    ∃ w, solo i (k + 23) s =
      solo i k ((s.sentByte rs b).putCtx ((x.withDelay w none).goto (x.upc.atByte .y1)).byteDone) :=
  ⟨_, (h.run rfl hx hd rfl k).trans (congrArg _ (ran_shadowUpdate s rs b _))⟩

/-! ### The characters of a text sent (R193) -/

/-- The state once the executing context has sent every character of the text, in order (R193). -/
def State.sentText (s : State) (text : List Byte) : State := text.foldl (fun r b => r.sentByte .data b) s

theorem State.sentText_cons (s : State) (b : Byte) (text : List Byte) :
    s.sentText (b :: text) = (s.sentByte .data b).sentText text := rfl

theorem byteWait_data (b : Byte) : byteWait .data b = 100 := rfl

section

variable (s : State) (text : List Byte)

@[simp] theorem State.sentText_ctxs : (s.sentText text).ctxs = s.ctxs := by
  induction text generalizing s with
  | nil => rfl
  | cons b text ih => rw [sentText_cons, ih, sentByte_ctxs]

@[simp] theorem State.sentText_cur : (s.sentText text).cur = s.cur := by
  induction text generalizing s with
  | nil => rfl
  | cons b text ih => rw [sentText_cons, ih, sentByte_cur]

@[simp] theorem State.sentText_fsel : (s.sentText text).fsel = s.fsel := by
  induction text generalizing s with
  | nil => rfl
  | cons b text ih => rw [sentText_cons, ih, sentByte_fsel]

@[simp] theorem State.sentText_lock : (s.sentText text).lock = s.lock := by
  induction text generalizing s with
  | nil => rfl
  | cons b text ih => rw [sentText_cons, ih, sentByte_lock]

@[simp] theorem State.sentText_lcdState : (s.sentText text).lcdState = s.lcdState := by
  induction text generalizing s with
  | nil => rfl
  | cons b text ih => rw [sentText_cons, ih, sentByte_lcdState]

@[simp] theorem State.sentText_out : (s.sentText text).out = outAfterText s.out text := by
  induction text generalizing s with
  | nil => rfl
  | cons b text ih => rw [sentText_cons, ih, sentByte_out]; rfl

/-- Each character takes 104 µs: four EN holds and the execution wait (R193). -/
@[simp] theorem State.sentText_now : (s.sentText text).now = s.now + 104 * text.length := by
  induction text generalizing s with
  | nil => rfl
  | cons b text ih =>
    rw [sentText_cons, ih, sentByte_now, byteWait_data, List.length_cons]
    omega

@[simp] theorem State.sentText_hist : (s.sentText text).hist = s.hist ++ textEvents s.cur s.now text := by
  induction text generalizing s with
  | nil => exact (List.append_nil _).symm
  | cons b text ih =>
    rw [sentText_cons, ih, sentByte_hist, sentByte_cur, sentByte_now, byteWait_data, List.append_assoc]
    rfl

@[simp] theorem State.sentText_latches :
    (s.sentText text).latches = s.latches ++ text.flatMap (drivenLatches s.fsel .data) := by
  induction text generalizing s with
  | nil => exact (List.append_nil _).symm
  | cons b text ih => rw [sentText_cons, ih, sentByte_latches, sentByte_fsel, List.append_assoc, List.flatMap_cons]

@[simp] theorem State.putCtx_sentText (x : Ctx) : (s.putCtx x).sentText text = (s.sentText text).putCtx x := by
  induction text generalizing s with
  | nil => rfl
  | cons b text ih => rw [sentText_cons, putCtx_sentByte, ih, sentText_cons]

end

/-! ### Where a context is in its text (R10, R193, R194) -/

/-- `i` is the operation that sends `text`, with the operand `a`, and `mk` places a context at its labels (R193, R194). -/
inductive TextOp (a : Byte) (text : List Byte) : Instr → (LcdLabel → Upc) → Prop where
  | str : TextOp a text (.lcdstr text) .lcdstr
  | line : TextOp a text (.lcdline a text) .lcdline

/-- The context runs `i` and is at the text loop, IDX computed, with the characters `rest` still to send. -/
structure Ctx.AtText (x : Ctx) (i : Instr) (mk : LcdLabel → Upc) (rest : List Byte) : Prop where
  running : x.status = .running
  between : x.between = .nothing
  noDelay : x.delayFrom = none
  op : TextOp x.a x.text i mk
  short : x.text.length ≤ 65535
  rest : x.text.drop x.idx.toNat = rest
  upc : x.upc = textLoop mk x

/-- With every character sent the context is at the `Release`. -/
theorem Ctx.AtText.upc_nil {x : Ctx} {i : Instr} {mk : LcdLabel → Upc} (h : x.AtText i mk []) :
    x.upc = mk .release := by
  rw [h.upc, textLoop, if_neg (Nat.not_lt.2 (List.drop_eq_nil_iff.1 h.rest))]

/-- With a character left IDX is inside the text. -/
theorem Ctx.AtText.idx_lt {x : Ctx} {i : Instr} {mk : LcdLabel → Upc} {b : Byte} {bs : List Byte}
    (h : x.AtText i mk (b :: bs)) : x.idx.toNat < x.text.length := by
  by_contra hlt
  simpa [List.drop_eq_nil_of_le (Nat.not_lt.1 hlt)] using h.rest

/-- With a character left the context is at the first action of its byte. -/
theorem Ctx.AtText.upc_cons {x : Ctx} {i : Instr} {mk : LcdLabel → Upc} {b : Byte} {bs : List Byte}
    (h : x.AtText i mk (b :: bs)) : x.upc = mk (.text .y0) := by
  rw [h.upc, textLoop, if_pos h.idx_lt]

theorem Ctx.AtText.char {x : Ctx} {i : Instr} {mk : LcdLabel → Upc} {b : Byte} {bs : List Byte}
    (h : x.AtText i mk (b :: bs)) : x.char = b := by
  have hhead : x.text[x.idx.toNat]? = some b := by
    rw [← Nat.add_zero x.idx.toNat, ← List.getElem?_drop, h.rest]
    rfl
  rw [Ctx.char, List.getD_eq_getElem?_getD, hhead]
  rfl

/-- The byte that is sent next is the next character, with RS = 1 (R193). -/
theorem Ctx.AtText.sends {x : Ctx} {i : Instr} {mk : LcdLabel → Upc} {b : Byte} {bs : List Byte}
    (h : x.AtText i mk (b :: bs)) : x.Sends i .data b .y0 := by
  have hu := h.upc_cons
  have hop := h.op
  rw [← h.char]
  cases hop <;> simp only [Ctx.Sends, Ctx.operation, Ctx.sendingByte, hu, and_self]

/-- A context that goes to the text loop is at it once the update of IDX left to it is done (R10). -/
theorem atText_textAt {x : Ctx} {i : Instr} {mk : LcdLabel → Upc} {k : Between} {n : BitVec 16} {rest : List Byte}
    (hr : x.status = .running) (hd : x.delayFrom = none) (hop : TextOp x.a x.text i mk)
    (hshort : x.text.length ≤ 65535) (hidx : ({ x with between := k } : Ctx).computed.idx = n)
    (hrest : x.text.drop n.toNat = rest) : (x.textAt k n mk).computed.AtText i mk rest := by
  have hcomputed : (x.textAt k n mk).computed.idx = n := hidx
  refine ⟨hr, rfl, hd, hop, hshort, by rw [hcomputed]; exact hrest, ?_⟩
  rw [textLoop, hcomputed]
  rfl

/-- After a character the context is at the text loop with one character less to send (R193). -/
theorem Ctx.AtText.next {x : Ctx} {i : Instr} {mk : LcdLabel → Upc} {b : Byte} {bs : List Byte}
    (h : x.AtText i mk (b :: bs)) (w : Nat) :
    ((x.withDelay w none).goto (x.upc.atByte .y1)).byteDone.computed.AtText i mk bs := by
  have hlt := h.idx_lt
  have hshort := h.short
  have hidx : (x.idx + 1#16).toNat = x.idx.toNat + 1 := by
    rw [BitVec.toNat_add, BitVec.toNat_ofNat]
    omega
  have hrest : x.text.drop (x.idx + 1#16).toNat = bs := by
    rw [hidx, ← List.drop_drop, h.rest]
    rfl
  have hdone : ((x.withDelay w none).goto (x.upc.atByte .y1)).byteDone =
      ((x.withDelay w none).goto (x.upc.atByte .y1)).textAt .nextChar (x.idx + 1#16) mk := by
    rw [h.upc_cons]
    cases h.op <;> rfl
  rw [hdone]
  exact atText_textAt h.running rfl h.op hshort rfl hrest

/-- The characters that are left, as a run (R193). -/
theorem solo_sentText {i : Instr} {mk : LcdLabel → Upc} {rest : List Byte} {s : State} {x : Ctx} (hx : s.Runs x)
    (h : x.AtText i mk rest) (k : Nat) :
    ∃ z : Ctx, z.computed.AtText i mk [] ∧
      solo i (k + 23 * rest.length) s = solo i k ((s.sentText rest).putCtx z) := by
  induction rest generalizing s x with
  | nil =>
    obtain ⟨z, hz, -, rfl⟩ := hx
    have hself : s.putCtx z = s := by rw [State.putCtx, set_cur_self hz]
    exact ⟨z, h, congrArg (solo i k) hself.symm⟩
  | cons b rest ih =>
    obtain ⟨w, hbyte⟩ := h.sends.solo_sentByte hx h.noDelay (k + 23 * rest.length)
    have hnext := h.next w
    obtain ⟨z, hz, hrest⟩ := ih (runs_sentByte hx hnext.running _ _) hnext
    refine ⟨z, hz, hbyte.trans (hrest.trans ?_)⟩
    rw [State.putCtx_sentText, State.putCtx_putCtx, State.sentText_cons]

end Sys2Proof.Machine

/-! PROOFS. LCDBYTE and the operations that send a text, run alone from hand-over to `Return` (R190, R193 to R195). -/

namespace Sys2Proof.Machine

/-- A Mapped block accepts every request without a range, but for MAPOPEN (R227, R228). -/
theorem refusalOf_noRange {s : State} {i : Instr} (hmap : s.mapState = .mapped) (hi : i ≠ .mapopen)
    (hp : pinRange i = none) (hr : rowOperand i = none) (hc : colOperand i = none) : s.refusalOf i = none := by
  simp [State.refusalOf, hmap, hi, hp, hr, hc]

/-- Settles O42: LCDBYTE is an operation of one byte. -/
theorem lcdbyteRun : Obligations.LcdbyteRun := by
  intro rs b s x hs hfree hready
  obtain ⟨-, -, -, hmap⟩ := id hs
  exact singleByteRun rfl hs (refusalOf_noRange hmap nofun rfl rfl rfl) hfree hready

/-! ### From the text loop to the end (R181, R193) -/

@[simp] theorem State.locked_now (s : State) : s.locked.now = s.now := rfl
@[simp] theorem State.locked_out (s : State) : s.locked.out = s.out := rfl

theorem TextOp.labels {a : Byte} {text : List Byte} {i : Instr} {mk : LcdLabel → Upc} (h : TextOp a text i mk)
    (l : LcdLabel) : lcdAt i l = some (mk l) := by
  cases h <;> rfl

/-- The characters that are left, the `Release` and the `Return`, as a run: the context has answered 0 (R181, R193). -/
theorem solo_textToEnd {i : Instr} {mk : LcdLabel → Upc} {rest : List Byte} {s : State} {x : Ctx} (hx : s.Runs x)
    (h : x.AtText i mk rest) (hlock : s.lock = .held s.cur) :
    ∃ y : Ctx, solo i (2 + 23 * rest.length) s = .next ((s.sentText rest).unlocked.putCtx (y.finished 0#32)) := by
  obtain ⟨z, hz, hrun⟩ := solo_sentText hx h 2
  have hruns : ((s.sentText rest).putCtx z).Runs z.computed := runs_computed hx (by simp) (by simp) hz.running
  have hat : lcdAt i .release = some z.computed.upc := hz.upc_nil ▸ hz.op.labels .release
  have hleave := solo_leave hruns hz.noDelay hat (hz.op.labels .ret) (by simpa using hlock)
  exact ⟨_, (hrun.trans hleave).trans (congrArg _ (State.putCtx_putCtx (s.sentText rest).unlocked _ _))⟩

/-- A context that is written as finished has answered. -/
theorem answered_finished {s : State} {z : Ctx} (hz : s.me = some z) (y : Ctx) (w : Word) :
    (s.putCtx (y.finished w)).Answered w :=
  ⟨y.finished w, me_putCtx hz _, rfl, rfl⟩

theorem drivenLatches_of_lcdDriven {s : State} (h : s.LcdDriven) : drivenLatches s.fsel = byteLatches := by
  funext rs b
  rw [drivenLatches, if_pos (lcdPinsDriven_of_lcdDriven h)]

/-! ### LCDSTR (R193) -/

/-- After its hand-over and its `Acquire` an LCDSTR is at its text loop, with the whole text to send (R10, R193). -/
theorem atText_lcdstr (x : Ctx) {text : List Byte} (h : text.length ≤ 65535) :
    ((x.handed (.lcdstr text)).afterAcquire (.lcdstr text)).computed.AtText (.lcdstr text) .lcdstr text := by
  rw [Ctx.handed_pack x rfl]
  exact atText_textAt (k := .firstChar) (n := 0#16) rfl rfl .str h rfl rfl

/-- LCDSTR run alone, and the state it leaves (R193). -/
theorem solo_lcdstr {text : List Byte} {s : State} {x : Ctx} (hs : s.Starts x) (hfree : s.lock = .free)
    (hready : s.lcdState = .ready) (htext : text.length ≤ 65535) :
    ∃ y : Ctx, solo (.lcdstr text) (4 + 23 * text.length) s =
      .next ((s.locked.sentText text).unlocked.putCtx (y.finished 0#32)) := by
  obtain ⟨-, -, -, hmap⟩ := id hs
  obtain ⟨henter, hme⟩ := solo_enter hs hfree hready (i := .lcdstr text) rfl
    (refusalOf_noRange hmap nofun rfl rfl rfl) rfl (2 + 23 * text.length)
  have hat := atText_lcdstr x htext
  obtain ⟨y, hrun⟩ := solo_textToEnd ⟨_, hme, hat.running, rfl⟩ hat rfl
  have hcount : 4 + 23 * text.length = 2 + 23 * text.length + 2 := by omega
  refine ⟨y, ?_⟩
  rw [hcount, henter, hrun, State.putCtx_sentText]
  exact congrArg _ (State.putCtx_putCtx (s.locked.sentText text).unlocked _ _)

/-- Settles O44: the state that the run leaves, field by field. -/
theorem lcdstrRun : Obligations.LcdstrRun := by
  intro text s x hs hfree hready htext
  obtain ⟨y, hrun⟩ := solo_lcdstr hs hfree hready htext
  have hme : (s.locked.sentText text).unlocked.me = some x := by simpa [State.me, State.unlocked] using hs.1
  refine ⟨_, _, hrun, rfl, by simp, by simp, fun hdriven => ?latches, by simp, by simp, by simpa using hready, by simp,
    answered_finished hme y _⟩
  case latches => simp [drivenLatches_of_lcdDriven hdriven]

/-! ### LCDLINE (R194) -/

/-- After its hand-over and its `Acquire` an LCDLINE is at the cursor command of column 0 of its line (R194). -/
theorem sends_lcdline (x : Ctx) (line : Byte) (text : List Byte) :
    ((x.handed (.lcdline line text)).afterAcquire (.lcdline line text)).Sends (.lcdline line text) .command
      (cursorByte line 0#8) .y0 := by
  rw [Ctx.handed_pack x rfl]
  exact ⟨rfl, rfl⟩

/-- After its cursor command an LCDLINE is at its text loop, with the whole text to send (R10, R194). -/
theorem atText_lcdline (x : Ctx) (line : Byte) {text : List Byte} (h : text.length ≤ 65535) (w : Nat) :
    ((((x.handed (.lcdline line text)).afterAcquire (.lcdline line text)).withDelay w none).goto
      (.lcdline (.single .y1))).byteDone.computed.AtText (.lcdline line text) .lcdline text := by
  rw [Ctx.handed_pack x rfl]
  exact atText_textAt (k := .firstChar) (n := 0#16) rfl rfl .line h rfl rfl

/-- A Mapped block accepts LCDLINE on its two lines (R227, R228). -/
theorem refusalOf_lcdline {s : State} {line : Byte} (hmap : s.mapState = .mapped) (hline : line.toNat ≤ 1)
    (text : List Byte) : s.refusalOf (.lcdline line text) = none := by
  rw [← firstFailure_line]
  simp [firstFailure, firstFailure_cons, mappedTest, rowTest, hmap, hline]

/-- LCDLINE run alone, and the state it leaves (R194). -/
theorem solo_lcdline {line : Byte} {text : List Byte} {s : State} {x : Ctx} (hs : s.Starts x) (hfree : s.lock = .free)
    (hready : s.lcdState = .ready) (hline : line.toNat ≤ 1) (htext : text.length ≤ 65535) :
    ∃ y : Ctx, solo (.lcdline line text) (4 + 23 * (text.length + 1)) s =
      .next (((s.locked.sentByte .command (cursorByte line 0#8)).sentText text).unlocked.putCtx (y.finished 0#32)) := by
  obtain ⟨-, -, -, hmap⟩ := id hs
  obtain ⟨henter, hme⟩ := solo_enter hs hfree hready (i := .lcdline line text) rfl
    (refusalOf_lcdline hmap hline text) rfl (2 + 23 * text.length + 23)
  have hruns : (s.locked.putCtx ((x.handed (.lcdline line text)).afterAcquire (.lcdline line text))).Runs
      ((x.handed (.lcdline line text)).afterAcquire (.lcdline line text)) :=
    ⟨_, hme, rfl, rfl⟩
  obtain ⟨w, hbyte⟩ := (sends_lcdline x line text).solo_sentByte hruns rfl (2 + 23 * text.length)
  have hat := atText_lcdline x line htext w
  obtain ⟨y, hrun⟩ := solo_textToEnd (runs_sentByte hruns hat.running _ _) hat (by simp)
  have hcount : 4 + 23 * (text.length + 1) = 2 + 23 * text.length + 23 + 2 := by omega
  refine ⟨y, ?_⟩
  rw [hcount, henter]
  refine hbyte.trans (hrun.trans ?_)
  rw [State.putCtx_sentByte, State.putCtx_putCtx, State.putCtx_sentText]
  exact congrArg _ (State.putCtx_putCtx (State.unlocked _) _ _)

/-- Settles O45: the state that the run leaves, field by field. -/
theorem lcdlineRun : Obligations.LcdlineRun := by
  intro line text s x b hs hfree hready htext hb
  have hline : line.toNat ≤ 1 ∧ cursorByte line 0#8 = b := by
    rcases hb with ⟨rfl, rfl⟩ | ⟨rfl, rfl⟩ <;> decide
  have hwait : byteWait .command b = 100 := by
    rcases hb with ⟨-, rfl⟩ | ⟨-, rfl⟩ <;> rfl
  obtain ⟨hrange, rfl⟩ := hline
  obtain ⟨y, hrun⟩ := solo_lcdline hs hfree hready hrange htext
  have hme : ((s.locked.sentByte .command (cursorByte line 0#8)).sentText text).unlocked.me = some x := by
    simpa [State.me, State.unlocked] using hs.1
  have htime : s.now + 104 * (text.length + 1) = s.now + 4 + 100 + 104 * text.length := by omega
  refine ⟨_, _, hrun, rfl, by simp [hwait, htime], by simp [hwait, htime], fun hdriven => ?latches, by simp, by simp,
    by simpa using hready, by simp, answered_finished hme y _⟩
  case latches => simp [drivenLatches_of_lcdDriven hdriven]

end Sys2Proof.Machine

/-! SUPPORT. LCDINIT run alone: the settle, the four nibbles with their waits, the four configuration bytes (R187). -/

namespace Sys2Proof.Machine

/-! ### Before the nibbles (R187) -/

/-- The state with `lcd_state` at `d` (R31). -/
def State.withDisplay (s : State) (d : LcdState) : State := { s with lcdState := d }

@[simp] theorem State.withDisplay_self (s : State) : s.withDisplay s.lcdState = s := rfl

/-- The context runs LCDINIT and is at its label `l`, with nothing in progress. -/
structure Ctx.AtInit (x : Ctx) (l : InitLabel) : Prop where
  running : x.status = .running
  between : x.between = .nothing
  noDelay : x.delayFrom = none
  upc : x.upc = .lcdinit l

/-- Written at a label of LCDINIT, the executing context runs as it was written. -/
theorem Ctx.AtInit.runs {s : State} {x z : Ctx} {l : InitLabel} (h : x.AtInit l) (hz : s.me = some z) :
    (s.putCtx x).Runs x :=
  ⟨x, me_putCtx hz x, h.running, (Ctx.computed_of_nothing h.between).symm⟩

/-- LCDINIT, alone, from its hand-over into the critical region (R93, R187). -/
theorem solo_initEnter {s : State} {x : Ctx} (hs : s.Starts x) (hfree : s.lock = .free) (n : Nat) :
    ∃ y : Ctx, y.AtInit .i1 ∧
      solo .lcdinit (n + 2) s = solo .lcdinit n ((s.locked.withDisplay .fourBitModeNegotiating).putCtx y) := by
  obtain ⟨hx, hidle, hnodelay, hmap⟩ := hs
  have haccepted : s.refusalOf .lcdinit = none := refusalOf_noRange hmap nofun rfl rfl rfl
  have hhanded : exec .lcdinit s = .next (s.putCtx (x.handed .lcdinit)) :=
    handOverLoadsOperands .lcdinit s x hx hidle rfl haccepted
  have hruns : (s.putCtx (x.handed .lcdinit)).Runs (x.handed .lcdinit) := ⟨_, me_putCtx hx _, rfl, rfl⟩
  obtain ⟨-, htaken, -⟩ := lcdinitActs _ _ hruns
  refine ⟨(x.handed .lcdinit).goto (.lcdinit .i1), ⟨rfl, rfl, rfl, rfl⟩, ?_⟩
  rw [solo_step hx hnodelay hhanded, solo_action hruns rfl (htaken rfl hfree)]
  exact congrArg (solo .lcdinit n) (State.putCtx_putCtx (s.locked.withDisplay .fourBitModeNegotiating) _ _)

/-- RS and EN low, and the power-up settle, as a run (R187). -/
theorem solo_initSettle {s : State} {x : Ctx} (hx : s.Runs x) (h : x.AtInit .i1) (n : Nat) :
    solo .lcdinit (n + 4) s =
      solo .lcdinit n
        (s.ran ((x.withDelay (s.now + 15000) none).goto (.lcdinit (.nibble .first .n0))) (s.now + 15000)
          (outAfter (outAfter s.out 25 .low) 24 .low)
          [pinEvent s.cur s.now 25 .low, pinEvent s.cur s.now 24 .low, .dly s.cur 15000 s.now (s.now + 15000)]
          (latchEvents s.fsel (outAfter s.out 25 .low) (outAfter (outAfter s.out 25 .low) 24 .low))) := by
  obtain ⟨z, hz, -⟩ := id hx
  have hruns (u : Upc) (o : Word) (es : List Event) (ls : List Latch) :
      (s.ran (x.goto u) s.now o es ls).Runs (x.goto u) :=
    runs_ran (x := x.goto u) hz h.running h.between _ _ _ _
  have hen (o : Word) (es : List Event) (ls : List Latch) :
      solo .lcdinit (n + 3) (s.ran (x.goto (.lcdinit .i2)) s.now o es ls) =
        solo .lcdinit (n + 2) (s.ran (x.goto (.lcdinit .i3)) s.now (outAfter o 24 .low)
          (es ++ [pinEvent s.cur s.now 24 .low]) (ls ++ latchEvents s.fsel o (outAfter o 24 .low))) := by
    rw [solo_pinWrite (u := .lcdinit .i3) (hruns (.lcdinit .i2) o es ls) h.noDelay (exec_lcdinit (hruns _ o es ls) rfl),
      State.ran_ran]
    rfl
  have hsettle (o : Word) (es : List Event) (ls : List Latch) :
      solo .lcdinit (n + 2) (s.ran (x.goto (.lcdinit .i3)) s.now o es ls) =
        solo .lcdinit n (s.ran ((x.withDelay (s.now + 15000) none).goto (.lcdinit (.nibble .first .n0))) (s.now + 15000)
          o (es ++ [.dly s.cur 15000 s.now (s.now + 15000)]) ls) := by
    rw [solo_delayAct (u := .lcdinit (.nibble .first .n0)) (hruns (.lcdinit .i3) o es ls) h.noDelay
      (fun r w t0 hr => exec_lcdinit hr rfl), State.ran_ran, List.append_nil]
    rfl
  rw [solo_pinWrite (u := .lcdinit .i2) hx h.noDelay (exec_lcdinit hx h.upc), hen, hsettle, Config.lcdRs,
    latchEvents_of_ne _ _ (by decide)]
  rfl

/-! ### The nibbles (R187) -/

/-- LCDINIT sends its nibbles (R187). -/
theorem sendsNibble_lcdinit (x : Ctx) (k : InitNibble) :
    SendsNibble .lcdinit x (initNibbleValue k) (fun l => .lcdinit (.nibble k l)) (.lcdinit (.wait k)) :=
  fun _ _ _ _ hx => exec_lcdinit hx rfl

/-- The events of nibble `k` of the initialization and of the wait after it, from time `t` (R187). -/
def initNibbleEvents (c t : Nat) (k : InitNibble) : List Event :=
  nibbleEvents c t (initNibbleValue k) ++ [.dly c (initWait k) (t + 2) (t + 2 + initWait k)]

/-- A nibble of the initialization and the wait after it, in a run that has come to it (R187). -/
theorem solo_initNibble {s : State} {x z : Ctx} (hz : s.me = some z) (hr : x.status = .running)
    (hb : x.between = .nothing) (k : InitNibble) (n w now : Nat) (o : Word) (es : List Event) (ls : List Latch) :
    solo .lcdinit (n + 12) (s.ran ((x.withDelay w none).goto (.lcdinit (.nibble k .n0))) now o es ls) =
      solo .lcdinit n
        ((s.withDisplay (lcdStateAfter k s.lcdState)).ran
          ((x.withDelay (now + 2 + initWait k) none).goto (.lcdinit k.after)) (now + 2 + initWait k)
          (outAfterNibble o (initNibbleValue k))
          (es ++ initNibbleEvents s.cur now k) (ls ++ nibbleLatches s.fsel o (initNibbleValue k))) := by
  have hwait (r : State) (w' : Nat) (t0 : Option Nat)
      (hrun : r.Runs (((x.withDelay (now + 2) none).goto (.lcdinit (.wait k))).withDelay w' t0)) :=
    delayRule_initWait (k := k) hrun rfl
  rw [(sendsNibble_lcdinit x k).run hz hr hb, solo_delay (runs_ran_goto hz hr hb _ _ _ _ _ _) rfl
    (fin := fun y r => ((r.withDisplay (lcdStateAfter k r.lcdState)).putCtx
      ((y.withDelay y.wake none).goto (.lcdinit k.after)))) hwait, waited_ran]
  simp [State.withDisplay, State.ran, State.putCtx, initNibbleEvents, Ctx.withDelay, Ctx.goto]

/-- The latch after the four nibbles of the initialization, begun with the latch `o` (R187). -/
def nibblesOut (o : Word) : Word :=
  outAfterNibble (outAfterNibble (outAfterNibble (outAfterNibble o 0x3#4) 0x3#4) 0x3#4) 0x2#4

/-- The events of the four nibbles of the initialization and their waits, from time `t` (R187). -/
def nibblesEvents (c t : Nat) : List Event :=
  initNibbleEvents c t .first ++ initNibbleEvents c (t + 4102) .second ++ initNibbleEvents c (t + 4204) .third ++
    initNibbleEvents c (t + 4306) .commit

/-- The latch events of the four nibbles of the initialization, where RS is low (R186, R187). -/
def nibblesLatches (f : Fsel) : List Latch :=
  if lcdPinsDriven f then [0x3#4, 0x3#4, 0x3#4, 0x2#4].map fun n => { rs := 0#1, nibble := n } else []

theorem nibbleLatches_of_rsLow (f : Fsel) {o : Word} (ho : o.extractLsb' 25 1 = 0#1) (n : Nibble) :
    nibbleLatches f o n = if lcdPinsDriven f then [{ rs := 0#1, nibble := n }] else [] := by
  rw [nibbleLatches, latchOf_outAfterNibble, ho]

theorem nibblesLatches_eq (f : Fsel) {o : Word} (ho : o.extractLsb' 25 1 = 0#1) :
    nibbleLatches f o 0x3#4 ++ nibbleLatches f (outAfterNibble o 0x3#4) 0x3#4 ++
        nibbleLatches f (outAfterNibble (outAfterNibble o 0x3#4) 0x3#4) 0x3#4 ++
        nibbleLatches f (outAfterNibble (outAfterNibble (outAfterNibble o 0x3#4) 0x3#4) 0x3#4) 0x2#4 =
      nibblesLatches f := by
  have ho1 := (extractLsb'_rs_outAfterNibble o 0x3#4).trans ho
  have ho2 := (extractLsb'_rs_outAfterNibble _ 0x3#4).trans ho1
  have ho3 := (extractLsb'_rs_outAfterNibble _ 0x3#4).trans ho2
  rw [nibbleLatches_of_rsLow f ho, nibbleLatches_of_rsLow f ho1, nibbleLatches_of_rsLow f ho2,
    nibbleLatches_of_rsLow f ho3, nibblesLatches]
  split <;> rfl

/-- The four nibbles with their waits, in a run that has come to them: the display is Ready (R31, R187). -/
theorem solo_initNibbles {s : State} {x z : Ctx} (hz : s.me = some z) (hr : x.status = .running)
    (hb : x.between = .nothing) {o : Word} (ho : o.extractLsb' 25 1 = 0#1) (n w now : Nat) (es : List Event)
    (ls : List Latch) :
    solo .lcdinit (n + 48) (s.ran ((x.withDelay w none).goto (.lcdinit (.nibble .first .n0))) now o es ls) =
      solo .lcdinit n
        ((s.withDisplay .ready).ran ((x.withDelay (now + 4408) none).goto (.lcdinit (.byte .functionSet .y0)))
          (now + 4408) (nibblesOut o) (es ++ nibblesEvents s.cur now) (ls ++ nibblesLatches s.fsel)) := by
  have next (k : InitNibble) := solo_initNibble hz hr hb k
  rw [next .first, lcdStateAfter, State.withDisplay_self, InitNibble.after, next .second, lcdStateAfter,
    State.withDisplay_self, InitNibble.after, next .third, lcdStateAfter, State.withDisplay_self, InitNibble.after,
    next .commit, lcdStateAfter, InitNibble.after, ← nibblesLatches_eq s.fsel ho]
  simp [initWait, initNibbleValue, Config.tInit1, Config.tInit2, Config.tInit3, Config.tInit4, nibblesOut,
    nibblesEvents, Nat.add_assoc]

/-! ### The configuration bytes (R187) -/

/-- A configuration byte, as a run (R183, R187). -/
theorem solo_initByte {s : State} {x : Ctx} {k : InitByte} (hx : s.Runs x) (h : x.AtInit (.byte k .y0)) (n : Nat) :
    ∃ y : Ctx, y.AtInit k.after ∧ ((s.sentByte .command (initByteValue k)).putCtx y).Runs y ∧
      solo .lcdinit (n + 23) s = solo .lcdinit n ((s.sentByte .command (initByteValue k)).putCtx y) := by
  have hsends : x.Sends .lcdinit .command (initByteValue k) .y0 := by
    simp only [Ctx.Sends, Ctx.operation, Ctx.sendingByte, h.upc, and_self]
  obtain ⟨w, hbyte⟩ := hsends.solo_sentByte hx h.noDelay n
  have hdone : ((x.withDelay w none).goto (x.upc.atByte .y1)).byteDone =
      (x.withDelay w none).goto (.lcdinit k.after) := by
    rw [h.upc]
    cases k <;> rfl
  rw [hdone] at hbyte
  have hat : ((x.withDelay w none).goto (.lcdinit k.after)).AtInit k.after := ⟨h.running, h.between, rfl, rfl⟩
  exact ⟨_, hat, runs_of_set hx (by simp) (by simp) hat.running hat.between, hbyte⟩

/-- The state once the four configuration bytes are sent (R187). -/
def State.sentConfig (s : State) : State :=
  (((s.sentByte .command 0x28#8).sentByte .command 0x0C#8).sentByte .command 0x06#8).sentByte .command 0x01#8

section

variable (s : State)

@[simp] theorem State.sentConfig_ctxs : s.sentConfig.ctxs = s.ctxs := by simp [State.sentConfig]
@[simp] theorem State.sentConfig_cur : s.sentConfig.cur = s.cur := by simp [State.sentConfig]
@[simp] theorem State.sentConfig_fsel : s.sentConfig.fsel = s.fsel := by simp [State.sentConfig]
@[simp] theorem State.sentConfig_lock : s.sentConfig.lock = s.lock := by simp [State.sentConfig]
@[simp] theorem State.sentConfig_lcdState : s.sentConfig.lcdState = s.lcdState := by simp [State.sentConfig]

@[simp] theorem State.putCtx_sentConfig (x : Ctx) : (s.putCtx x).sentConfig = s.sentConfig.putCtx x := by
  simp only [State.sentConfig, State.putCtx_sentByte]

@[simp] theorem State.sentConfig_now : s.sentConfig.now = s.now + 2316 := by
  simp [State.sentConfig, byteWait]

@[simp] theorem State.sentConfig_hist : s.sentConfig.hist =
    s.hist ++ byteEvents s.cur s.now .command 0x28#8 ++ byteEvents s.cur (s.now + 104) .command 0x0C#8 ++
      byteEvents s.cur (s.now + 208) .command 0x06#8 ++ byteEvents s.cur (s.now + 312) .command 0x01#8 := by
  simp [State.sentConfig, byteWait]

@[simp] theorem State.sentConfig_latches : s.sentConfig.latches =
    s.latches ++ [0x28#8, 0x0C#8, 0x06#8, 0x01#8].flatMap (drivenLatches s.fsel .command) := by
  simp [State.sentConfig]

/-- The configuration turns the display on, and the clear takes the cursor to address 0 (R199; PRESUMED, entry 19). -/
theorem State.sentConfig_shadow {s : State} (h : s.lcdState = .ready) :
    s.sentConfig.lcdCursor = some 0#7 ∧ s.sentConfig.lcdDisplayOn = some true := by
  simp [State.sentConfig, h, cursorAfter, displayOnAfter]

end

/-- The four configuration bytes, as a run (R187). -/
theorem solo_initBytes {s : State} {x : Ctx} (hx : s.Runs x) (h : x.AtInit (.byte .functionSet .y0)) (n : Nat) :
    ∃ y : Ctx, y.AtInit .i8 ∧ (s.sentConfig.putCtx y).Runs y ∧
      solo .lcdinit (n + 92) s = solo .lcdinit n (s.sentConfig.putCtx y) := by
  obtain ⟨x1, h1, hx1, hrun1⟩ := solo_initByte hx h (n + 69)
  obtain ⟨x2, h2, hx2, hrun2⟩ := solo_initByte hx1 h1 (n + 46)
  obtain ⟨x3, h3, hx3, hrun3⟩ := solo_initByte hx2 h2 (n + 23)
  obtain ⟨x4, h4, hx4, hrun4⟩ := solo_initByte hx3 h3 n
  have hrun := hrun1.trans (hrun2.trans (hrun3.trans hrun4))
  simp only [State.putCtx_sentByte, State.putCtx_putCtx] at hx4 hrun
  exact ⟨x4, h4, hx4, hrun⟩

/-- `Release` and `Return` of LCDINIT, as a run (R181, R187). -/
theorem solo_initLeave {s : State} {x : Ctx} (hx : s.Runs x) (h : x.AtInit .i8) (hlock : s.lock = .held s.cur) :
    solo .lcdinit 2 s = .next (s.unlocked.putCtx (x.finished 0#32)) := by
  have hruns : (({ s with lock := .free, hist := s.hist ++ [.rel s.cur s.now] } : State).putCtx
      (x.goto (.lcdinit .i9))).Runs (x.goto (.lcdinit .i9)) := runs_of_set hx rfl rfl h.running h.between
  rw [solo_action hx h.noDelay (exec_initRelease hx h.upc hlock),
    solo_action hruns h.noDelay (exec_initReturn hruns rfl)]
  simp [solo, State.returned, State.unlocked, State.putCtx, Ctx.finished, Ctx.goto]

end Sys2Proof.Machine

/-! PROOFS. LCDINIT run alone, from its hand-over to its `Return` (R187). -/

namespace Sys2Proof.Machine

/-- The latch when LCDINIT comes to its nibbles: RS and EN low (R187). -/
def settledOut (o : Word) : Word := outAfter (outAfter o 25 .low) 24 .low

theorem settledOut_rs (o : Word) : (settledOut o).extractLsb' 25 1 = 0#1 := by
  apply BitVec.eq_of_getLsbD_eq
  intro j hj
  obtain rfl : j = 0 := by omega
  simp only [BitVec.getLsbD_extractLsb', settledOut, getLsbD_outAfter _ _ _ (show 25 + 0 < 32 by decide)]
  rfl

/-- The state before the configuration bytes: the lock taken, RS and EN low, the power-up settle and the four nibbles
(R187). -/
def State.negotiated (s : State) : State :=
  { s.locked.withDisplay .ready with
    now := s.now + 19408
    out := nibblesOut (settledOut s.out)
    hist := s.locked.hist ++ ([pinEvent s.cur s.now 25 .low, pinEvent s.cur s.now 24 .low,
      .dly s.cur 15000 s.now (s.now + 15000)] ++ nibblesEvents s.cur (s.now + 15000))
    latches := s.latches ++ (latchEvents s.fsel (outAfter s.out 25 .low) (settledOut s.out) ++ nibblesLatches s.fsel) }

section

variable (s : State)

@[simp] theorem State.negotiated_ctxs : s.negotiated.ctxs = s.ctxs := rfl
@[simp] theorem State.negotiated_cur : s.negotiated.cur = s.cur := rfl
@[simp] theorem State.negotiated_fsel : s.negotiated.fsel = s.fsel := rfl
@[simp] theorem State.negotiated_lock : s.negotiated.lock = .held s.cur := rfl
@[simp] theorem State.negotiated_lcdState : s.negotiated.lcdState = .ready := rfl
@[simp] theorem State.negotiated_now : s.negotiated.now = s.now + 19408 := rfl
@[simp] theorem State.negotiated_out : s.negotiated.out = nibblesOut (settledOut s.out) := rfl

@[simp] theorem State.negotiated_hist : s.negotiated.hist =
    s.hist ++ [.acq s.cur s.now] ++ ([pinEvent s.cur s.now 25 .low, pinEvent s.cur s.now 24 .low,
      .dly s.cur 15000 s.now (s.now + 15000)] ++ nibblesEvents s.cur (s.now + 15000)) := rfl

/-- Where EN starts low and the display's pins are driven the four nibbles make the only latch events (R186). -/
theorem State.negotiated_latches {s : State} (hdriven : s.LcdDriven) (hlow : s.out.getLsbD 24 = false) :
    s.negotiated.latches = s.latches ++ [0x3#4, 0x3#4, 0x3#4, 0x2#4].map fun n => { rs := 0#1, nibble := n } := by
  have hen : latchEvents s.fsel (outAfter s.out 25 .low) (settledOut s.out) = [] := by
    rw [latchEvents_eq, getLsbD_outAfter _ _ _ (by decide), hlow]
    rfl
  have hnibbles : nibblesLatches s.fsel = [0x3#4, 0x3#4, 0x3#4, 0x2#4].map fun n => { rs := 0#1, nibble := n } :=
    if_pos (lcdPinsDriven_of_lcdDriven hdriven)
  rw [← hnibbles, ← List.nil_append (nibblesLatches s.fsel), ← hen]
  rfl

end

/-- LCDINIT, alone, from its hand-over to its first configuration byte (R187). -/
theorem solo_negotiated {s : State} {x : Ctx} (hs : s.Starts x) (hfree : s.lock = .free) (n : Nat) :
    ∃ y : Ctx, y.AtInit (.byte .functionSet .y0) ∧ (s.negotiated.putCtx y).Runs y ∧
      solo .lcdinit (n + 54) s = solo .lcdinit n (s.negotiated.putCtx y) := by
  obtain ⟨y, hy, henter⟩ := solo_initEnter hs hfree (n + 52)
  have hme : ((s.locked.withDisplay .fourBitModeNegotiating).putCtx y).me = some y :=
    me_putCtx (s := s.locked.withDisplay .fourBitModeNegotiating) hs.1 y
  have hsettle := solo_initSettle (hy.runs (s := s.locked.withDisplay .fourBitModeNegotiating) hs.1) hy (n + 48)
  have hnibbles := solo_initNibbles hme hy.running hy.between (settledOut_rs s.out) n
  have hat : ((y.withDelay (s.now + 15000 + 4408) none).goto (.lcdinit (.byte .functionSet .y0))).AtInit
      (.byte .functionSet .y0) := ⟨hy.running, hy.between, rfl, rfl⟩
  refine ⟨_, hat, hat.runs (s := s.negotiated) hs.1, ?_⟩
  refine henter.trans (hsettle.trans ((hnibbles _ _ _ _).trans (congrArg (solo .lcdinit n) ?_)))
  simp [State.negotiated, State.ran, State.withDisplay, State.putCtx, settledOut]

/-- LCDINIT run alone, and the state it leaves (R187). -/
theorem solo_lcdinit {s : State} {x : Ctx} (hs : s.Starts x) (hfree : s.lock = .free) :
    ∃ y : Ctx, solo .lcdinit 148 s = .next (s.negotiated.sentConfig.unlocked.putCtx (y.finished 0#32)) := by
  obtain ⟨y, hy, hruns, hnegotiated⟩ := solo_negotiated hs hfree 94
  obtain ⟨z, hz, hruns', hconfig⟩ := solo_initBytes hruns hy 2
  rw [State.putCtx_sentConfig, State.putCtx_putCtx] at hruns' hconfig
  have hleave := solo_initLeave hruns' hz (by simp)
  have hfinal := State.putCtx_putCtx s.negotiated.sentConfig.unlocked z (z.finished 0#32)
  exact ⟨z, (hnegotiated.trans (hconfig.trans hleave)).trans (congrArg _ hfinal)⟩

/-! ### The latch after LCDINIT (R187) -/

/-- A nibble leaves the pins that are not the display's alone. -/
theorem getLsbD_outAfterNibble_of_notMem (o : Word) (n : Nibble) {k : Nat} (hk : k < 32) (h : k ∉ lcdPins) :
    (outAfterNibble o n).getLsbD k = o.getLsbD k := by
  simp only [lcdPins, List.mem_cons, List.not_mem_nil, or_false, not_or] at h
  simp [getLsbD_outAfterNibble o n hk, h]

/-- A byte leaves the pins that are not the display's alone. -/
theorem getLsbD_outAfterByte_of_notMem (o : Word) (rs : Rs) (b : Byte) {k : Nat} (hk : k < 32) (h : k ∉ lcdPins) :
    (outAfterByte o rs b).getLsbD k = o.getLsbD k := by
  have hrs : k ≠ 25 := (ne_of_mem_of_not_mem (by decide) h).symm
  rw [← outAfterByte_eq, getLsbD_outAfterNibble_of_notMem _ _ hk h, getLsbD_outAfterNibble_of_notMem _ _ hk h,
    getLsbD_outAfter _ _ _ hk, if_neg hrs]

/-- The clear, the last byte of LCDINIT, leaves of the display's pins only D4 high. -/
theorem getLsbD_outAfterByte_clear (o : Word) {k : Nat} (hk : k < 32) :
    (outAfterByte o .command 0x01#8).getLsbD k =
      if k = 23 then true else if k ∈ lcdPins then false else o.getLsbD k := by
  by_cases h : k ∈ lcdPins
  · simp only [lcdPins, List.mem_cons, List.not_mem_nil, or_false] at h
    simp only [outAfterByte, getLsbD_outAfter _ _ _ hk]
    rcases h with rfl | rfl | rfl | rfl | rfl | rfl <;> rfl
  · have h23 : k ≠ 23 := (ne_of_mem_of_not_mem (by decide) h).symm
    rw [getLsbD_outAfterByte_of_notMem _ _ _ hk h, if_neg h23, if_neg h]

/-- The cold start leaves the pins that are not the display's alone. -/
theorem getLsbD_nibblesOut_of_notMem (o : Word) {k : Nat} (hk : k < 32) (h : k ∉ lcdPins) :
    (nibblesOut (settledOut o)).getLsbD k = o.getLsbD k := by
  have hrs : k ≠ 25 := (ne_of_mem_of_not_mem (by decide) h).symm
  have hen : k ≠ 24 := (ne_of_mem_of_not_mem (by decide) h).symm
  simp only [nibblesOut, getLsbD_outAfterNibble_of_notMem _ _ hk h, settledOut, getLsbD_outAfter _ _ _ hk, if_neg hrs,
    if_neg hen]

/-- The latch after LCDINIT, bit by bit. -/
theorem getLsbD_sentConfig_negotiated (s : State) {k : Nat} (hk : k < 32) :
    s.negotiated.sentConfig.out.getLsbD k =
      if k = 23 then true else if k ∈ lcdPins then false else s.out.getLsbD k := by
  rw [State.sentConfig, State.sentByte_out, getLsbD_outAfterByte_clear _ hk]
  refine if_congr Iff.rfl rfl ?_
  split
  · rfl
  · rename_i h
    simp only [State.sentByte_out, getLsbD_outAfterByte_of_notMem _ _ _ hk h, State.negotiated_out,
      getLsbD_nibblesOut_of_notMem _ hk h]

@[simp] theorem State.unlocked_lcdCursor (s : State) : s.unlocked.lcdCursor = s.lcdCursor := rfl
@[simp] theorem State.unlocked_lcdDisplayOn (s : State) : s.unlocked.lcdDisplayOn = s.lcdDisplayOn := rfl

/-- The events of LCDINIT (R187). -/
theorem hist_lcdinit (s : State) : s.negotiated.sentConfig.unlocked.hist = s.hist ++ initEvents s.cur s.now := by
  simp only [State.unlocked_hist, State.sentConfig_hist, State.sentConfig_now, State.sentConfig_cur,
    State.negotiated_hist, State.negotiated_now, State.negotiated_cur, initEvents, nibblesEvents, initNibbleEvents,
    initNibbleValue, initWait, Config.tInit1, Config.tInit2, Config.tInit3, Config.tInit4, List.append_assoc,
    List.cons_append, List.nil_append, Nat.add_assoc, Nat.reduceAdd]

/-- The latch events of LCDINIT (R186, R187). -/
theorem latches_lcdinit {s : State} (hdriven : s.LcdDriven) (hlow : s.out.getLsbD 24 = false) :
    s.negotiated.sentConfig.unlocked.latches = s.latches ++ initLatches := by
  rw [State.unlocked_latches, State.sentConfig_latches, State.negotiated_latches hdriven hlow, State.negotiated_fsel,
    drivenLatches_of_lcdDriven hdriven, List.append_assoc]
  rfl

/-- Settles O41: the state that the run leaves, field by field. -/
theorem lcdinitRun : Obligations.LcdinitRun := by
  intro s x hs hfree
  obtain ⟨y, hrun⟩ := solo_lcdinit hs hfree
  have hme : s.negotiated.sentConfig.unlocked.me = some x := by simpa [State.me, State.unlocked] using hs.1
  obtain ⟨hcursor, hon⟩ := State.sentConfig_shadow (s := s.negotiated) rfl
  exact ⟨_, hrun, by simp, hist_lcdinit s, latches_lcdinit, fun k hk => getLsbD_sentConfig_negotiated s hk, by simp,
    by simp, by simpa using hcursor, by simpa using hon, by simp, answered_finished hme y _⟩

end Sys2Proof.Machine

/-! PROOFS. The exceptions: a request outside its preconditions (R226 to R229). -/

namespace Sys2Proof.Machine

/-- Settles O18: `exec_idle` gives what each of the 17 hand-overs answers from the reason of R229, and here there is one. -/
theorem handOverRefusesInOrder : Obligations.HandOverRefusesInOrder := by
  intro i s x r hx hidle hreq hrefused
  rw [exec_idle hx hidle hreq, handedOver, hrefused]

end Sys2Proof.Machine

/-! PROOFS. Time: the clock's turn, the two halves of a delay, and the lower bound of every delay (R270, R271, R290). -/

namespace Sys2Proof.Machine

/-! ### The clock (R271) -/

/-- The turn of the clock is its tick. -/
theorem step_of_clockTurn {s s1 : State} {e : Nat} (ht : s.TakesTurn (.clock e) s1) : step s = .next (s1.tick e) := by
  rw [step, takesTurn_iff.1 ht, runTurn]

/-- The meaning of every instruction begins with the status of the executing context (R10, R93). -/
theorem exec_onContext (i : Instr) (s : State) : ∃ offer act, exec i s = onContext s offer act := by
  cases i
  all_goals
    simp only [exec, execMapopen, execMapclose, execShutdown, execSetmode, execSetpinmode, setmodeOn, execWrite,
      execWritepin, writeOn, execRead, execReadpin, readOn, execWaitbtn, execBlink, execLcdinit, execLcdclear,
      execLcdcursor, execLcdstr, execLcdline, execLcdbyte, execPayload, execInit3, execInit2, execFuncset, execDispctl,
      execEntrymode, execClear, execSetaddr, execData, sendNibble, sendByte, insideOperation]
    exact ⟨_, _, rfl⟩

/-- Every next state that `exec` answers: to an Idle context a request or one more character was offered, or a Running
one took its action (R10, R92, R93). -/
theorem exec_cases {i : Instr} {s t : State} (h : exec i s = .next t) :
    ∃ x, s.ctxs[s.cur]? = some x ∧
      ((x.status = .idle ∧ ∃ y, t = s.putCtx y) ∨ (x.status = .running ∧ Effect x.computed s t)) := by
  obtain ⟨offer, act, hon⟩ := exec_onContext i s
  obtain ⟨x, hx, ⟨hidle, -⟩ | ⟨hrunning, -⟩⟩ := onContext_next (hon ▸ h)
  · refine ⟨x, hx, .inl ⟨hidle, ?_⟩⟩
    cases hreq : isRequest i with
    | true =>
      rw [exec_idle hx hidle hreq, handedOver] at h
      exact ⟨_, (next_inj h).symm⟩
    | false =>
      obtain ⟨c, -, ht⟩ := exec_idle_other hx hidle hreq h
      exact ⟨_, ht⟩
  · exact ⟨x, hx, .inr ⟨hrunning, exec_instr_running hx hrunning h⟩⟩

/-- No instruction takes time: neither a hand-over nor an action changes `now`. -/
theorem exec_now {i : Instr} {s t : State} (h : exec i s = .next t) : t.now = s.now := by
  obtain ⟨x, hx, ⟨-, y, rfl⟩ | ⟨-, heffect⟩⟩ := exec_cases h
  · rfl
  · obtain ⟨_, _, _, _, hnow, _⟩ := effect_frame hx heffect
    exact hnow

/-- Settles O6: the clock's turn is its tick, and `exec` takes no time. -/
theorem timePassesInTicks : Obligations.TimePassesInTicks :=
  ⟨fun _ _ _ ht => step_of_clockTurn ht, fun _ _ _ h => exec_now h⟩

/-! ### A delay in its two halves (R270) -/

section
variable {d t0 : Nat} {x : Ctx} {s : State} {k : Ctx → State → Result}

theorem delayAct_of_none (h : x.delayFrom = none) :
    delayAct d x s k = .next (s.putCtx { x with wake := s.now + d, delayFrom := some s.now }) := by
  simp only [delayAct, h]

theorem delayAct_of_lt_wake (h : x.delayFrom = some t0) (hlt : s.now < x.wake) : delayAct d x s k = .next s := by
  simp only [delayAct, h, Nat.not_le.2 hlt, if_false]

theorem delayAct_of_wake_le (h : x.delayFrom = some t0) (hle : x.wake ≤ s.now) :
    delayAct d x s k = k { x with delayFrom := none } (s.record (.dly s.cur d t0 s.now)) := by
  simp only [delayAct, h, hle, if_true]

end

/-- Settles O7: the start, the hold and the end of a delay. -/
theorem delayIsTwoHalves : Obligations.DelayIsTwoHalves := by
  intro d x s k
  refine ⟨delayAct_of_none, fun _ => delayAct_of_lt_wake, fun t0 hfrom hle => ⟨?ends, fun hwake => ?bound⟩⟩
  case ends => exact delayAct_of_wake_le hfrom hle
  case bound => exact hwake.symm.trans_le hle

/-! ### The lower bound is kept (R270, R290) -/

/-- Settles O51: the delays' invariant is kept by every turn. -/
theorem delaysAreKept : Obligations.DelaysAreKept := fun _ _ hs h => hs.of_step h

end Sys2Proof.Machine
